-- ==== Sys2Proof/Word.lean ====
section
/-!
DEFINITION. Bytes and byte sequences (00_scope.md R10, R11). A byte is an integer 0..255, held as eight bits because
frames are summed, compared and read bit by bit. Byte sequences are plain lists, index 0 first. Time is an exact rational
number of milliseconds (00_scope.md R14).
-/

namespace Sys2Proof

/-- One byte, 0..255, bit 0 the least significant (00_scope.md R10). -/
abbrev Byte := BitVec 8

/-- Milliseconds, exact (00_scope.md R14). -/
abbrev Millis := Rat

/-- The broadcast id 0xFE, a protocol constant (00_scope.md R6, 30_encoding.md R85). -/
def broadcastId : Byte := 0xFE

/-- The header byte 0xFF, a protocol constant (00_scope.md R6, 30_encoding.md R83). -/
def headerByte : Byte := 0xFF

end Sys2Proof
end

