-- ==== Sys2Proof/Config.lean ====
section
/-!
DEFINITION. The configuration parameters of 00_scope.md R6 with their defaults and constraints, and the free values: what
the spec leaves open has here a constant with no body, so that no proof can learn its value (log 2, 3, 4, 9, 10, 27).
-/

namespace Sys2Proof

/-- Byte order of 16-bit data words, parameter `P_END` (20_memory.md R62). -/
inductive Endian where
  | little
  | big
deriving DecidableEq, Repr

/-- The configuration parameters of 00_scope.md R6. Each is fixed for the life of a model instance. -/
structure Params where
  /-- `P_BITS_PER_BYTE`: line bits per byte. -/
  bitsPerByte : Nat
  /-- `P_LATENCY_MS`: fixed device turnaround latency, ms. -/
  latencyMs : Millis
  /-- `P_TIMEOUT_EXTRA_MS`: constant added to every timeout, ms. -/
  timeoutExtraMs : Millis
  /-- `P_RESP_MARGIN`: bytes added to the expected response length. -/
  respMargin : Nat
  /-- `P_TX_MAX_LEN`: largest total frame the codec builds. -/
  txMaxLen : Nat
  /-- `P_RX_MAX_LEN`: largest declared length field the parser accepts. -/
  rxMaxLen : Nat
  /-- `P_MIN_FRAME`: initial accumulation target and smallest valid response. -/
  minFrame : Nat
  /-- `P_RX_ID_MAX`: largest device id the parser accepts in a header. -/
  rxIdMax : Nat
  /-- `P_END`: byte order of 16-bit data words. -/
  endian : Endian
  /-- `P_HOST_PORTS`: number of host command ports. -/
  hostPorts : Nat
  /-- `P_RX_FIFO_DEPTH`: capacity of the receive FIFO; `none` is unbounded, and 0 is admitted (log 28). -/
  rxFifoDepth : Option Nat
  /-- `P_ACC_ADDR`: device register address of acceleration (host side). -/
  accAddr : Byte
  /-- `P_MODE_POSITION`: the mode register's value for position mode (host side). -/
  modePosition : Byte
  /-- `P_MODE_WHEEL`: the mode register's value for wheel mode (host side). -/
  modeWheel : Byte
deriving DecidableEq, Repr

/-- The constraints a model must check on parameters (00_scope.md R6); "at least 1" of `P_HOST_PORTS` is in the table.
DESIGN CHOICE (log 26): R6 bounds `P_MIN_FRAME` from below only, while 10_state.md R20, R32 and R33 keep `WANT` and
`|RX_BUF|` at 255 or less; the model follows R6, so an instance with `P_MIN_FRAME` above 255 is legal, and there both pass
255. DESIGN CHOICE (log 28): R6 leaves `P_RX_FIFO_DEPTH` OPEN and names no bound, so an instance of depth 0 is legal; by
40_transport.md R131 and R134 it drops every delivered byte, so that 41_frame_codec.md R156 to R159 fail of the bytes
delivered. DESIGN CHOICE (log 30): R6 names no bound of `P_BITS_PER_BYTE` and of the two rational times, so 0 bits per byte,
and times below 0, are legal; with 0 bits the line rate of R132 bounds nothing. -/
abbrev Params.wf (c : Params) : Prop :=
  6 ≤ c.minFrame ∧ 6 ≤ c.txMaxLen ∧ c.rxMaxLen ≤ 251 ∧ c.rxIdMax ≤ 0xFD ∧ 1 ≤ c.hostPorts

/-- Free: the OPEN parameter `P_RX_FIFO_DEPTH` (00_scope.md R6, 93 I11). -/
opaque Config.rxFifoDepth : Option Nat

/-- Free: the OPEN parameter `P_ACC_ADDR` (00_scope.md R6, 93 I22). -/
opaque Config.accAddr : Byte

/-- Free: the OPEN parameter `P_MODE_POSITION` (00_scope.md R6, 93 I22). -/
opaque Config.modePosition : Byte

/-- Free: the OPEN parameter `P_MODE_WHEEL` (00_scope.md R6, 93 I22). -/
opaque Config.modeWheel : Byte

/-- Free: whether the environment lets a line open, at the k-th free draw (40_transport.md R120, 93 I6). -/
opaque Config.openAccepts : Nat → Bool

/-- Free: how many bytes a write gets out, at the k-th free draw, before it is cut to the frame (40_transport.md R129,
93 I7). -/
opaque Config.writeCount : Nat → Nat

/-- Free: which of several enabled moves comes next, at the k-th free draw (60_exceptions.md R255, 93 I10). -/
opaque Config.schedule : Nat → Nat

/-- Free: numerator and denominator less one of the time at power-on (10_state.md R36, 93 I9). -/
opaque Config.powerOnDraw : Nat × Nat

/-- Free: numerator less one and denominator less one of how far the Clock advances, at the k-th free draw
(40_transport.md R135; log 27). -/
opaque Config.clockAdvance : Nat → Nat × Nat

/-- Free: the draw from which on the Clock sets no time below `n` ms. "NOW grows without bound in every infinite run"
(40_transport.md R135): there is such a draw for every `n`, and which it is is open (log 27). -/
opaque Config.clockReach : Nat → Nat

/-- The least time the Clock may set at the k-th free draw: the greatest `n <= k` that it must have reached by then. It has
no bound, because `n` is reached at draw `max n (clockReach n)`; and every sequence without a bound keeps above it for some
value of `clockReach`. -/
def Config.clockFloor (k : Nat) : Nat :=
  ((List.range (k + 1)).filter fun n => decide (Config.clockReach n ≤ k)).foldl max 0

/-- The time the Clock sets at the k-th free draw, above `now` (40_transport.md R135). -/
def Config.clockTime (now : Millis) (k : Nat) : Millis :=
  max (now + mkRat ((Config.clockAdvance k).1 + 1) ((Config.clockAdvance k).2 + 1)) (Config.clockFloor k : Rat)

/-- The time at power-on, "any non-negative rational" (10_state.md R36): every such number is some value of the draw. -/
def Config.powerOnTime : Millis := mkRat Config.powerOnDraw.1 (Config.powerOnDraw.2 + 1)

/-- Free: the LEN byte of a frame whose length field would exceed 255. It arises only with `P_TX_MAX_LEN > 259`; the
spec states no byte there (log 9). -/
opaque Config.oversizeLen : Nat → Byte

/-- Free: what READ_REG returns for a register of the given bit width whose content does not fit it (log 10). -/
opaque Config.overwideView : Nat → Nat → BitVec 32

/-- The parameters of the instance that resets to `State.reset`: the spec's defaults, and free constants for the OPEN
ones (00_scope.md R6; log 4). -/
def Params.default : Params where
  bitsPerByte := 10
  latencyMs := 16
  timeoutExtraMs := 2
  respMargin := 10
  txMaxLen := 250
  rxMaxLen := 250
  minFrame := 6
  rxIdMax := 0xFD
  endian := .little
  hostPorts := 1
  rxFifoDepth := Config.rxFifoDepth
  accAddr := Config.accAddr
  modePosition := Config.modePosition
  modeWheel := Config.modeWheel

end Sys2Proof
end

