-- ==== Sys2Proof/Machine/Codec.lean ====
section
/-!
DEFINITION. The pure half of the frame codec (41_frame_codec.md): the checksum, the frame layout and its build, and the
header scan's search.
-/

namespace Sys2Proof.Machine

/-- The natural-number sum of a byte sequence, `sum(s)` of 00_scope.md R11. -/
def byteSum : List Byte → Nat
  | [] => 0
  | b :: s => b.toNat + byteSum s

/-- `Checksum(s) = 0xFF - (sum(s) mod 256)` (41_frame_codec.md R140). -/
def checksum (s : List Byte) : Byte := BitVec.ofNat 8 (0xFF - byteSum s % 256)

/-- The length field as a byte. Where it exceeds a byte (only with `P_TX_MAX_LEN > 259`) the spec states none: a free
value (log 9). -/
def lenByte (n : Nat) : Byte := if n < 256 then BitVec.ofNat 8 n else Config.oversizeLen n

/-- What the checksum covers: id, length, instruction, params (30_encoding.md R86). -/
def frameBody (id instr : Byte) (params : List Byte) : List Byte :=
  id :: lenByte (params.length + 2) :: instr :: params

/-- The frame of 30_encoding.md R82: `FF FF`, the body, the body's checksum. -/
def frameOf (id instr : Byte) (params : List Byte) : List Byte :=
  headerByte :: headerByte :: (frameBody id instr params ++ [checksum (frameBody id instr params)])

/-- `BuildFrame(id, instr, params)`; `none` is FAIL (41_frame_codec.md R141, R142). -/
def buildFrame (cfg : Params) (id instr : Byte) (params : List Byte) : Option (List Byte) :=
  if params.length + 6 > cfg.txMaxLen then none else some (frameOf id instr params)

/-- The least `k` with `s[k] = s[k+1] = 0xFF`, or `none` (41_frame_codec.md R147). -/
def findHeader : List Byte → Option Nat
  | [] => none
  | [_] => none
  | a :: b :: s =>
    if a = headerByte ∧ b = headerByte then some 0 else (findHeader (b :: s)).map (· + 1)

end Sys2Proof.Machine
end

