-- ==== Sys2Proof/Syntax.lean ====
section
/-!
DEFINITION. The instructions: one constructor for each row of spec/opcode_table.json. Nine are host commands, an opcode
byte with typed operands (30_encoding.md R98, R99). Four are wire instructions, a request frame with that code at byte 4
(30_encoding.md R82, R90, R91); their operands are the frame's id and params, and id 0xFE is the broadcast form
(30_encoding.md R85; log 6).
-/

namespace Sys2Proof

/-- The instructions of the opcode table. -/
inductive Instr where
  /-- OPEN, opcode 0x01 (40_transport.md R120). -/
  | openLine (baud : BitVec 32)
  /-- CLOSE, opcode 0x02 (40_transport.md R121). -/
  | closeLine
  /-- READ_REG, opcode 0x03 (40_transport.md R122). -/
  | readReg (reg : BitVec 32)
  /-- SEND_UNICAST, opcode 0x10 (42_request_response.md R170). -/
  | sendUnicast (id instr : Byte) (params : List Byte)
  /-- SEND_BROADCAST, opcode 0x11 (42_request_response.md R177). -/
  | sendBroadcast (instr : Byte) (params : List Byte)
  /-- GWB_INIT, opcode 0x20 (43_group_write.md R190). -/
  | gwbInit (addr width : Byte)
  /-- GWB_ADD, opcode 0x21 (43_group_write.md R191). -/
  | gwbAdd (id : Byte) (data : List Byte)
  /-- GWB_PAYLOAD, opcode 0x22 (43_group_write.md R192). -/
  | gwbPayload
  /-- GWB_SEND, opcode 0x23 (43_group_write.md R193). -/
  | gwbSend
  /-- PING, wire code 0x01 (45_wire_instructions.md R230). -/
  | ping (id : Byte) (params : List Byte)
  /-- READ, wire code 0x02 (45_wire_instructions.md R231). -/
  | read (id : Byte) (params : List Byte)
  /-- WRITE, wire code 0x03 (45_wire_instructions.md R232). -/
  | write (id : Byte) (params : List Byte)
  /-- SYNC_WRITE, wire code 0x83 (45_wire_instructions.md R233). -/
  | syncWrite (id : Byte) (params : List Byte)
deriving DecidableEq, Repr

/-- What a host hands over to issue: the bytes of a host command, or a request frame it wants carried (log 5, log 6). -/
inductive Request where
  | host (message : List Byte)
  | wire (frame : List Byte)
deriving DecidableEq, Repr

/-- Why a request is no issuable command (30_encoding.md R98, 93 I25). -/
inductive DecodeError where
  /-- A host command without an opcode byte. -/
  | emptyMessage
  /-- The message's length is not that of the opcode's operands. -/
  | badOperands (opcode : Byte)
  /-- The frame does not begin with `FF FF id len instr`. -/
  | badHeader
  /-- The frame is not `len + 4` bytes long, or has no checksum byte (30_encoding.md R84). -/
  | badLength
  /-- The checksum byte differs from the checksum (30_encoding.md R86). -/
  | badChecksum
deriving DecidableEq, Repr

/-- The commands a host can issue. A command with operand values outside their types is none of them: "the model's command
type does not contain it" (30_encoding.md R98). -/
inductive Command where
  /-- An instruction of the opcode table. -/
  | instr (i : Instr)
  /-- A host command whose opcode byte is not assigned (30_encoding.md R103). -/
  | unassigned (opcode : Byte)
  /-- A request frame whose instruction byte the source does not name (30_encoding.md R92). -/
  | otherWire (id code : Byte) (params : List Byte)
deriving DecidableEq, Repr

/-- What a request decodes to. -/
inductive Decoded where
  /-- A command. -/
  | command (c : Command)
  /-- No command at all. -/
  | malformed (e : DecodeError)
deriving DecidableEq, Repr

end Sys2Proof
end

