-- ==== Sys2Proof/WellFormed.lean ====
section
/-!
DEFINITION. Which instructions exist. The operand types of 30_encoding.md R102 already exclude every operand value outside
its range, so each host command is well formed. A wire instruction is a frame, whose length field `|params| + 2` is one
byte (30_encoding.md R82, R84).
-/

namespace Sys2Proof

/-- The params of a frame: `LEN = |PARAMS| + 2` is a byte (30_encoding.md R84). -/
abbrev frameParamsFit (params : List Byte) : Prop := params.length + 2 ≤ 255

/-- The well-formed instructions. -/
abbrev Instr.WellFormed (i : Instr) : Prop :=
  match i with
  | .openLine _ => True
  | .closeLine => True
  | .readReg _ => True
  | .sendUnicast _ _ _ => True
  | .sendBroadcast _ _ => True
  | .gwbInit _ _ => True
  | .gwbAdd _ _ => True
  | .gwbPayload => True
  | .gwbSend => True
  | .ping _ params => frameParamsFit params
  | .read _ params => frameParamsFit params
  | .write _ params => frameParamsFit params
  | .syncWrite _ params => frameParamsFit params

/-- The assigned opcode bytes of host commands (30_encoding.md R99). -/
def assignedOpcodes : List Byte := [0x01, 0x02, 0x03, 0x10, 0x11, 0x20, 0x21, 0x22, 0x23]

/-- The named wire instruction bytes (30_encoding.md R91). -/
def namedCodes : List Byte := [0x01, 0x02, 0x03, 0x83]

/-- The commands a host can issue: an unassigned opcode is one outside the table (30_encoding.md R103), another wire
instruction has an unnamed byte (R92) and is a frame. -/
abbrev Command.WellFormed (c : Command) : Prop :=
  match c with
  | .instr i => i.WellFormed
  | .unassigned op => op ∉ assignedOpcodes
  | .otherWire _ code params => code ∉ namedCodes ∧ frameParamsFit params

end Sys2Proof
end

