-- ==== Sys2Proof/Decode.lean ====
section
/-!
DEFINITION. Decoding, total on any bytes, and the encoder. The spec has two encodings (30_encoding.md): host commands, an
opcode byte followed by typed operands (R98, R99), and request frames (R82, R90, R91). The spec gives the opcode bytes and
the operands' types; the bytes of a 32-bit operand (least significant first) and the message's end as the end of a byte
sequence are this model's own (log 5).
-/

namespace Sys2Proof

open Sys2Proof.Machine

/-- A 32-bit operand from its four bytes, least significant first (log 5). -/
def u32 (b0 b1 b2 b3 : Byte) : BitVec 32 :=
  BitVec.ofNat 32 (b0.toNat + 256 * b1.toNat + 65536 * b2.toNat + 16777216 * b3.toNat)

/-- The four bytes of a 32-bit operand, least significant first (log 5). -/
def u32Bytes (v : BitVec 32) : List Byte :=
  [BitVec.ofNat 8 v.toNat, BitVec.ofNat 8 (v.toNat / 256), BitVec.ofNat 8 (v.toNat / 65536),
    BitVec.ofNat 8 (v.toNat / 16777216)]

/-- The operands of OPEN and READ_REG: exactly four bytes. -/
def decodeU32 (opcode : Byte) (k : BitVec 32 → Instr) : List Byte → Decoded
  | [b0, b1, b2, b3] => .command (.instr (k (u32 b0 b1 b2 b3)))
  | _ => .malformed (.badOperands opcode)

/-- The operands of CLOSE, GWB_PAYLOAD and GWB_SEND: none. -/
def decodeNone (opcode : Byte) (i : Instr) : List Byte → Decoded
  | [] => .command (.instr i)
  | _ => .malformed (.badOperands opcode)

/-- The operands of SEND_UNICAST: id, instruction, params. -/
def decodeUnicast (opcode : Byte) : List Byte → Decoded
  | id :: code :: params => .command (.instr (.sendUnicast id code params))
  | _ => .malformed (.badOperands opcode)

/-- The operands of SEND_BROADCAST: instruction, params. -/
def decodeBroadcast (opcode : Byte) : List Byte → Decoded
  | code :: params => .command (.instr (.sendBroadcast code params))
  | _ => .malformed (.badOperands opcode)

/-- The operands of GWB_INIT: address and width. -/
def decodeGwbInit (opcode : Byte) : List Byte → Decoded
  | [addr, width] => .command (.instr (.gwbInit addr width))
  | _ => .malformed (.badOperands opcode)

/-- The operands of GWB_ADD: id, data. -/
def decodeGwbAdd (opcode : Byte) : List Byte → Decoded
  | id :: data => .command (.instr (.gwbAdd id data))
  | _ => .malformed (.badOperands opcode)

/-- A host command from its opcode byte and operand bytes (30_encoding.md R99, R103). -/
def decodeCommand (op : Byte) (operands : List Byte) : Decoded :=
  if op = 0x01 then decodeU32 op .openLine operands
  else if op = 0x02 then decodeNone op .closeLine operands
  else if op = 0x03 then decodeU32 op .readReg operands
  else if op = 0x10 then decodeUnicast op operands
  else if op = 0x11 then decodeBroadcast op operands
  else if op = 0x20 then decodeGwbInit op operands
  else if op = 0x21 then decodeGwbAdd op operands
  else if op = 0x22 then decodeNone op .gwbPayload operands
  else if op = 0x23 then decodeNone op .gwbSend operands
  else .command (.unassigned op)

/-- A host command message. -/
def decodeHost : List Byte → Decoded
  | [] => .malformed .emptyMessage
  | op :: operands => decodeCommand op operands

/-- A wire instruction from its code at frame offset 4 (30_encoding.md R91, R92). -/
def wireInstr (id code : Byte) (params : List Byte) : Decoded :=
  if code = 0x01 then .command (.instr (.ping id params))
  else if code = 0x02 then .command (.instr (.read id params))
  else if code = 0x03 then .command (.instr (.write id params))
  else if code = 0x83 then .command (.instr (.syncWrite id params))
  else .command (.otherWire id code params)

/-- A request frame (30_encoding.md R82): header, length relation (R84) and checksum (R86), then its instruction. -/
def decodeFrame : List Byte → Decoded
  | h0 :: h1 :: id :: len :: code :: rest =>
    if h0 ≠ headerByte ∨ h1 ≠ headerByte then .malformed .badHeader
    else if rest.length + 1 ≠ len.toNat then .malformed .badLength
    else
      match rest.getLast? with
      | none => .malformed .badLength
      | some chk =>
        if chk ≠ checksum (id :: len :: code :: rest.dropLast) then .malformed .badChecksum
        else wireInstr id code rest.dropLast
  | _ => .malformed .badHeader

/-- The decoder of a host's request. -/
def decode : Request → Decoded
  | .host message => decodeHost message
  | .wire frame => decodeFrame frame

/-- The encoder, from 30_encoding.md R99 for host commands and from R82, R90 and R91 for wire instructions. -/
def encode : Instr → Request
  | .openLine baud => .host (0x01 :: u32Bytes baud)
  | .closeLine => .host [0x02]
  | .readReg reg => .host (0x03 :: u32Bytes reg)
  | .sendUnicast id code params => .host (0x10 :: id :: code :: params)
  | .sendBroadcast code params => .host (0x11 :: code :: params)
  | .gwbInit addr width => .host [0x20, addr, width]
  | .gwbAdd id data => .host (0x21 :: id :: data)
  | .gwbPayload => .host [0x22]
  | .gwbSend => .host [0x23]
  | .ping id params => .wire (frameOf id 0x01 params)
  | .read id params => .wire (frameOf id 0x02 params)
  | .write id params => .wire (frameOf id 0x03 params)
  | .syncWrite id params => .wire (frameOf id 0x83 params)

/-- The first `n` bytes of a number, bit 0 in the first byte's bit 0, as spec/opcode_table.json numbers an
instruction's bits. -/
def bytesOfNat : Nat → Nat → List Byte
  | 0, _ => []
  | n + 1, w => BitVec.ofNat 8 w :: bytesOfNat n (w / 256)

/-- How many bytes a host command has with every byte-sequence operand empty (30_encoding.md R99). -/
def commandBytes (op : Byte) : Nat :=
  if op = 0x01 ∨ op = 0x03 then 5
  else if op = 0x10 ∨ op = 0x20 then 3
  else if op = 0x11 ∨ op = 0x21 then 2
  else 1

/-- The request whose bits are `w`, as spec/opcode_table.json numbers them. A word of six bytes or more that begins
`FF FF` is a whole request frame. Otherwise byte 0 is a host opcode, with operand bytes of zeros above the bits given;
where that opcode is unassigned and is SYNC_WRITE's code, the word is the table's other numbering, "matched on frame byte
4", and the request is the frame with that byte, the broadcast id and no params (log 7). -/
def requestOfTableWord (nbits w : Nat) : Request :=
  let given := bytesOfNat (nbits / 8) w
  let op := BitVec.ofNat 8 w
  if 48 ≤ nbits ∧ given.take 2 = [headerByte, headerByte] then .wire given
  else if op = 0x83 then .wire (frameOf broadcastId 0x83 [])
  else .host (given ++ List.replicate (commandBytes op - nbits / 8) 0)

/-- The instruction the decoder reads from a table word; `none` where it refuses. -/
def decodeTableWord (nbits w : Nat) : Option Instr :=
  match decode (requestOfTableWord nbits w) with
  | .command (.instr i) => some i
  | .command (.unassigned _) => none
  | .command (.otherWire _ _ _) => none
  | .malformed _ => none

end Sys2Proof
end

