-- ==== Sys2Proof/Machine/State.lean ====
section
/-!
DEFINITION. The state of the block, every element of 10_state.md R20, as plain data; the environment's inputs and choices
(log 1, log 2); the reasons a step can stop; and the state after reset (10_state.md R50).
-/

namespace Sys2Proof.Machine

/-- The exchange state machine `XSTATE` (10_state.md R27). -/
inductive XState where
  | idle
  | sending
  | awaitingResponse
deriving DecidableEq, Repr

/-- The kind of an exchange, `XKIND` (10_state.md R28). -/
inductive XKind where
  | unicast
  | broadcast
deriving DecidableEq, Repr

/-- The nine outcome codes, in the order that numbers them 0..8 (30_encoding.md R95). `rxFail` and `rxWaiting` are
members that nothing produces (R96). -/
inductive CommResult where
  | success
  | portBusy
  | txFail
  | rxFail
  | txError
  | rxWaiting
  | rxTimeout
  | rxCorrupt
  | notAvailable
deriving DecidableEq, Repr

/-- A completion record `rec = (code, bool, err, data, value)`, of the fields the command's rule names
(30_encoding.md R100). -/
structure Completion where
  code : Option CommResult := none
  bool : Option Bool := none
  err : Option Byte := none
  data : Option (List Byte) := none
  value : Option (BitVec 32) := none
deriving DecidableEq, Repr

/-- One host port: its pending command, result registers and group write buffer (60_exceptions.md R260). -/
@[ext]
structure Port where
  /-- `PENDING[p]`: a command with its operands (10_state.md R42, 30_encoding.md R98). -/
  pending : Option Command
  /-- `RES_CODE[p]` (10_state.md R38). -/
  resCode : CommResult
  /-- `RES_BOOL[p]` (10_state.md R39). -/
  resBool : Bool
  /-- `RES_ERR[p]` (10_state.md R40). -/
  resErr : Byte
  /-- `RES_DATA[p]` (10_state.md R41); `RES_LEN[p]` is its length (log 11). -/
  resData : List Byte
  /-- `GWB_VALID[p]` (10_state.md R43). -/
  gwbValid : Bool
  /-- `GWB_ADDR[p]` (10_state.md R43). -/
  gwbAddr : Byte
  /-- `GWB_WIDTH[p]` (10_state.md R43). -/
  gwbWidth : Byte
  /-- `GWB_IDS[p]` with `GWB_DATA[p]`: each id with its data, in insertion order (10_state.md R44; log 11). -/
  gwbEntries : List (Byte × List Byte)
  /-- The completion records returned to the host, oldest first: the model's own, observation only (log 12). -/
  completions : List Completion
deriving DecidableEq, Repr

/-- A step of one agent (00_scope.md R8). -/
inductive Move where
  /-- Engine: TX_DONE or a receive step of the exchange in progress. -/
  | exchange
  /-- Engine: begin the command pending on port `p`. -/
  | serve (p : Nat)
  /-- Host(p): issue its next command. -/
  | issue (p : Nat)
  /-- Line: deliver the next byte. -/
  | line
  /-- Clock: advance `NOW`. -/
  | clock
  /-- The platform: assert reset. -/
  | reset
deriving DecidableEq, Repr

/-- The environment: what its agents will still do, and the choices it has made (log 1, log 2). The model's own. -/
structure Env where
  /-- For each port, the requests its host will still issue, in order. -/
  hostIn : List (List Request)
  /-- The bytes the Line will still deliver, in order (40_transport.md R131). -/
  lineIn : List Byte
  /-- The values the Clock will next set `NOW` to, in order; past them it draws (40_transport.md R135; log 27). -/
  clockIn : List Millis
  /-- How many resets the platform will still assert (70_reset_and_hazards.md R270). -/
  resets : Nat
  /-- The scheduler's choices already made. -/
  sched : List Move
  /-- OPEN's draws of `ok` already made (40_transport.md R120). -/
  openDraws : List Bool
  /-- Write's draws of `n` already made (40_transport.md R129). -/
  writeDraws : List Nat
  /-- The counter of free values: each draw past those lists reads and advances it. -/
  draws : Nat
  /-- When the open line last delivered a byte (40_transport.md R132; log 14). -/
  lastRx : Option Millis
deriving DecidableEq, Repr

/-- The state of the block and its environment. -/
@[ext]
structure State where
  /-- The parameters of 00_scope.md R6, which no step changes (log 4). -/
  cfg : Params
  /-- `OPEN` (10_state.md R22). -/
  lineOpen : Bool
  /-- `BAUD` (10_state.md R23). -/
  baud : BitVec 32
  /-- `MS_PER_BYTE` (10_state.md R24). -/
  msPerByte : Millis
  /-- `BUSY` (10_state.md R25). -/
  busy : Bool
  /-- `XOWNER` (10_state.md R26). -/
  xowner : Option Nat
  /-- `XSTATE` (10_state.md R27). -/
  xstate : XState
  /-- `XKIND` (10_state.md R28). -/
  xkind : XKind
  /-- `REQ_ID` (10_state.md R29). -/
  reqId : Byte
  /-- `REQ_EXPECT` (10_state.md R29). -/
  reqExpect : Nat
  /-- `TX_BUF` (10_state.md R30). -/
  txBuf : List Byte
  /-- `RX_FIFO` (10_state.md R31), head first. -/
  rxFifo : List Byte
  /-- `RX_BUF` (10_state.md R32; log 26). -/
  rxBuf : List Byte
  /-- `WANT` (10_state.md R33; log 26). -/
  want : Nat
  /-- `T_START` (10_state.md R34). -/
  tStart : Millis
  /-- `T_DUR` (10_state.md R35). -/
  tDur : Millis
  /-- `NOW` (10_state.md R36). -/
  now : Millis
  /-- `LINE_OUT` (10_state.md R37). -/
  lineOut : List Byte
  /-- The host ports `0 .. P_HOST_PORTS-1` (60_exceptions.md R260). -/
  ports : List Port
  /-- The port whose command the Engine serves: the `p` of the command rules. The model's own (log 18). -/
  port : Nat
  /-- The environment. The model's own (log 1, log 2). -/
  env : Env
deriving DecidableEq, Repr

/-- The block has no faults: "No rule of this spec raises a fault that stops the block" (00_scope.md R9), and every
failure is a completion (60_exceptions.md R240, R257). So there is no constructor, and no step can answer `fault`. -/
inductive Fault where
deriving DecidableEq, Repr

/-- Why the model has no meaning for what was asked. -/
inductive Refusal where
  /-- Raised by an arm of `exec` for an instruction without a meaning. Safe: the machine stops. -/
  | notModelled (mnemonic : String)
  /-- Raised by a step in which a host would issue a request that is no command: "A command whose operand values are
  outside their types cannot be issued" (30_encoding.md R98; 93 I25: refuse). Safe: the machine stops. -/
  | notIssuable (e : DecodeError)
  /-- Raised by a command on a port number that is not one of `0 .. P_HOST_PORTS-1` (00_scope.md R8): there is no such
  host to issue it. No step of the machine does so. Safe: the machine stops. -/
  | noSuchPort
  /-- Raised by a step of an instance whose parameters break the constraints "a model must check" (00_scope.md R6).
  Safe: the machine stops. -/
  | badParameters
deriving DecidableEq, Repr

/-- A host port at reset (10_state.md R50). -/
def Port.reset : Port where
  pending := none
  resCode := .success
  resBool := false
  resErr := 0
  resData := []
  gwbValid := false
  gwbAddr := 0
  gwbWidth := 0
  gwbEntries := []
  completions := []

/-- An environment that has made no choice and has nothing planned (log 1, log 2). -/
def Env.start : Env where
  hostIn := []
  lineIn := []
  clockIn := []
  resets := 0
  sched := []
  openDraws := []
  writeDraws := []
  draws := 0
  lastRx := none

/-- The reset values of 10_state.md R50, for an instance with parameters `cfg`, at time `now`, in environment `env`. -/
def State.resetWith (cfg : Params) (now : Millis) (env : Env) : State where
  cfg := cfg
  lineOpen := false
  baud := 0
  msPerByte := 0
  busy := false
  xowner := none
  xstate := .idle
  xkind := .unicast
  reqId := 0
  reqExpect := 0
  txBuf := []
  rxFifo := []
  rxBuf := []
  want := cfg.minFrame
  tStart := 0
  tDur := 0
  now := now
  lineOut := []
  ports := List.replicate cfg.hostPorts Port.reset
  port := 0
  env := env

/-- The machine right after power-on reset: the default parameters, and `NOW` a draw (10_state.md R36, R50). -/
def State.reset : State := State.resetWith Params.default Config.powerOnTime Env.start

end Sys2Proof.Machine
end

