-- ==== Sys2Proof/Machine/Ops.lean ====
section
/-!
DEFINITION. The named operations: buffer reads and writes (00_scope.md R13), the ports, completion (30_encoding.md R100),
acquire and release (40_transport.md R123, R124), time (R125 to R128), the FIFO and the line (R129 to R134), the draws of
the environment. The block takes no exception and returns from none (60_exceptions.md R257): the completions here are its
only way to report a failure (R240).
-/

namespace Sys2Proof.Machine

/-- `MemRead(buf, i, n) = buf[i..i+n)` (00_scope.md R13, 20_memory.md R60). -/
def memRead (buf : List Byte) (i n : Nat) : List Byte := (buf.drop i).take n

/-- `MemWrite(buf, i, n, v)` with `n = |v|` (00_scope.md R13, 20_memory.md R60). -/
def memWrite (buf : List Byte) (i : Nat) (v : List Byte) : List Byte :=
  buf.take i ++ v ++ buf.drop (i + v.length)

/-- `buf[i]`. No rule reads at or past a buffer's length (20_memory.md R60); there the model reads 0 (log 22). -/
def byteAt (buf : List Byte) (i : Nat) : Byte := buf.getD i 0

/-! Ports. -/

/-- `RES_LEN[p] = |RES_DATA[p]|` (10_state.md R41). -/
def Port.resLen (q : Port) : Nat := q.resData.length

/-- `GWB_IDS[p]`: the ids in insertion order (10_state.md R44). -/
def Port.gwbIds (q : Port) : List Byte := q.gwbEntries.map Prod.fst

/-- `GWB_DATA[p][id]` (10_state.md R44). -/
def Port.gwbData (q : Port) (id : Byte) : Option (List Byte) := q.gwbEntries.lookup id

/-- Port `p`'s registers (`Port.reset` for a number that is no port; no rule asks). -/
def portAt (s : State) (p : Nat) : Port := s.ports.getD p Port.reset

/-- Rewrite port `p`'s registers; every other port stays (60_exceptions.md R260). -/
def onPort (s : State) (p : Nat) (f : Port → Port) : State := { s with ports := s.ports.modify p f }

/-- `complete(p, rec)`: port `p` has no pending command any more, and its host gets `rec` (30_encoding.md R100). -/
def Port.complete (q : Port) (rec : Completion) : Port :=
  { q with pending := none, completions := q.completions ++ [rec] }

/-- The completion of OPEN and GWB_ADD: `RES_BOOL[p] <- b; complete(p, bool=b)` (40_transport.md R120,
43_group_write.md R191). -/
def Port.completeBool (q : Port) (b : Bool) : Port :=
  ({ q with resBool := b }).complete { bool := some b }

/-- `RES_CODE[p] <- c; complete(p, code=c)`: the broadcast completion (42_request_response.md R171, R178), GWB_SEND's
no-op (43_group_write.md R193), and an unassigned opcode's (30_encoding.md R103). -/
def Port.completeCode (q : Port) (c : CommResult) : Port :=
  ({ q with resCode := c }).complete { code := some c }

/-- The unicast completion: code, error byte and data latched and returned (42_request_response.md R171, R176). -/
def Port.completeUnicast (q : Port) (c : CommResult) (err : Byte) (data : List Byte) : Port :=
  ({ q with resCode := c, resErr := err, resData := data }).complete
    { code := some c, err := some err, data := some data }

/-- A command of port `s.port` as one atomic Engine step (30_encoding.md R101). A number that is no port has no host to
issue it (00_scope.md R8; log 18). -/
def command (s : State) (f : Nat → State → State) : Host.Outcome State Fault Refusal :=
  if s.port < s.ports.length then .next (f s.port s) else .refused .noSuchPort

/-! Port ownership. -/

/-- `Acquire(p)`: the busy flag's test-and-set; `none` is a failed test, which changes nothing (40_transport.md R123). -/
def acquire (s : State) (p : Nat) : Option State :=
  if s.busy then none else some { s with busy := true, xowner := some p }

/-- `Release()` (40_transport.md R124). -/
def release (s : State) : State := { s with busy := false, xowner := none, xstate := .idle }

/-! Time. -/

/-- `MS_PER_BYTE = 1000 * P_BITS_PER_BYTE / baud`, exact (40_transport.md R120, R125). -/
def lineTime (cfg : Params) (baud : BitVec 32) : Millis := 1000 * (cfg.bitsPerByte : Rat) / (baud.toNat : Rat)

/-- `TimeoutMs(n)` (40_transport.md R126). -/
def timeoutMs (s : State) (n : Nat) : Millis :=
  s.msPerByte * (n : Rat) + 2 * s.cfg.latencyMs + s.cfg.timeoutExtraMs

/-- `Expired()`, strict (40_transport.md R127). -/
def expired (s : State) : Bool := decide (s.tDur < s.now - s.tStart)

/-- The timer start (40_transport.md R128): `REQ_EXPECT`, `T_DUR` and `T_START` for an expected length `n`. -/
def startTimer (s : State) (n : Nat) : State :=
  { s with reqExpect := n, tDur := timeoutMs s n, tStart := s.now }

/-! The line. -/

/-- `FifoFlush()` (40_transport.md R133). -/
def fifoFlush (s : State) : State := { s with rxFifo := [] }

/-- `LineEmit(bytes)` (40_transport.md R131). -/
def lineEmit (s : State) (bytes : List Byte) : State := { s with lineOut := s.lineOut ++ bytes }

/-! Draws of the environment (00_scope.md R13). Each takes the next choice the environment has made; past those, a free
value at the counter, which it advances (log 2). -/

/-- `draw ok in {true, false}` (40_transport.md R120). -/
def drawOpen (s : State) : Bool × State :=
  match s.env.openDraws with
  | ok :: rest => (ok, { s with env := { s.env with openDraws := rest } })
  | [] => (Config.openAccepts s.env.draws, { s with env := { s.env with draws := s.env.draws + 1 } })

/-- `draw n in {0, 1, ..., L}` (40_transport.md R129): the choice, cut to `L`. -/
def drawWrite (s : State) (L : Nat) : Nat × State :=
  match s.env.writeDraws with
  | n :: rest => (min n L, { s with env := { s.env with writeDraws := rest } })
  | [] => (min (Config.writeCount s.env.draws) L, { s with env := { s.env with draws := s.env.draws + 1 } })

/-- `draw t` with `t > NOW` (40_transport.md R135): the next time recorded; past those, and in place of one that is not above
`NOW`, a free one (log 25, log 27). -/
def drawTime (s : State) : Millis × State :=
  let free : Env := { s.env with draws := s.env.draws + 1 }
  match s.env.clockIn with
  | [] => (Config.clockTime s.now s.env.draws, { s with env := free })
  | t :: rest =>
    if s.now < t then (t, { s with env := { s.env with clockIn := rest } })
    else (Config.clockTime s.now s.env.draws, { s with env := { free with clockIn := rest } })

/-- `Write()`: hand `TX_BUF` to the line, which takes a prefix; a closed line takes nothing (40_transport.md R129). -/
def writeTx (s : State) : Nat × State :=
  if s.lineOpen then
    let d := drawWrite s s.txBuf.length
    (d.1, lineEmit d.2 (s.txBuf.take d.1))
  else (0, s)

end Sys2Proof.Machine
end

