-- ==== Sys2Proof/Machine/Operands.lean ====
section
/-!
DEFINITION. The operand forms: 16-bit words in params (20_memory.md R62), the params of each wire instruction
(30_encoding.md R90), the payload and parameter block of a group write (43_group_write.md R192, R194), and a character's
data bits (30_encoding.md R80).
-/

namespace Sys2Proof.Machine

/-- `Pack16(v)` in the order `P_END` (20_memory.md R62). -/
def pack16 (e : Endian) (v : BitVec 16) : List Byte :=
  match e with
  | .little => [v.extractLsb' 0 8, v.extractLsb' 8 8]
  | .big => [v.extractLsb' 8 8, v.extractLsb' 0 8]

/-- `Unpack16([b0, b1])` in the order `P_END` (20_memory.md R62). -/
def unpack16 (e : Endian) (b0 b1 : Byte) : BitVec 16 :=
  match e with
  | .little => b1 ++ b0
  | .big => b0 ++ b1

/-- The params of a READ: `[addr, count]` (30_encoding.md R90). -/
def readParams (addr count : Byte) : List Byte := [addr, count]

/-- The params of a WRITE: `[addr, d0, d1, ...]` (30_encoding.md R90). -/
def writeParams (addr : Byte) (data : List Byte) : List Byte := addr :: data

/-- The params of a PING: none (30_encoding.md R90). -/
def pingParams : List Byte := []

/-- `Payload(p)`: for each entry in insertion order, its id and its data (43_group_write.md R192). -/
def Port.payload (q : Port) : List Byte := q.gwbEntries.flatMap fun e => e.1 :: e.2

/-- The sync-write parameter block `[addr, width] ++ payload` (43_group_write.md R193, R194). -/
def Port.syncParams (q : Port) : List Byte := q.gwbAddr :: q.gwbWidth :: q.payload

/-- The params a response or request frame carries: `f[5..|f|-1)` (30_encoding.md R82, 42_request_response.md R174). -/
def frameParams (f : List Byte) : List Byte := memRead f 5 (f.length - 6)

/-- A character's data bits in the order they are on the line, least significant first (30_encoding.md R80,
20_memory.md R64). -/
def lineDataBits (b : Byte) : List Bool := (List.range 8).map b.getLsbD

end Sys2Proof.Machine
end

