-- ==== Sys2Proof/Machine/Exchange.lean ====
section
/-!
DEFINITION. The request/response sequencer (42_request_response.md): Issue with TX_START, TX_DONE, the expected response
length, and the completions that release the port.
-/

namespace Sys2Proof.Machine

/-- `CompleteUnicastFail` and `CompleteFail`: an exchange that ends before it acquires the port. Nothing is released
(42_request_response.md R171). -/
def completeFail (s : State) (p : Nat) (kind : XKind) (c : CommResult) : State :=
  match kind with
  | .unicast => onPort s p fun q => q.completeUnicast c 0 []
  | .broadcast => onPort s p fun q => q.completeCode c

/-- TX_START: acquire the port, or PortBusy (42_request_response.md R172). -/
def txStart (s : State) (p : Nat) (kind : XKind) (id : Byte) (f : List Byte) : State :=
  match acquire s p with
  | none => completeFail s p kind .portBusy
  | some s' => { fifoFlush s' with xkind := kind, reqId := id, txBuf := f, xstate := .sending }

/-- `Issue(p, kind, id, instr, params)` with the TX_START of the same atomic step (42_request_response.md R171, R172). -/
def issueExchange (s : State) (p : Nat) (kind : XKind) (id instr : Byte) (params : List Byte) : State :=
  if kind = .unicast ∧ id = broadcastId then completeFail s p kind .notAvailable
  else
    match buildFrame s.cfg id instr params with
    | none => completeFail s p kind .txError
    | some f => txStart s p kind id f

/-- `Complete(XOWNER, c)` for a unicast that failed: results cleared, port released (42_request_response.md R176). -/
def completeUnicastExchange (s : State) (c : CommResult) : State :=
  match s.xowner with
  | some q => release (onPort s q fun x => x.completeUnicast c 0 [])
  | none => release s

/-- `CompleteOk(XOWNER, f)`: the frame and its error byte, port released (42_request_response.md R176). -/
def completeOk (s : State) (f : List Byte) : State :=
  match s.xowner with
  | some q => release (onPort s q fun x => x.completeUnicast .success (byteAt f 4) f)
  | none => release s

/-- `CompleteBroadcast(XOWNER, c)`: only the code, port released (42_request_response.md R178). -/
def completeBroadcast (s : State) (c : CommResult) : State :=
  match s.xowner with
  | some q => release (onPort s q fun x => x.completeCode c)
  | none => release s

/-- `ExpectedLen(f)` (42_request_response.md R174). -/
def expectedLen (cfg : Params) (f : List Byte) : Nat :=
  if byteAt f 4 = 0x02 ∧ 8 ≤ f.length then (byteAt f 6).toNat + cfg.respMargin else cfg.respMargin

/-- `ParseStart()` (41_frame_codec.md R143). -/
def parseStart (s : State) : State :=
  { s with rxBuf := [], want := s.cfg.minFrame, xstate := .awaitingResponse }

/-- TX_DONE (42_request_response.md R173). -/
def txDone (s : State) : State :=
  let w := writeTx s
  if w.1 ≠ s.txBuf.length then
    match s.xkind with
    | .broadcast => completeBroadcast w.2 .txFail
    | .unicast => completeUnicastExchange w.2 .txFail
  else
    match s.xkind with
    | .broadcast => completeBroadcast w.2 .success
    | .unicast => parseStart (startTimer w.2 (expectedLen s.cfg s.txBuf))

/-- The post-receive check, for a receive that ended in Success with frame `f` (42_request_response.md R175). -/
def postReceive (s : State) (f : List Byte) : State :=
  if byteAt f 2 ≠ s.reqId ∨ f.length < s.cfg.minFrame then completeUnicastExchange s .rxCorrupt
  else completeOk s f

end Sys2Proof.Machine
end

