-- ==== Sys2Proof/Machine/GroupWrite.lean ====
section
/-!
DEFINITION. The group write buffer's host commands (43_group_write.md R190 to R193).
-/

namespace Sys2Proof.Machine

/-- GWB_INIT on a port: a new, empty buffer (43_group_write.md R190). -/
def Port.gwbInit (q : Port) (addr width : Byte) : Port :=
  ({ q with gwbAddr := addr, gwbWidth := width, gwbEntries := [], gwbValid := true }).complete {}

/-- Whether GWB_ADD is rejected: no buffer, id already present, or wrong width (43_group_write.md R191). -/
def Port.gwbRejects (q : Port) (id : Byte) (data : List Byte) : Bool :=
  !q.gwbValid || q.gwbIds.contains id || decide (data.length ≠ q.gwbWidth.toNat)

/-- GWB_ADD on a port (43_group_write.md R191). -/
def Port.gwbAdd (q : Port) (id : Byte) (data : List Byte) : Port :=
  if q.gwbRejects id data then q.completeBool false
  else ({ q with gwbEntries := q.gwbEntries ++ [(id, data)] }).completeBool true

/-- GWB_PAYLOAD on a port (43_group_write.md R192). -/
def Port.gwbPayload (q : Port) : Port :=
  ({ q with resData := q.payload }).complete { data := some q.payload }

/-- GWB_SEND on port `p`: nothing to send is Success; else a broadcast SYNC_WRITE (43_group_write.md R193). -/
def gwbSendCommand (p : Nat) (s : State) : State :=
  let q := portAt s p
  if q.gwbEntries = [] then onPort s p fun q => q.completeCode .success
  else issueExchange s p .broadcast broadcastId 0x83 q.syncParams

/-- GWB_INIT (43_group_write.md R190). -/
def execGwbInit (addr width : Byte) (s : State) : Host.Outcome State Fault Refusal :=
  command s fun p s => onPort s p fun q => q.gwbInit addr width

/-- GWB_ADD (43_group_write.md R191). -/
def execGwbAdd (id : Byte) (data : List Byte) (s : State) : Host.Outcome State Fault Refusal :=
  command s fun p s => onPort s p fun q => q.gwbAdd id data

/-- GWB_PAYLOAD (43_group_write.md R192). -/
def execGwbPayload (s : State) : Host.Outcome State Fault Refusal :=
  command s fun p s => onPort s p fun q => q.gwbPayload

/-- GWB_SEND (43_group_write.md R193). -/
def execGwbSend (s : State) : Host.Outcome State Fault Refusal :=
  command s gwbSendCommand

end Sys2Proof.Machine
end

