-- ==== Sys2Proof/Machine/Requests.lean ====
section
/-!
DEFINITION. The sequencer's host commands: SEND_UNICAST (42_request_response.md R170), SEND_BROADCAST (R177), and the
completion of an unassigned opcode (30_encoding.md R103).
-/

namespace Sys2Proof.Machine

/-- SEND_UNICAST: `Issue(p, Unicast, id, instr, params)` (42_request_response.md R170, R171). -/
def execSendUnicast (id instr : Byte) (params : List Byte) (s : State) : Host.Outcome State Fault Refusal :=
  command s fun p s => issueExchange s p .unicast id instr params

/-- SEND_BROADCAST: `Issue(p, Broadcast, 0xFE, instr, params)` (42_request_response.md R177). -/
def execSendBroadcast (instr : Byte) (params : List Byte) (s : State) : Host.Outcome State Fault Refusal :=
  command s fun p s => issueExchange s p .broadcast broadcastId instr params

/-- A host command with an unassigned opcode byte, whichever byte it is: NotAvailable, latched, no other effect
(30_encoding.md R103). -/
def execUnassigned (s : State) : Host.Outcome State Fault Refusal :=
  command s fun p s => onPort s p fun q => q.completeCode .notAvailable

end Sys2Proof.Machine
end

