-- ==== Sys2Proof/Machine/Flags.lean ====
section
/-!
DEFINITION. The flags (10_state.md R45), the STATUS register that shows them (R47), the numbers of the result codes
(30_encoding.md R95), the names of the device error bits (R93) and the register view (10_state.md R46 to R48).
-/

namespace Sys2Proof.Machine

/-- The number of a result code (30_encoding.md R95). -/
def CommResult.code : CommResult → BitVec 4
  | .success => 0
  | .portBusy => 1
  | .txFail => 2
  | .rxFail => 3
  | .txError => 4
  | .rxWaiting => 5
  | .rxTimeout => 6
  | .rxCorrupt => 7
  | .notAvailable => 8

/-- The number of an exchange state in STATUS bits 3:2 (10_state.md R47). -/
def XState.code : XState → BitVec 2
  | .idle => 0
  | .sending => 1
  | .awaitingResponse => 2

/-- STATUS bit 5: an exchange is in progress and it is a broadcast (10_state.md R47). -/
def statusKind (s : State) : Bool := decide (s.xstate ≠ .idle ∧ s.xkind = .broadcast)

/-- The STATUS register as port `p` sees it (10_state.md R47). -/
def statusByte (s : State) (p : Nat) : Byte :=
  0#2 ++ BitVec.ofBool (statusKind s) ++ BitVec.ofBool (portAt s p).gwbValid ++ s.xstate.code ++
    BitVec.ofBool s.busy ++ BitVec.ofBool s.lineOpen

/-- A register of `bits` bits showing the number `n`. A number that does not fit has no stated value: free (log 10). -/
def viewField (bits n : Nat) : BitVec 32 := if n < 2 ^ bits then BitVec.ofNat 32 n else Config.overwideView bits n

/-- `RES_DATA[k]` for registers `0x10000 + k`, 0 past `RES_LEN[p]` (10_state.md R46). -/
def resDataAt (q : Port) (k : Nat) : Byte := if k < q.resLen then byteAt q.resData k else 0

/-- `RegView(p, reg)`: the register view, 0 for an unassigned number (10_state.md R46, R48). -/
def regView (s : State) (p : Nat) (reg : BitVec 32) : BitVec 32 :=
  let q := portAt s p
  let n := reg.toNat
  if n = 0x00 then (statusByte s p).setWidth 32
  else if n = 0x01 then s.baud
  else if n = 0x02 then q.resCode.code.setWidth 32
  else if n = 0x03 then (BitVec.ofBool q.resBool).setWidth 32
  else if n = 0x04 then q.resErr.setWidth 32
  else if n = 0x05 then viewField 17 q.resLen
  else if n = 0x06 then q.gwbAddr.setWidth 32
  else if n = 0x07 then q.gwbWidth.setWidth 32
  else if n = 0x08 then viewField 9 q.gwbIds.length
  else if n = 0x09 then viewField 32 s.rxFifo.length
  else if 0x10000 ≤ n ∧ n < 0x20000 then (resDataAt q (n - 0x10000)).setWidth 32
  else 0

/-! The device error byte's named bits (30_encoding.md R93), for hosts: the block never reads them (R94). -/

/-- Bit 0, voltage. -/
def errVoltage (err : Byte) : Bool := err.getLsbD 0
/-- Bit 1, angle. -/
def errAngle (err : Byte) : Bool := err.getLsbD 1
/-- Bit 2, overheat. -/
def errOverheat (err : Byte) : Bool := err.getLsbD 2
/-- Bit 3, overcurrent. -/
def errOvercurrent (err : Byte) : Bool := err.getLsbD 3
/-- Bit 5, overload. -/
def errOverload (err : Byte) : Bool := err.getLsbD 5

end Sys2Proof.Machine
end

