-- ==== Sys2Proof/Machine/Transport.lean ====
section
/-!
DEFINITION. The transport's host commands (40_transport.md R120 to R122): OPEN, CLOSE, READ_REG, each one atomic step.
-/

namespace Sys2Proof.Machine

/-- OPEN's success: flush, line open at the new rate, result true (40_transport.md R120). On a line that was
closed the line rate's bookkeeping starts anew; a reopened line stays open, so it goes on (R132; log 14). -/
def openAccepted (s : State) (p : Nat) (baud : BitVec 32) : State :=
  onPort
    { fifoFlush s with
      lineOpen := true
      baud := baud
      msPerByte := lineTime s.cfg baud
      env := { s.env with lastRx := if s.lineOpen then s.env.lastRx else none } }
    p fun q => q.completeBool true

/-- OPEN on port `p` (40_transport.md R120): refused while busy, for `baud = 0`, and when the environment refuses. -/
def openCommand (baud : BitVec 32) (p : Nat) (s : State) : State :=
  if s.busy then onPort s p fun q => q.completeBool false
  else if baud = 0 then onPort s p fun q => q.completeBool false
  else
    let d := drawOpen s
    if d.1 then openAccepted d.2 p baud else onPort d.2 p fun q => q.completeBool false

/-- CLOSE on port `p` (40_transport.md R121): ignored while an exchange owns the line. -/
def closeCommand (p : Nat) (s : State) : State :=
  if s.busy then onPort s p fun q => q.complete {}
  else onPort { fifoFlush s with lineOpen := false } p fun q => q.complete {}

/-- READ_REG on port `p`: the value is returned, no result register is written (40_transport.md R122). -/
def readRegCommand (reg : BitVec 32) (p : Nat) (s : State) : State :=
  onPort s p fun q => q.complete { value := some (regView s p reg) }

/-- OPEN (40_transport.md R120). -/
def execOpenLine (baud : BitVec 32) (s : State) : Host.Outcome State Fault Refusal :=
  command s (openCommand baud)

/-- CLOSE (40_transport.md R121). -/
def execCloseLine (s : State) : Host.Outcome State Fault Refusal :=
  command s closeCommand

/-- READ_REG (40_transport.md R122). -/
def execReadReg (reg : BitVec 32) (s : State) : Host.Outcome State Fault Refusal :=
  command s (readRegCommand reg)

end Sys2Proof.Machine
end

