-- ==== Sys2Proof/Machine/Wire.lean ====
section
/-!
DEFINITION. The wire instructions (45_wire_instructions.md). "The block does not execute wire instructions. It builds them
into frames, sends them and, for unicast, waits for the response." So the meaning of each is the exchange that carries it:
SEND_UNICAST with its code, or SEND_BROADCAST when the frame's id is the broadcast id (R230 to R234; log 6).
-/

namespace Sys2Proof.Machine

/-- Carry a request frame's instruction: a broadcast to id 0xFE, a unicast to any other (45_wire_instructions.md R234). -/
def carry (id code : Byte) (params : List Byte) (p : Nat) (s : State) : State :=
  if id = broadcastId then issueExchange s p .broadcast broadcastId code params
  else issueExchange s p .unicast id code params

/-- PING (45_wire_instructions.md R230). -/
def execPing (id : Byte) (params : List Byte) (s : State) : Host.Outcome State Fault Refusal :=
  command s (carry id 0x01 params)

/-- READ (45_wire_instructions.md R231). -/
def execRead (id : Byte) (params : List Byte) (s : State) : Host.Outcome State Fault Refusal :=
  command s (carry id 0x02 params)

/-- WRITE (45_wire_instructions.md R232). -/
def execWrite (id : Byte) (params : List Byte) (s : State) : Host.Outcome State Fault Refusal :=
  command s (carry id 0x03 params)

/-- SYNC_WRITE (45_wire_instructions.md R233, R234). -/
def execSyncWrite (id : Byte) (params : List Byte) (s : State) : Host.Outcome State Fault Refusal :=
  command s (carry id 0x83 params)

/-- Every other instruction byte, carried unchanged (45_wire_instructions.md R234, 30_encoding.md R92). -/
def execOtherWire (id code : Byte) (params : List Byte) (s : State) : Host.Outcome State Fault Refusal :=
  command s (carry id code params)

end Sys2Proof.Machine
end

