-- ==== Sys2Proof/Machine/Dispatch.lean ====
section
/-! DEFINITION. One arm per constructor of Instr: the meaning of each row of spec/opcode_table.json. -/

namespace Sys2Proof.Machine

def exec (i : Instr) (s : State) : Host.Outcome State Fault Refusal :=
  match i with
  | .openLine baud => Sys2Proof.Machine.execOpenLine baud s
  | .closeLine => Sys2Proof.Machine.execCloseLine s
  | .readReg reg => Sys2Proof.Machine.execReadReg reg s
  | .sendUnicast id instr params => Sys2Proof.Machine.execSendUnicast id instr params s
  | .sendBroadcast instr params => Sys2Proof.Machine.execSendBroadcast instr params s
  | .gwbInit addr width => Sys2Proof.Machine.execGwbInit addr width s
  | .gwbAdd id data => Sys2Proof.Machine.execGwbAdd id data s
  | .gwbPayload => Sys2Proof.Machine.execGwbPayload s
  | .gwbSend => Sys2Proof.Machine.execGwbSend s
  | .ping id params => Sys2Proof.Machine.execPing id params s
  | .read id params => Sys2Proof.Machine.execRead id params s
  | .write id params => Sys2Proof.Machine.execWrite id params s
  | .syncWrite id params => Sys2Proof.Machine.execSyncWrite id params s

end Sys2Proof.Machine
end

