-- ==== Sys2Proof/Machine/Receive.lean ====
section
/-!
DEFINITION. The receive state machine (41_frame_codec.md R143 to R153), and the Engine's step of the exchange in progress.
-/

namespace Sys2Proof.Machine

/-- `finish(code)` for RxTimeout and RxCorrupt: the receive ends, the code propagates verbatim (41_frame_codec.md R148,
42_request_response.md R175). -/
def finishFail (s : State) (c : CommResult) : State := completeUnicastExchange { s with rxBuf := [] } c

/-- `finish(Success, f)`: the receive ends with frame `f`, then the post-receive check (41_frame_codec.md R148). -/
def finishOk (s : State) (f : List Byte) : State := postReceive { s with rxBuf := [] } f

/-- PARSE_PULL: one byte from `RX_FIFO` to `RX_BUF` (41_frame_codec.md R145, 40_transport.md R130). -/
def parsePull (s : State) : State :=
  match s.rxFifo with
  | [] => s
  | b :: rest => { s with rxFifo := rest, rxBuf := s.rxBuf ++ [b] }

/-- PARSE_EXPIRE: an empty buffer is RxTimeout, a partial one RxCorrupt (41_frame_codec.md R146). -/
def parseExpire (s : State) : State :=
  if s.rxBuf = [] then finishFail s .rxTimeout else finishFail s .rxCorrupt

/-- HeaderNotFound: corrupt after expiry, else keep only the last byte (41_frame_codec.md R149). -/
def headerNotFound (s : State) : State :=
  if expired s then finishFail s .rxCorrupt else { s with rxBuf := s.rxBuf.drop (s.rxBuf.length - 1) }

/-- HeaderLater(i): discard the bytes before the header (41_frame_codec.md R150). -/
def headerLater (s : State) (i : Nat) : State := { s with rxBuf := s.rxBuf.drop i }

/-- Checksum verify: the frame is the first `W` bytes, its last byte the checksum of bytes 2 .. W-2
(41_frame_codec.md R153). -/
def verifyFrame (s : State) : State :=
  let f := memRead s.rxBuf 0 s.want
  if byteAt f (s.want - 1) = checksum (memRead f 2 (s.want - 3)) then finishOk s f else finishFail s .rxCorrupt

/-- HeaderAtZero: spurious header, length set, or verify (41_frame_codec.md R151 to R153). -/
def headerAtZero (s : State) : State :=
  if s.cfg.rxIdMax < (byteAt s.rxBuf 2).toNat ∨ s.cfg.rxMaxLen < (byteAt s.rxBuf 3).toNat then
    { s with rxBuf := s.rxBuf.drop 1 }
  else if s.want ≠ (byteAt s.rxBuf 3).toNat + 4 then { s with want := (byteAt s.rxBuf 3).toNat + 4 }
  else verifyFrame s

/-- PARSE_EVAL, the header scan (41_frame_codec.md R147). -/
def parseEval (s : State) : State :=
  match findHeader s.rxBuf with
  | none => headerNotFound s
  | some 0 => headerAtZero s
  | some (i + 1) => headerLater s (i + 1)

/-- The Engine's receive step, by the table of 41_frame_codec.md R144; its third row is a wait. -/
def receiveStep (s : State) : State :=
  if s.rxBuf.length < s.want then
    if s.rxFifo ≠ [] then parsePull s
    else if expired s then parseExpire s
    else s
  else parseEval s

/-- Whether the exchange in progress has an Engine step: TX_DONE while Sending (42_request_response.md R173); while
AwaitingResponse, unless the Engine waits (41_frame_codec.md R144). -/
def exchangeReady (s : State) : Bool :=
  match s.xstate with
  | .idle => false
  | .sending => true
  | .awaitingResponse => decide (s.want ≤ s.rxBuf.length) || decide (s.rxFifo ≠ []) || expired s

/-- The Engine's step of the exchange in progress (42_request_response.md R179). -/
def exchangeStep (s : State) : State :=
  match s.xstate with
  | .idle => s
  | .sending => txDone s
  | .awaitingResponse => receiveStep s

end Sys2Proof.Machine
end

