-- ==== Sys2Proof/Machine/Environment.lean ====
section
/-!
DEFINITION. The agents around the Engine: Host ports issue (30_encoding.md R100), the Line delivers (40_transport.md R131,
R132, R134), the Clock advances (R135), the platform resets (70_reset_and_hazards.md R270). And the schedule: which moves
are enabled, Engine urgency (R284), and which one comes next (60_exceptions.md R255; log 1).
-/

namespace Sys2Proof.Machine

/-! Host. -/

/-- What port `p`'s host will still issue. -/
def hostQueue (s : State) (p : Nat) : List Request := s.env.hostIn.getD p []

/-- `PENDING[p]` becomes the command `c`, its operands copied; `rest` is what the host will issue later (30_encoding.md
R100, 20_memory.md R75). The Engine begins the command in a later step (log 31). -/
def issueCommand (s : State) (p : Nat) (c : Command) (rest : List Request) : State :=
  { onPort s p fun q => { q with pending := some c } with env := { s.env with hostIn := s.env.hostIn.set p rest } }

/-- `Host(p)` issues what it hands over, which is decoded here. What is no command cannot be issued, and the step refuses
(30_encoding.md R98, 93 I25; log 15). -/
def hostIssue (s : State) (p : Nat) : Host.Outcome State Fault Refusal :=
  match hostQueue s p with
  | [] => .next s
  | r :: rest =>
    match decode r with
    | .command c => .next (issueCommand s p c rest)
    | .malformed e => .refused (.notIssuable e)

/-- Host(p) may issue only when it has something to issue and `PENDING[p] = NONE` (30_encoding.md R100). -/
def issueReady (s : State) (p : Nat) : Bool :=
  decide (hostQueue s p ≠ []) && (portAt s p).pending.isNone

/-! Line. -/

/-- Whether a bounded FIFO is full (40_transport.md R131, R134). -/
def fifoFull (s : State) : Bool :=
  match s.cfg.rxFifoDepth with
  | none => false
  | some d => decide (d ≤ s.rxFifo.length)

/-- `LineDeliver(b)`: dropped on a closed line or at a full FIFO, else appended (40_transport.md R131, R134). -/
def lineDeliver (s : State) (b : Byte) : State :=
  if s.lineOpen then
    { s with
      rxFifo := if fifoFull s then s.rxFifo else s.rxFifo ++ [b]
      env := { s.env with lastRx := some s.now } }
  else s

/-- The Line delivers its next byte. -/
def lineMove (s : State) : State :=
  match s.env.lineIn with
  | [] => s
  | b :: rest => lineDeliver { s with env := { s.env with lineIn := rest } } b

/-- The line rate: while `OPEN = 1`, two deliveries are at least `MS_PER_BYTE` apart (40_transport.md R132). -/
def lineRateAllows (s : State) : Bool :=
  match s.env.lastRx with
  | none => true
  | some t => !s.lineOpen || decide (s.msPerByte ≤ s.now - t)

/-! Clock. -/

/-- The Clock sets `NOW <- t` for a drawn `t > NOW` (40_transport.md R135). -/
def clockMove (s : State) : State :=
  let d := drawTime s
  { d.2 with now := d.1 }

/-! Reset. -/

/-- Reset: every element takes its reset value but `NOW`; pending commands are dropped without completion, an exchange is
abandoned (70_reset_and_hazards.md R270). The parameters and what the environment will do stay. -/
def resetBlock (s : State) : State :=
  State.resetWith s.cfg s.now { s.env with lastRx := none }

/-- The platform asserts reset. -/
def resetMove (s : State) : State :=
  resetBlock { s with env := { s.env with resets := s.env.resets - 1 } }

/-! The schedule. -/

/-- Whether port `p` has a command that the Engine has not begun: it is pending, and is not the exchange in progress. -/
def servable (s : State) (p : Nat) : Bool :=
  (portAt s p).pending.isSome && decide (s.xowner ≠ some p)

/-- Whether every pending command has been begun: each is the exchange in progress. -/
def commandsBegun (s : State) : Bool := (List.range s.ports.length).all fun p => !servable s p

/-- The Engine's enabled moves. DEDUCED (log 29): the Engine begins every pending command before the exchange in progress takes
a step, so a SEND that another port issues before or while an exchange runs is begun while it runs, and is PortBusy
(60_exceptions.md R255, 42_request_response.md R172, 70_reset_and_hazards.md R274). A host's issue and the Engine's begin of
that command are two steps (DESIGN CHOICE, log 31). -/
def engineMoves (s : State) : List Move :=
  ((List.range s.ports.length).filter (servable s)).map .serve ++
    (if commandsBegun s && exchangeReady s then [.exchange] else [])

/-- Engine urgency: while any Engine step is enabled, neither the Clock nor the Line takes a step
(70_reset_and_hazards.md R284, 40_transport.md R135). -/
def engineIdle (s : State) : Bool := (engineMoves s).isEmpty

/-- The environment's enabled moves. The Clock always has one while the Engine has none: past the times recorded it draws
(40_transport.md R135, 70_reset_and_hazards.md R284; log 27). -/
def envMoves (s : State) : List Move :=
  ((List.range s.ports.length).filter (issueReady s)).map .issue ++
    (if engineIdle s && decide (s.env.lineIn ≠ []) && lineRateAllows s then [.line] else []) ++
    (if engineIdle s then [.clock] else []) ++
    (if 0 < s.env.resets then [.reset] else [])

/-- Every enabled move. -/
def moves (s : State) : List Move := engineMoves s ++ envMoves s

/-- Past the scheduler's choices already made: the only enabled move, or a free one of several (log 2). -/
def pickFree (s : State) : Option (Move × State) :=
  match moves s with
  | [] => none
  | [m] => some (m, s)
  | m :: ms =>
    some ((m :: ms).getD (Config.schedule s.env.draws % (ms.length + 1)) m,
      { s with env := { s.env with draws := s.env.draws + 1 } })

/-- The next move: the scheduler's next choice when that is enabled, else one of the enabled moves; `none` when no agent
has one, which never happens (log 1, log 13). -/
def pickMove (s : State) : Option (Move × State) :=
  match s.env.sched with
  | [] => pickFree s
  | m :: rest =>
    if m ∈ moves s then some (m, { s with env := { s.env with sched := rest } }) else pickFree s

end Sys2Proof.Machine
end

