-- ==== Sys2Proof/Machine/Serve.lean ====
section
/-!
DEFINITION. How the Engine begins a pending command, one step of each agent, and how a request is placed to run next.
-/

namespace Sys2Proof.Machine

/-- Run a command on port `s.port`. -/
def runCommand (c : Command) (s : State) : Host.Outcome State Fault Refusal :=
  match c with
  | .instr i => exec i s
  | .unassigned _ => execUnassigned s
  | .otherWire id code params => execOtherWire id code params s

/-- The Engine begins the command pending on port `p` (60_exceptions.md R255). -/
def serve (p : Nat) (s : State) : Host.Outcome State Fault Refusal :=
  match (portAt s p).pending with
  | none => .next s
  | some c => runCommand c { s with port := p }

/-- One step of the agent that moves (00_scope.md R8). -/
def runMove (m : Move) (s : State) : Host.Outcome State Fault Refusal :=
  match m with
  | .exchange => .next (exchangeStep s)
  | .serve p => serve p s
  | .issue p => hostIssue s p
  | .line => .next (lineMove s)
  | .clock => .next (clockMove s)
  | .reset => .next (resetMove s)

/-- One step of the machine. Nothing enabled would be a hold; the Engine or the Clock always has a move (log 13). -/
def machineStep (s : State) : Host.Outcome State Fault Refusal :=
  if s.cfg.wf then
    match pickMove s with
    | none => .next s
    | some (m, s') => runMove m s'
  else .refused .badParameters

/-- `s` with the command of request `r` pending on port 0, to be served next, and no exchange of that port's in the way. A
request that is no command is the next that port 0's host will issue, to be issued next (log 8). -/
def placeRequest (s : State) (r : Request) : State :=
  let free := if s.xowner = some 0 then release s else s
  match decode r with
  | .command c =>
    { onPort free 0 fun q => { q with pending := some c } with
      env := { s.env with sched := .serve 0 :: s.env.sched } }
  | .malformed _ =>
    { onPort free 0 fun q => { q with pending := none } with
      env := { s.env with
        sched := .issue 0 :: s.env.sched, hostIn := (r :: s.env.hostIn.headD []) :: s.env.hostIn.tail } }

end Sys2Proof.Machine
end

