-- ==== Sys2Proof/Machine/Step.lean ====
section
/-!
DEFINITION. The step of the machine: one atomic step of one agent (00_scope.md R8, R9; 20_memory.md R67). And where an
instruction is placed to run next: pending on port 0 (log 8).
-/

namespace Sys2Proof.Machine

/-- One step. -/
def step : State → Host.Outcome State Fault Refusal := fun s => machineStep s

/-- `s` with the instruction of table word `w` placed to run in the next step. -/
def State.withFetchWord (s : State) (nbits w : Nat) : State := placeRequest s (requestOfTableWord nbits w)

end Sys2Proof.Machine
end

