-- ==== Sys2Proof/Machine/HostApi.lean ====
section
/-!
DEFINITION. Host-side conventions (44_device_api.md; 30_encoding.md R104, R105): value encodings, pseudo-commands, Device
API programs and their results. "The block does not execute them" (00_scope.md R4), so nothing here is called by the
machine: these are pure functions from operations to the commands a host issues, and from their results to the host's
result (log 23).
-/

namespace Sys2Proof.Machine

/-! Value encodings. -/

/-- `EncSpeed(v)`, for `|v| <= 0x7FFF` (44_device_api.md R211). -/
def encSpeed (v : Int) : Option (BitVec 16) :=
  if v.natAbs ≤ 0x7FFF then
    some (if v < 0 then 0x8000#16 ||| BitVec.ofNat 16 v.natAbs else BitVec.ofNat 16 v.natAbs)
  else none

/-- `DecSpeed(w)` (44_device_api.md R211). -/
def decSpeed (w : BitVec 16) : Int :=
  if w.getLsbD 15 then -((w.extractLsb' 0 15).toNat : Int) else ((w.extractLsb' 0 15).toNat : Int)

/-- `EncCorr(v)`, for `|v| <= 2047` (44_device_api.md R212). -/
def encCorr (v : Int) : Option (BitVec 16) :=
  if v.natAbs ≤ 2047 then
    some (if v < 0 then 0x0800#16 ||| BitVec.ofNat 16 v.natAbs else BitVec.ofNat 16 v.natAbs)
  else none

/-- `DecCorr(w)`: bits 15:12 are ignored (44_device_api.md R212). -/
def decCorr (w : BitVec 16) : Int :=
  if w.getLsbD 11 then -((w.extractLsb' 0 11).toNat : Int) else ((w.extractLsb' 0 11).toNat : Int)

/-! Device registers (44_device_api.md R210). -/

/-- The device registers the source names. -/
inductive DeviceReg where
  | id
  | baudIndex
  | minPosLimit
  | maxPosLimit
  | posCorrection
  | mode
  | torqueEnable
  | goalPosition
  | goalSpeed
  | lock
  | presentPosition
  | acceleration
deriving DecidableEq, Repr

/-- A register's start address; acceleration's is the parameter `P_ACC_ADDR`. -/
def DeviceReg.addr (cfg : Params) : DeviceReg → Byte
  | .id => 5
  | .baudIndex => 6
  | .minPosLimit => 9
  | .maxPosLimit => 11
  | .posCorrection => 31
  | .mode => 33
  | .torqueEnable => 40
  | .goalPosition => 42
  | .goalSpeed => 46
  | .lock => 55
  | .presentPosition => 56
  | .acceleration => cfg.accAddr

/-- A register's width in bytes. -/
def DeviceReg.width : DeviceReg → Byte
  | .id => 1
  | .baudIndex => 1
  | .minPosLimit => 2
  | .maxPosLimit => 2
  | .posCorrection => 2
  | .mode => 1
  | .torqueEnable => 1
  | .goalPosition => 2
  | .goalSpeed => 2
  | .lock => 1
  | .presentPosition => 2
  | .acceleration => 1

/-! Pseudo-commands (30_encoding.md R105). -/

/-- `write8 id, addr, v`. -/
def write8 (id addr v : Byte) : Instr := .sendUnicast id 0x03 (writeParams addr [v])

/-- `write16 id, addr, v`. -/
def write16 (cfg : Params) (id addr : Byte) (v : BitVec 16) : Instr :=
  .sendUnicast id 0x03 (writeParams addr (pack16 cfg.endian v))

/-- `read id, addr, n`. -/
def readBytes (id addr n : Byte) : Instr := .sendUnicast id 0x02 (readParams addr n)

/-- `ping id`. -/
def pingDevice (id : Byte) : Instr := .sendUnicast id 0x01 pingParams

/-- `syncw16 addr, ...`: init, one add for each entry in the order written, send. -/
def syncw16 (cfg : Params) (addr : Byte) (entries : List (Byte × BitVec 16)) : List Instr :=
  .gwbInit addr 2 :: (entries.map fun e => .gwbAdd e.1 (pack16 cfg.endian e.2)) ++ [.gwbSend]

/-! Results (44_device_api.md R214 to R216). A host program learns of each of its commands by the completion record the
block returns (30_encoding.md R100); the replies to a program are those records, oldest first. -/

/-- A Device API operation's result: exactly one of three (44_device_api.md R214). -/
inductive HostResult where
  /-- An operand is outside its domain; no command was issued. -/
  | domainError
  /-- The first command to fail completed with `c`. -/
  | comm (c : CommResult)
  /-- Every command succeeded. -/
  | ok (err : Byte) (value : Option Int)
deriving DecidableEq, Repr

/-- The code a command failed with, if it did; a command without a code does not fail so. -/
def Completion.failure (r : Completion) : Option CommResult := r.code.filter (· ≠ .success)

/-- Whether a command succeeded. -/
def Completion.isOk (r : Completion) : Bool := r.failure.isNone

/-- The device error byte a command returned: 0 for a broadcast (44_device_api.md R214). DESIGN CHOICE (log 23): 0 also for a
command that sends no frame, such as CLOSE, of which R214 states none. -/
def Completion.errByte (r : Completion) : Byte := r.err.getD 0

/-- The result of a write, unicast or broadcast (44_device_api.md R215, R220), and of `disconnect` (log 23). -/
def writeResult (r : Completion) : HostResult :=
  match r.failure with
  | some c => .comm c
  | none => .ok r.errByte none

/-- The result of a read of `n` bytes: too few data bytes are RxCorrupt (44_device_api.md R216). -/
def readResult (n : Byte) (value : List Byte → Int) (r : Completion) : HostResult :=
  match r.failure with
  | some c => .comm c
  | none =>
    let data := r.data.getD []
    if data.length < n.toNat + 6 then .comm .rxCorrupt else .ok r.errByte (some (value (memRead data 5 n.toNat)))

/-- The result of an operation whose command returns a boolean: that boolean, 1 or 0 (log 23). -/
def boolResult (r : Completion) : HostResult := .ok 0 (r.bool.map fun b => if b then 1 else 0)

/-- The value of a one-byte read (44_device_api.md R216). -/
def byteValue (d : List Byte) : Int := (byteAt d 0).toNat

/-- The value of a two-byte read before its register's decoding (44_device_api.md R216). -/
def wordValue (cfg : Params) (d : List Byte) : BitVec 16 := unpack16 cfg.endian (byteAt d 0) (byteAt d 1)

/-! Plain programs: commands one after another, up to the first that fails (44_device_api.md R214, R222). -/

/-- The next command, given the replies so far. -/
def commandsNext (cs : List Instr) (rs : List Completion) : Option Instr :=
  if rs.all Completion.isOk then cs[rs.length]? else none

/-- The result, which `result` reads off the first reply that failed, else off the last; `none` until the program is done. -/
def commandsResult (cs : List Instr) (result : Completion → HostResult) (rs : List Completion) : Option HostResult :=
  match rs.find? fun r => !r.isOk with
  | some r => some (result r)
  | none => if rs.length < cs.length then none else rs.getLast?.map result

/-! Protected writes (44_device_api.md R217). -/

/-- The next command of a protected write of `d` at address `a`, given the replies so far: unlock, the write unless the
unlock failed, re-lock always. -/
def protectedNext (id a : Byte) (d : List Byte) : List Completion → Option Instr
  | [] => some (write8 id 55 0)
  | [r1] => if r1.isOk then some (.sendUnicast id 0x03 (writeParams a d)) else some (write8 id 55 1)
  | [r1, _] => if r1.isOk then some (write8 id 55 1) else none
  | _ => none

/-- The result of a protected write: the first failure, else Ok with the write's error byte; `none` until it is done. -/
def protectedResult : List Completion → Option HostResult
  | [r1, _] => r1.failure.map .comm
  | [r1, r2, r3] =>
    match r1.failure, r2.failure, r3.failure with
    | some _, _, _ => none
    | none, some c, _ => some (.comm c)
    | none, none, some c => some (.comm c)
    | none, none, none => some (.ok r2.errByte none)
  | _ => none

/-! ID change (44_device_api.md R218). -/

/-- The outcome of an ID change's lock steps: locked, with that response's error byte, or both attempts failed. -/
inductive LockOutcome where
  | locked (err : Byte)
  | failed (atNew atOld : CommResult)
deriving DecidableEq, Repr

/-- The lock steps of an ID change, after the unlock and the ID write: at the new id, then as a fallback at the old. -/
def idLockNext (old new : Byte) : List Completion → Option Instr
  | [] => some (write8 new 55 1)
  | [rn] => if rn.isOk then none else some (write8 old 55 1)
  | _ => none

/-- The outcome of the lock steps; `none` until they are done. -/
def idLockOutcome : List Completion → Option LockOutcome
  | [rn] => if rn.isOk then some (.locked rn.errByte) else none
  | [rn, ro] =>
    match rn.failure, ro.failure with
    | none, _ => none
    | some _, none => some (.locked ro.errByte)
    | some n, some o => some (.failed n o)
  | _ => none

/-- The next command of `setServoId(old, new)`, given the replies so far: the ID write is skipped when the unlock failed,
the lock steps run either way. -/
def idChangeNext (old new : Byte) : List Completion → Option Instr
  | [] => some (write8 old 55 0)
  | r1 :: rest =>
    if r1.isOk then
      match rest with
      | [] => some (write8 old 5 new)
      | _ :: locks => idLockNext old new locks
    else idLockNext old new rest

/-- The replies of `setServoId` up to the lock steps, and those of the lock steps; `none` until these begin. -/
def idChangeSplit : List Completion → Option (List Completion × List Completion)
  | [] => none
  | r1 :: rest =>
    if r1.isOk then
      match rest with
      | [] => none
      | r2 :: locks => some ([r1, r2], locks)
    else some ([r1], rest)

/-- The outcome of the lock steps of `setServoId`, both failures among them, reported beside the result; `none` until it is
done. -/
def idChangeLock (rs : List Completion) : Option LockOutcome := (idChangeSplit rs).bind fun x => idLockOutcome x.2

/-- The result of `setServoId`: the first failure of the unlock and the ID write, then the lock's outcome, whose first
failure is that at the new id; `none` until it is done. -/
def idChangeResult (rs : List Completion) : Option HostResult :=
  (idChangeSplit rs).bind fun x => (idLockOutcome x.2).map fun lock =>
    match x.1.findSome? Completion.failure, lock with
    | some c, _ => .comm c
    | none, .locked err => .ok err none
    | none, .failed atNew _ => .comm atNew

/-! The API surface (44_device_api.md R219 to R221). -/

/-- A map from device id to value, in its iteration order: no id twice (44_device_api.md R220). -/
structure DeviceMap where
  entries : List (Byte × Int)
  distinct : (entries.map Prod.fst).Nodup
deriving DecidableEq, Repr

/-- The operations of 44_device_api.md R219, without `listPorts`, which issues no command. -/
inductive DeviceOp where
  | connect (baud : BitVec 32)
  | disconnect
  | readPosition (id : Byte)
  | writePosition (id : Byte) (v : Int)
  | writeTorqueEnable (id : Byte) (b : Bool)
  | writeAcceleration (id : Byte) (a : Int)
  | setWheelMode (id : Byte)
  | setPositionMode (id : Byte)
  | writeWheelSpeed (id : Byte) (v : Int)
  | writeGoalSpeed (id : Byte) (v : Int)
  | readPosCorrection (id : Byte)
  | writePosCorrection (id : Byte) (v : Int)
  | readBaudIndex (id : Byte)
  | setBaudIndex (id : Byte) (i : Int)
  | setServoId (old new : Int)
  | readMinPosLimit (id : Byte)
  | readMaxPosLimit (id : Byte)
  | writeMinPosLimit (id : Byte) (v : Int)
  | writeMaxPosLimit (id : Byte) (v : Int)
  | syncWritePositions (m : DeviceMap)
  | syncWriteWheelSpeeds (m : DeviceMap)
deriving DecidableEq, Repr

/-- A value lies in a closed range. -/
def inRange (lo hi v : Int) : Bool := decide (lo ≤ v ∧ v ≤ hi)

/-- The host domain of an operation, checked before any command is issued (44_device_api.md R214, R219). -/
def DeviceOp.inDomain : DeviceOp → Bool
  | .connect baud => decide (baud ≠ 0)
  | .disconnect => true
  | .readPosition _ => true
  | .writePosition _ v => inRange 0 4095 v
  | .writeTorqueEnable _ _ => true
  | .writeAcceleration _ a => inRange 0 254 a
  | .setWheelMode _ => true
  | .setPositionMode _ => true
  | .writeWheelSpeed _ v => inRange (-10000) 10000 v
  | .writeGoalSpeed _ v => inRange 0 10000 v
  | .readPosCorrection _ => true
  | .writePosCorrection _ v => inRange (-2047) 2047 v
  | .readBaudIndex _ => true
  | .setBaudIndex _ i => inRange 0 7 i
  | .setServoId old new => inRange 1 252 old && inRange 1 252 new
  | .readMinPosLimit _ => true
  | .readMaxPosLimit _ => true
  | .writeMinPosLimit _ v => inRange 0 4095 v
  | .writeMaxPosLimit _ v => inRange 0 4095 v
  | .syncWritePositions m => m.entries.all fun e => inRange 0 4095 e.2
  | .syncWriteWheelSpeeds m => m.entries.all fun e => inRange (-10000) 10000 e.2

/-- A host program: a list of commands, or one of the two programs whose commands depend on earlier replies. -/
inductive HostProgram where
  | commands (cs : List Instr)
  | protectedWrite (id addr : Byte) (data : List Byte)
  | idChange (old new : Byte)
deriving DecidableEq, Repr

/-- A value in the domain of a one-byte register, as a byte. -/
def unsignedByte (v : Int) : Byte := BitVec.ofNat 8 v.toNat

/-- A non-negative value as a 16-bit word. -/
def unsignedWord (v : Int) : BitVec 16 := BitVec.ofNat 16 v.toNat

/-- A speed in its domain as a word (44_device_api.md R211). -/
def speedWord (v : Int) : BitVec 16 := (encSpeed v).getD 0

/-- A position correction in its domain as a word (44_device_api.md R212). -/
def corrWord (v : Int) : BitVec 16 := (encCorr v).getD 0

/-- The program of an operation whose operands are in their domain (44_device_api.md R219 to R221); `DeviceOp.program` asks
for it then only. -/
def DeviceOp.programInDomain (cfg : Params) : DeviceOp → HostProgram
  | .connect baud => .commands [.openLine baud]
  | .disconnect => .commands [.closeLine]
  | .readPosition id => .commands [readBytes id 56 2]
  | .writePosition id v => .commands [write16 cfg id 42 (unsignedWord v)]
  | .writeTorqueEnable id b => .commands [write8 id 40 (if b then 1 else 0)]
  | .writeAcceleration id a => .commands [write8 id cfg.accAddr (unsignedByte a)]
  | .setWheelMode id => .protectedWrite id 33 [cfg.modeWheel]
  | .setPositionMode id => .protectedWrite id 33 [cfg.modePosition]
  | .writeWheelSpeed id v => .commands [write16 cfg id 46 (speedWord v)]
  | .writeGoalSpeed id v => .commands [write16 cfg id 46 (unsignedWord v)]
  | .readPosCorrection id => .commands [readBytes id 31 2]
  | .writePosCorrection id v => .commands [write16 cfg id 31 (corrWord v)]
  | .readBaudIndex id => .commands [readBytes id 6 1]
  | .setBaudIndex id i => .protectedWrite id 6 [unsignedByte i]
  | .setServoId old new => .idChange (unsignedByte old) (unsignedByte new)
  | .readMinPosLimit id => .commands [readBytes id 9 2]
  | .readMaxPosLimit id => .commands [readBytes id 11 2]
  | .writeMinPosLimit id v => .protectedWrite id 9 (pack16 cfg.endian (unsignedWord v))
  | .writeMaxPosLimit id v => .protectedWrite id 11 (pack16 cfg.endian (unsignedWord v))
  | .syncWritePositions m => .commands (syncw16 cfg 42 (m.entries.map fun e => (e.1, unsignedWord e.2)))
  | .syncWriteWheelSpeeds m => .commands (syncw16 cfg 46 (m.entries.map fun e => (e.1, speedWord e.2)))

/-- The program of an operation; `none` is DomainError, which is reported before any command (44_device_api.md R214,
R219). -/
def DeviceOp.program (cfg : Params) (op : DeviceOp) : Option HostProgram :=
  if op.inDomain then some (op.programInDomain cfg) else none

/-- What the deciding reply of a plain program means, with the register's decoding for a read (44_device_api.md R215, R216,
R219 to R221). -/
def DeviceOp.replyResult (cfg : Params) (op : DeviceOp) (r : Completion) : HostResult :=
  match op with
  | .connect _ => boolResult r
  | .readPosition _ => readResult 2 (fun d => (wordValue cfg d).toNat) r
  | .readPosCorrection _ => readResult 2 (fun d => decCorr (wordValue cfg d)) r
  | .readBaudIndex _ => readResult 1 byteValue r
  | .readMinPosLimit _ => readResult 2 (fun d => (wordValue cfg d).toNat) r
  | .readMaxPosLimit _ => readResult 2 (fun d => (wordValue cfg d).toNat) r
  | .disconnect => writeResult r
  | .writePosition _ _ => writeResult r
  | .writeTorqueEnable _ _ => writeResult r
  | .writeAcceleration _ _ => writeResult r
  | .setWheelMode _ => writeResult r
  | .setPositionMode _ => writeResult r
  | .writeWheelSpeed _ _ => writeResult r
  | .writeGoalSpeed _ _ => writeResult r
  | .writePosCorrection _ _ => writeResult r
  | .setBaudIndex _ _ => writeResult r
  | .setServoId _ _ => writeResult r
  | .writeMinPosLimit _ _ => writeResult r
  | .writeMaxPosLimit _ _ => writeResult r
  | .syncWritePositions _ => writeResult r
  | .syncWriteWheelSpeeds _ => writeResult r

/-- The next command of an operation, given the replies so far: none at all outside its domain (44_device_api.md R214,
R222). -/
def DeviceOp.next (cfg : Params) (op : DeviceOp) (rs : List Completion) : Option Instr :=
  match op.program cfg with
  | none => none
  | some (.commands cs) => commandsNext cs rs
  | some (.protectedWrite id a d) => protectedNext id a d rs
  | some (.idChange old new) => idChangeNext old new rs

/-- The result of an operation, given the replies so far; `none` until it is done (44_device_api.md R214). -/
def DeviceOp.result (cfg : Params) (op : DeviceOp) (rs : List Completion) : Option HostResult :=
  match op.program cfg with
  | none => some .domainError
  | some (.commands cs) => commandsResult cs (op.replyResult cfg) rs
  | some (.protectedWrite _ _ _) => protectedResult rs
  | some (.idChange _ _) => idChangeResult rs

/-! Assembler syntax (30_encoding.md R104). -/

/-- One hexadecimal digit. -/
def hexDigit (n : Nat) : String := String.singleton ("0123456789ABCDEF".toList.getD n '0')

/-- A byte as `0xNN`. -/
def asmByte (b : Byte) : String := "0x" ++ hexDigit (b.toNat / 16) ++ hexDigit (b.toNat % 16)

/-- A byte sequence as `[0xNN, ...]`. -/
def asmBytes (s : List Byte) : String := "[" ++ ", ".intercalate (s.map asmByte) ++ "]"

/-- The send of a wire instruction as a host writes it. -/
def asmCarried (id code : Byte) (params : List Byte) : String :=
  if id = broadcastId then "send.b " ++ asmByte code ++ ", " ++ asmBytes params
  else "send.u " ++ toString id.toNat ++ ", " ++ asmByte code ++ ", " ++ asmBytes params

/-- An instruction as a line of a host program (30_encoding.md R104). -/
def asmLine : Instr → String
  | .openLine baud => "open " ++ toString baud.toNat
  | .closeLine => "close"
  | .readReg reg => "rdreg " ++ toString reg.toNat
  | .sendUnicast id code params =>
    "send.u " ++ toString id.toNat ++ ", " ++ asmByte code ++ ", " ++ asmBytes params
  | .sendBroadcast code params => "send.b " ++ asmByte code ++ ", " ++ asmBytes params
  | .gwbInit addr width => "gwb.init " ++ toString addr.toNat ++ ", " ++ toString width.toNat
  | .gwbAdd id data => "gwb.add " ++ toString id.toNat ++ ", " ++ asmBytes data
  | .gwbPayload => "gwb.payload"
  | .gwbSend => "gwb.send"
  | .ping id params => asmCarried id 0x01 params
  | .read id params => asmCarried id 0x02 params
  | .write id params => asmCarried id 0x03 params
  | .syncWrite id params => asmCarried id 0x83 params

end Sys2Proof.Machine
end

