-- ==== Sys2Proof/Safety.lean ====
section
/-!
DEFINITION. The invariants of 10_state.md R51, in the terms claims use, strengthened by what the receive state machine
keeps about an accepted header (41_frame_codec.md R147, R152), and what a safe step is.
-/

namespace Sys2Proof.Machine

/-- The command is one of the SENDs an exchange performs (10_state.md R51): SEND_UNICAST, SEND_BROADCAST, GWB_SEND, or a
wire instruction, which is carried by one of them (log 6). -/
def IsSend (c : Command) : Prop :=
  match c with
  | .instr (.sendUnicast _ _ _) => True
  | .instr (.sendBroadcast _ _) => True
  | .instr .gwbSend => True
  | .instr (.ping _ _) => True
  | .instr (.read _ _) => True
  | .instr (.write _ _) => True
  | .instr (.syncWrite _ _) => True
  | .otherWire _ _ _ => True
  | .instr (.openLine _) => False
  | .instr .closeLine => False
  | .instr (.readReg _) => False
  | .instr (.gwbInit _ _) => False
  | .instr (.gwbAdd _ _) => False
  | .instr .gwbPayload => False
  | .unassigned _ => False

/-- A group write buffer: no id twice, every block of the declared width (10_state.md R44, R51); and a port's result data
within `RES_LEN`'s range (R41). -/
structure Port.Ok (q : Port) : Prop where
  idsDistinct : q.gwbIds.Nodup
  widths : ∀ e ∈ q.gwbEntries, e.2.length = q.gwbWidth.toNat
  resLen : q.resLen ≤ 65536

/-- A plausible header stands at offset 0 of `buf` and its length field sets `want` (41_frame_codec.md R151, R152). -/
structure HeaderSet (cfg : Params) (buf : List Byte) (want : Nat) : Prop where
  header : buf.take 2 = [headerByte, headerByte]
  id : (byteAt buf 2).toNat ≤ cfg.rxIdMax
  length : (byteAt buf 3).toNat ≤ cfg.rxMaxLen
  target : want = (byteAt buf 3).toNat + 4
  held : cfg.minFrame ≤ buf.length

/-- The exchange in progress (10_state.md R51). -/
structure ExchangeOk (s : State) : Prop where
  busy : s.busy = true ↔ s.xstate ≠ .idle
  owner : s.busy = true ↔ s.xowner ≠ none
  ownerPending : ∀ q, s.xowner = some q →
    q < s.ports.length ∧ ∃ c, (portAt s q).pending = some c ∧ IsSend c
  sending : s.xstate = .sending → 6 ≤ s.txBuf.length ∧ s.txBuf.length ≤ s.cfg.txMaxLen
  started : s.xstate = .awaitingResponse → s.tStart ≤ s.now

/-- The receive buffers (10_state.md R32, R33, R51). -/
structure ReceiveOk (s : State) : Prop where
  buffer : s.rxBuf.length ≤ max s.want s.cfg.minFrame
  target : s.want = s.cfg.minFrame ∨ (4 ≤ s.want ∧ s.want ≤ s.cfg.rxMaxLen + 4)
  header : s.xstate = .awaitingResponse → s.want = s.cfg.minFrame ∨ HeaderSet s.cfg s.rxBuf s.want
  fifo : ∀ d, s.cfg.rxFifoDepth = some d → s.rxFifo.length ≤ d

/-- The invariant of the machine: legal parameters, one record a port, and 10_state.md R51. -/
structure MachineInv (s : State) : Prop where
  params : s.cfg.wf
  ports : s.ports.length = s.cfg.hostPorts
  portOk : ∀ q ∈ s.ports, q.Ok
  exchange : ExchangeOk s
  receive : ReceiveOk s

/-- Every pending command is one that a host can issue (10_state.md R42, 30_encoding.md R98). -/
def PendingOk (s : State) : Prop := ∀ q ∈ s.ports, ∀ c, q.pending = some c → c.WellFormed

/-- A safe step from `s`: it goes on, or it refuses, and then a request that a host may hand over next is no command
(00_scope.md R9, 30_encoding.md R98). -/
def SafeStep (s : State) (o : Host.Outcome State Fault Refusal) : Prop :=
  match o with
  | .next _ => True
  | .fault _ => False
  | .refused (.notIssuable e) =>
    ∃ p r rest, Move.issue p ∈ moves s ∧ s.env.hostIn[p]? = some (r :: rest) ∧ decode r = .malformed e
  | .refused _ => False

/-- `n` Engine steps of the exchange in progress, with nothing else moving. -/
def exchangeRun : Nat → State → State
  | 0, s => s
  | n + 1, s => exchangeRun n (exchangeStep s)

/-- Steps of the machine from one state to another in which the Engine's exchange, the Clock and the Line move, in any
order the machine admits, with the bytes that the Line delivered in them, oldest first. -/
inductive LineRun : State → List Byte → State → Prop where
  | start (s : State) : LineRun s [] s
  | quiet {s t t' u : State} {delivered : List Byte} {m : Move} (before : LineRun s delivered t)
      (picked : pickMove t = some (m, t')) (who : m = .exchange ∨ m = .clock) (moved : step t = .next u) :
      LineRun s delivered u
  | line {s t t' u : State} {delivered rest : List Byte} {b : Byte} (before : LineRun s delivered t)
      (picked : pickMove t = some (.line, t')) (byte : t.env.lineIn = b :: rest) (moved : step t = .next u) :
      LineRun s (delivered ++ [b]) u

end Sys2Proof.Machine
end

