-- ==== Sys2Proof/Certificates/Slice0/Obligations.lean ====
section
/-!
DEFINITION. The statements for the provers. A statement of a command's result gives the WHOLE next state: every field not
written out in it is as before, which is its frame. There is no memory (20_memory.md R60); the buffers are fields. Two
fields are the model's own: `s.port`, the port `p` the command was issued on (log 18), and `completions`, where the model
keeps the completion records that `complete(p, rec)` returns to the host (30_encoding.md R100; log 12).
-/

open Sys2Proof Sys2Proof.Machine

/-! Encoding. -/

/-- Decoding the encoding of any well-formed instruction gives it back, whatever its operands (30_encoding.md R82, R98,
R99). The bytes of a 32-bit operand are the model's choice (log 5). -/
def Obligations.DecodeOfEncodeIsTheInstruction : Prop :=
  ∀ i : Instr, i.WellFormed → decode (encode i) = .command (.instr i)

/-- Where a request decodes to an instruction, it is that instruction's encoding and the instruction is well formed: no
two requests mean the same, and a frame is accepted only with its header, length relation and checksum (30_encoding.md
R82, R84, R86). Every other command that a request decodes to is well formed too: an opcode outside the table, or a frame
with an unnamed instruction byte (R92, R98, R103). The bytes of a 32-bit operand are the model's choice (log 5). -/
def Obligations.DecodedRequestIsItsEncoding : Prop :=
  (∀ (r : Request) (i : Instr), decode r = .command (.instr i) → encode i = r ∧ i.WellFormed) ∧
  ∀ (r : Request) (c : Command), decode r = .command c → c.WellFormed

/-- Words written out from the spec's encodings decode to their instructions: E1's frame, V-BF-2, V-BF-3, E2's frame and
V-BF-4 (a WRITE with id 0xFE), and host commands by 30_encoding.md R99. How a host command's operands lie in the bytes of
its message is the model's choice (log 5). -/
def Obligations.WordsWrittenOutDecode : Prop :=
  decode (.wire [0xFF, 0xFF, 0x01, 0x05, 0x03, 0x2A, 0x00, 0x01, 0xCB]) = .command (.instr (.write 1 [0x2A, 0x00, 0x01])) ∧
  decode (.wire [0xFF, 0xFF, 0x01, 0x02, 0x01, 0xFB]) = .command (.instr (.ping 1 [])) ∧
  decode (.wire [0xFF, 0xFF, 0x01, 0x04, 0x02, 0x38, 0x02, 0xBE]) = .command (.instr (.read 1 [0x38, 0x02])) ∧
  decode (.wire [0xFF, 0xFF, 0xFE, 0x0A, 0x83, 0x2A, 0x02, 0x07, 0x00, 0x02, 0x09, 0x00, 0x04, 0x32]) =
    .command (.instr (.syncWrite 0xFE [0x2A, 0x02, 0x07, 0x00, 0x02, 0x09, 0x00, 0x04])) ∧
  decode (.wire [0xFF, 0xFF, 0xFE, 0x04, 0x03, 0x28, 0x00, 0xD2]) = .command (.instr (.write 0xFE [0x28, 0x00])) ∧
  decode (.host [0x10, 0x01, 0x03, 0x2A, 0x00, 0x01]) = .command (.instr (.sendUnicast 1 0x03 [0x2A, 0x00, 0x01])) ∧
  decode (.host [0x20, 0x2A, 0x02]) = .command (.instr (.gwbInit 42 2)) ∧
  decode (.host [0x02]) = .command (.instr .closeLine)

/-- An opcode byte outside the table completes at once with NotAvailable, latched in `RES_CODE[p]`, and has no other effect
(30_encoding.md R103). The model's choices: that any bytes may follow it in the message (log 5), and that it is a command beside
the table's instructions (log 20). -/
def Obligations.UnassignedOpcodeCompletesNotAvailable : Prop :=
  ∀ (s : State) (op : Byte) (rest : List Byte), s.port < s.ports.length →
    op ∉ ([0x01, 0x02, 0x03, 0x10, 0x11, 0x20, 0x21, 0x22, 0x23] : List Byte) →
    decode (.host (op :: rest)) = .command (.unassigned op) ∧
    runCommand (.unassigned op) s = .next { s with
      ports := s.ports.modify s.port fun q => { q with
        resCode := .notAvailable, pending := none
        completions := q.completions ++ [{ code := some .notAvailable }] } }

/-! Frame codec. -/

/-- The checksum is 0xFF less the sum mod 256, and a change of any single byte changes it, wherever it stands
(41_frame_codec.md R140). -/
def Obligations.ChecksumDetectsEverySingleByteChange : Prop :=
  (∀ s : List Byte, (checksum s).toNat = 0xFF - byteSum s % 256) ∧
  ∀ (before after : List Byte) (a b : Byte), a ≠ b →
    checksum (before ++ a :: after) ≠ checksum (before ++ b :: after)

/-- Build fails, with no bytes, exactly when `|params| + 6 > P_TX_MAX_LEN` (41_frame_codec.md R142). A frame it builds
has `|params| + 6` bytes: `FF FF id len instr params chk`, with `len = |params| + 2` wherever that is a byte, and `chk`
the checksum of the bytes from offset 2 up to it (R141; 30_encoding.md R82, R84, R86). -/
def Obligations.BuildFrameLayoutAndLimit : Prop :=
  ∀ (cfg : Params) (id code : Byte) (params : List Byte),
    (buildFrame cfg id code params = none ↔ cfg.txMaxLen < params.length + 6) ∧
    ∀ f : List Byte, buildFrame cfg id code params = some f →
      f.length = params.length + 6 ∧
      f.take 3 = [0xFF, 0xFF, id] ∧
      byteAt f 4 = code ∧
      frameParams f = params ∧
      byteAt f (f.length - 1) = checksum (memRead f 2 (f.length - 3)) ∧
      (params.length + 2 ≤ 255 → (byteAt f 3).toNat = params.length + 2)

/-- The header scan finds the least offset of an `FF FF` pair, or none when there is none (41_frame_codec.md R147). -/
def Obligations.HeaderScanFindsTheLeastOffset : Prop :=
  ∀ (buf : List Byte) (k : Nat),
    (findHeader buf = some k ↔
      (k + 2 ≤ buf.length ∧ byteAt buf k = 0xFF ∧ byteAt buf (k + 1) = 0xFF) ∧
        ∀ j < k, ¬(byteAt buf j = 0xFF ∧ byteAt buf (j + 1) = 0xFF)) ∧
    (findHeader buf = none ↔
      ∀ j, j + 2 ≤ buf.length → ¬(byteAt buf j = 0xFF ∧ byteAt buf (j + 1) = 0xFF))

/-! Transport commands. -/

/-- OPEN of an idle line at a non-zero rate, when the environment accepts: the line is open at that rate, flushed, the
result true. `drawOpen` is the environment's draw, whatever it is (40_transport.md R120, R125); that it reads recorded
choices first is the model's choice (log 2). So is `lastRx`, the time of the last delivery: OPEN of a closed line clears
it, a reopening keeps it (log 14). -/
def Obligations.OpenAcceptedOpensAndFlushes : Prop :=
  ∀ (s : State) (baud : BitVec 32), s.port < s.ports.length → s.busy = false → baud ≠ 0 → (drawOpen s).1 = true →
    exec (.openLine baud) s = .next { s with
      lineOpen := true
      baud := baud
      msPerByte := 1000 * (s.cfg.bitsPerByte : Rat) / (baud.toNat : Rat)
      rxFifo := []
      env := { (drawOpen s).2.env with lastRx := if s.lineOpen then s.env.lastRx else none }
      ports := s.ports.modify s.port fun q => { q with
        resBool := true, pending := none, completions := q.completions ++ [{ bool := some true }] } }

/-- OPEN gives false, and changes nothing else, while busy, for `baud = 0`, and when the environment refuses; in the last
case only the draw is spent (40_transport.md R120, 60_exceptions.md R250). -/
def Obligations.OpenRefusedChangesNothing : Prop :=
  ∀ (s : State) (baud : BitVec 32), s.port < s.ports.length →
    (s.busy = true ∨ baud = 0 →
      exec (.openLine baud) s = .next { s with
        ports := s.ports.modify s.port fun q => { q with
          resBool := false, pending := none, completions := q.completions ++ [{ bool := some false }] } }) ∧
    (s.busy = false → baud ≠ 0 → (drawOpen s).1 = false →
      exec (.openLine baud) s = .next { s with
        env := (drawOpen s).2.env
        ports := s.ports.modify s.port fun q => { q with
          resBool := false, pending := none, completions := q.completions ++ [{ bool := some false }] } })

/-- CLOSE of an idle block flushes and closes; while an exchange owns the line it is ignored. `BAUD` and `MS_PER_BYTE`
keep their values (40_transport.md R121). -/
def Obligations.CloseFlushesUnlessBusy : Prop :=
  ∀ s : State, s.port < s.ports.length →
    (s.busy = false →
      exec .closeLine s = .next { s with
        lineOpen := false
        rxFifo := []
        ports := s.ports.modify s.port fun q => { q with
          pending := none, completions := q.completions ++ [({} : Completion)] } }) ∧
    (s.busy = true →
      exec .closeLine s = .next { s with
        ports := s.ports.modify s.port fun q => { q with
          pending := none, completions := q.completions ++ [({} : Completion)] } })

/-- READ_REG returns the register view's value and writes no register (40_transport.md R122). -/
def Obligations.ReadRegReturnsTheViewOnly : Prop :=
  ∀ (s : State) (reg : BitVec 32), s.port < s.ports.length →
    exec (.readReg reg) s = .next { s with
      ports := s.ports.modify s.port fun q => { q with
        pending := none, completions := q.completions ++ [{ value := some (regView s s.port reg) }] } }

/-- What each register shows of port `p` (10_state.md R46, R48), the result code by its number (30_encoding.md R95). The
three wide counts show their number where it fits the register's width; where it does not, the value is free (log 10). -/
def Obligations.RegisterViewShowsTheState : Prop :=
  ∀ (s : State) (p : Nat) (q : Port), s.ports[p]? = some q →
    regView s p 0x01 = s.baud ∧
    (regView s p 0x02).toNat =
      (match q.resCode with
        | .success => 0 | .portBusy => 1 | .txFail => 2 | .rxFail => 3 | .txError => 4 | .rxWaiting => 5
        | .rxTimeout => 6 | .rxCorrupt => 7 | .notAvailable => 8) ∧
    (regView s p 0x03).toNat = q.resBool.toNat ∧
    (regView s p 0x04).toNat = q.resErr.toNat ∧
    (q.resData.length < 2 ^ 17 → (regView s p 0x05).toNat = q.resData.length) ∧
    (regView s p 0x06).toNat = q.gwbAddr.toNat ∧
    (regView s p 0x07).toNat = q.gwbWidth.toNat ∧
    (q.gwbEntries.length < 2 ^ 9 → (regView s p 0x08).toNat = q.gwbEntries.length) ∧
    (s.rxFifo.length < 2 ^ 32 → (regView s p 0x09).toNat = s.rxFifo.length) ∧
    (∀ k < 65536, (regView s p (BitVec.ofNat 32 (0x10000 + k))).toNat = (q.resData[k]?.getD 0).toNat) ∧
    (∀ reg : BitVec 32, 0x09 < reg.toNat → reg.toNat < 0x10000 ∨ 0x20000 ≤ reg.toNat → regView s p reg = 0)

/-- The fields of STATUS; its bits 7:6 read 0; it is 0 after reset (10_state.md R47). -/
def Obligations.StatusFieldsAreTheFlags : Prop :=
  ∀ (s : State) (p : Nat) (q : Port), s.ports[p]? = some q →
    let v := regView s p 0x00
    v.getLsbD 0 = s.lineOpen ∧
    v.getLsbD 1 = s.busy ∧
    (v.extractLsb' 2 2).toNat =
      (match s.xstate with | .idle => 0 | .sending => 1 | .awaitingResponse => 2) ∧
    v.getLsbD 4 = q.gwbValid ∧
    v.getLsbD 5 = decide (s.xstate ≠ .idle ∧ s.xkind = .broadcast) ∧
    v.toNat < 64 ∧
    regView (resetBlock s) p 0x00 = 0

/-! Exchanges: issue. -/

/-- A SEND_UNICAST that is well addressed, fits a frame and finds the port free begins its exchange: port acquired, frame
built, FIFO flushed, `Sending`. Nothing is emitted yet (42_request_response.md R171, R172; 40_transport.md R123). -/
def Obligations.SendUnicastBeginsTheExchange : Prop :=
  ∀ (s : State) (id code : Byte) (params : List Byte), s.port < s.ports.length → id ≠ 0xFE →
    params.length + 6 ≤ s.cfg.txMaxLen → s.busy = false →
    exec (.sendUnicast id code params) s = .next { s with
      busy := true, xowner := some s.port, xstate := .sending, xkind := .unicast, reqId := id
      txBuf := frameOf id code params, rxFifo := [] }

/-- A SEND_UNICAST that is turned away reports the first failure in the order NotAvailable, TxError, PortBusy; it clears
its unicast results, touches nothing else and releases nothing (42_request_response.md R171, R172; 60_exceptions.md
R253). -/
def Obligations.SendUnicastTurnedAwayInOrder : Prop :=
  ∀ (s : State) (id code : Byte) (params : List Byte) (c : CommResult), s.port < s.ports.length →
    (id = 0xFE ∧ c = .notAvailable ∨
      id ≠ 0xFE ∧ s.cfg.txMaxLen < params.length + 6 ∧ c = .txError ∨
      id ≠ 0xFE ∧ params.length + 6 ≤ s.cfg.txMaxLen ∧ s.busy = true ∧ c = .portBusy) →
    exec (.sendUnicast id code params) s = .next { s with
      ports := s.ports.modify s.port fun q => { q with
        resCode := c, resErr := 0, resData := [], pending := none
        completions := q.completions ++ [{ code := some c, err := some 0, data := some [] }] } }

/-- A SEND_BROADCAST that fits a frame and finds the port free begins its exchange to id 0xFE (42_request_response.md
R171, R172, R177). -/
def Obligations.SendBroadcastBeginsTheExchange : Prop :=
  ∀ (s : State) (code : Byte) (params : List Byte), s.port < s.ports.length →
    params.length + 6 ≤ s.cfg.txMaxLen → s.busy = false →
    exec (.sendBroadcast code params) s = .next { s with
      busy := true, xowner := some s.port, xstate := .sending, xkind := .broadcast, reqId := 0xFE
      txBuf := frameOf 0xFE code params, rxFifo := [] }

/-- A SEND_BROADCAST that is turned away: TxError, then PortBusy; only the code is written (42_request_response.md R171,
R172, R177; 60_exceptions.md R253). -/
def Obligations.SendBroadcastTurnedAwayInOrder : Prop :=
  ∀ (s : State) (code : Byte) (params : List Byte) (c : CommResult), s.port < s.ports.length →
    (s.cfg.txMaxLen < params.length + 6 ∧ c = .txError ∨
      params.length + 6 ≤ s.cfg.txMaxLen ∧ s.busy = true ∧ c = .portBusy) →
    exec (.sendBroadcast code params) s = .next { s with
      ports := s.ports.modify s.port fun q => { q with
        resCode := c, pending := none, completions := q.completions ++ [{ code := some c }] } }

/-- PING, READ, WRITE and SYNC_WRITE, when the frame fits and the port is free, each begin the exchange that carries it
(45_wire_instructions.md R230 to R234): a broadcast to id 0xFE, a unicast to any other id. That a frame with id 0xFE is the
SEND_BROADCAST, and not a unicast that R171 turns away, is the model's choice (log 6). -/
def Obligations.WireInstructionsBeginTheirExchanges : Prop :=
  ∀ (s : State) (id : Byte) (params : List Byte), s.port < s.ports.length →
    params.length + 6 ≤ s.cfg.txMaxLen → s.busy = false →
    let begun := fun code : Byte => ({ s with
      busy := true, xowner := some s.port, xstate := .sending
      xkind := if id = 0xFE then .broadcast else .unicast, reqId := id
      txBuf := frameOf id code params, rxFifo := [] } : State)
    exec (.ping id params) s = .next (begun 0x01) ∧ exec (.read id params) s = .next (begun 0x02) ∧
      exec (.write id params) s = .next (begun 0x03) ∧ exec (.syncWrite id params) s = .next (begun 0x83)

/-- In every state, also where it is turned away, a wire instruction does what the SEND that carries it does, and so does
every unnamed instruction byte (45_wire_instructions.md R230 to R234, 30_encoding.md R92). The model's choices: with id 0xFE
that SEND is the SEND_BROADCAST (log 6), and an unnamed byte is `otherWire`, beside the table's instructions (log 20). -/
def Obligations.WireInstructionsAreCarriedUnchanged : Prop :=
  ∀ (s : State) (id code : Byte) (params : List Byte),
    let carried := fun c : Byte => if id = 0xFE then exec (.sendBroadcast c params) s else exec (.sendUnicast id c params) s
    exec (.ping id params) s = carried 0x01 ∧ exec (.read id params) s = carried 0x02 ∧
      exec (.write id params) s = carried 0x03 ∧ exec (.syncWrite id params) s = carried 0x83 ∧
      runCommand (.otherWire id code params) s = carried code

/-! Exchanges: TX_DONE. -/

/-- A short write ends the exchange with TxFail and releases the port: a broadcast writes only its code, a unicast also
clears its results. `writeTx` gives how many bytes the line took (42_request_response.md R173, R176, R178;
40_transport.md R124). -/
def Obligations.ShortWriteIsTxFailAndReleases : Prop :=
  ∀ (s : State) (q : Nat), s.xstate = .sending → s.xowner = some q → (writeTx s).1 ≠ s.txBuf.length →
    exchangeStep s = { s with
      lineOut := s.lineOut ++ s.txBuf.take (writeTx s).1
      env := (writeTx s).2.env
      busy := false, xowner := none, xstate := .idle
      ports := s.ports.modify q fun x =>
        match s.xkind with
        | .broadcast => { x with
            resCode := .txFail, pending := none, completions := x.completions ++ [{ code := some .txFail }] }
        | .unicast => { x with
            resCode := .txFail, resErr := 0, resData := [], pending := none
            completions := x.completions ++ [{ code := some .txFail, err := some 0, data := some [] }] } }

/-- The line takes a prefix of the frame, at most all of it; a closed line takes nothing and spends no draw
(40_transport.md R129). That the draw is the next recorded choice, where there is one, is the model's choice (log 2). -/
def Obligations.WriteTakesAPrefix : Prop :=
  ∀ s : State,
    (writeTx s).1 ≤ s.txBuf.length ∧
    (writeTx s).2.lineOut = s.lineOut ++ s.txBuf.take (writeTx s).1 ∧
    (s.lineOpen = false → writeTx s = (0, s)) ∧
    (∀ n rest, s.lineOpen = true → s.env.writeDraws = n :: rest → n ≤ s.txBuf.length → (writeTx s).1 = n)

/-- A broadcast whose whole frame was written completes with Success at once: it writes only `RES_CODE`, releases the
port and waits for nothing (42_request_response.md R173, R177, R178). -/
def Obligations.WrittenBroadcastSucceedsAtOnce : Prop :=
  ∀ (s : State) (q : Nat), s.xstate = .sending → s.xkind = .broadcast → s.xowner = some q →
    (writeTx s).1 = s.txBuf.length →
    exchangeStep s = { s with
      lineOut := s.lineOut ++ s.txBuf
      env := (writeTx s).2.env
      busy := false, xowner := none, xstate := .idle
      ports := s.ports.modify q fun x => { x with
        resCode := .success, pending := none, completions := x.completions ++ [{ code := some .success }] } }

/-- A unicast whose whole frame was written starts its timer and its receive: `T_DUR` is
`MS_PER_BYTE * n + 2 * P_LATENCY_MS + P_TIMEOUT_EXTRA_MS` for the expected length `n`, which is a READ's count plus the
margin, else the margin (42_request_response.md R173, R174; 40_transport.md R126, R128; 41_frame_codec.md R143). -/
def Obligations.WrittenUnicastStartsTimerAndReceive : Prop :=
  ∀ s : State, s.xstate = .sending → s.xkind = .unicast → (writeTx s).1 = s.txBuf.length →
    let n := if byteAt s.txBuf 4 = 0x02 ∧ 8 ≤ s.txBuf.length then (byteAt s.txBuf 6).toNat + s.cfg.respMargin
      else s.cfg.respMargin
    exchangeStep s = { s with
      lineOut := s.lineOut ++ s.txBuf
      env := (writeTx s).2.env
      reqExpect := n
      tDur := s.msPerByte * (n : Rat) + 2 * s.cfg.latencyMs + s.cfg.timeoutExtraMs
      tStart := s.now
      rxBuf := [], want := s.cfg.minFrame, xstate := .awaitingResponse }

/-! The receive state machine. -/

/-- A byte in `RX_FIFO` is pulled before expiry is tested: one byte, oldest first, whatever the time (41_frame_codec.md
R145). -/
def Obligations.PullComesBeforeExpiry : Prop :=
  ∀ (s : State) (b : Byte) (rest : List Byte), s.xstate = .awaitingResponse → s.rxBuf.length < s.want →
    s.rxFifo = b :: rest →
    exchangeReady s = true ∧ exchangeStep s = { s with rxBuf := s.rxBuf ++ [b], rxFifo := rest }

/-- With an empty FIFO and too few bytes: before the deadline, and at it, the Engine waits; past it, no byte is RxTimeout
and some bytes are RxCorrupt, results cleared and port released (41_frame_codec.md R144, R146; 40_transport.md R127). -/
def Obligations.ExpiryClassifiesByWhatWasBuffered : Prop :=
  ∀ (s : State) (q : Nat), s.xstate = .awaitingResponse → s.xowner = some q → s.rxBuf.length < s.want →
    s.rxFifo = [] →
    (s.now - s.tStart ≤ s.tDur → exchangeStep s = s ∧ exchangeReady s = false) ∧
    (s.tDur < s.now - s.tStart →
      let c := if s.rxBuf = [] then CommResult.rxTimeout else CommResult.rxCorrupt
      exchangeReady s = true ∧
      exchangeStep s = { s with
        rxBuf := [], busy := false, xowner := none, xstate := .idle
        ports := s.ports.modify q fun x => { x with
          resCode := c, resErr := 0, resData := [], pending := none
          completions := x.completions ++ [{ code := some c, err := some 0, data := some [] }] } })

/-- With no header in a full buffer: before expiry only the last byte stays; after it the receive is RxCorrupt
(41_frame_codec.md R149). -/
def Obligations.NoHeaderKeepsOnlyTheLastByte : Prop :=
  ∀ (s : State) (buf : List Byte) (b : Byte) (q : Nat), s.xstate = .awaitingResponse → s.xowner = some q →
    s.rxBuf = buf ++ [b] → s.want ≤ s.rxBuf.length → findHeader s.rxBuf = none →
    (s.now - s.tStart ≤ s.tDur → exchangeStep s = { s with rxBuf := [b] }) ∧
    (s.tDur < s.now - s.tStart →
      exchangeStep s = { s with
        rxBuf := [], busy := false, xowner := none, xstate := .idle
        ports := s.ports.modify q fun x => { x with
          resCode := .rxCorrupt, resErr := 0, resData := [], pending := none
          completions := x.completions ++ [{ code := some .rxCorrupt, err := some 0, data := some [] }] } })

/-- A header at a later offset: the bytes before it are discarded, nothing else (41_frame_codec.md R150). -/
def Obligations.LaterHeaderDiscardsWhatPrecedesIt : Prop :=
  ∀ (s : State) (i : Nat), s.xstate = .awaitingResponse → s.want ≤ s.rxBuf.length → 0 < i →
    findHeader s.rxBuf = some i → exchangeStep s = { s with rxBuf := s.rxBuf.drop i }

/-- A header at offset 0 with an id above `P_RX_ID_MAX` or a length above `P_RX_MAX_LEN` is spurious: one byte is
dropped, no deadline is tested (41_frame_codec.md R151). A plausible one whose length field gives another target sets
`WANT`, and the step ends (R152). -/
def Obligations.HeaderAtZeroIsDroppedOrSetsTheLength : Prop :=
  ∀ s : State, s.xstate = .awaitingResponse → s.want ≤ s.rxBuf.length → findHeader s.rxBuf = some 0 →
    (s.cfg.rxIdMax < (byteAt s.rxBuf 2).toNat ∨ s.cfg.rxMaxLen < (byteAt s.rxBuf 3).toNat →
      exchangeStep s = { s with rxBuf := s.rxBuf.drop 1 }) ∧
    ((byteAt s.rxBuf 2).toNat ≤ s.cfg.rxIdMax → (byteAt s.rxBuf 3).toNat ≤ s.cfg.rxMaxLen →
      s.want ≠ (byteAt s.rxBuf 3).toNat + 4 →
      exchangeStep s = { s with want := (byteAt s.rxBuf 3).toNat + 4 })

/-- A whole frame `f` under a plausible header: with a good checksum, the request's id and at least `P_MIN_FRAME` bytes,
the unicast succeeds with its error byte and the whole frame; with any of the three wrong it is RxCorrupt. Either way the
port is released and bytes past the frame are discarded, while `RX_FIFO` stays (41_frame_codec.md R148, R153;
42_request_response.md R175, R176). -/
def Obligations.WholeFrameIsVerifiedAndMatched : Prop :=
  ∀ (s : State) (q : Nat), s.xstate = .awaitingResponse → s.xowner = some q → s.want ≤ s.rxBuf.length →
    findHeader s.rxBuf = some 0 → (byteAt s.rxBuf 2).toNat ≤ s.cfg.rxIdMax →
    (byteAt s.rxBuf 3).toNat ≤ s.cfg.rxMaxLen → s.want = (byteAt s.rxBuf 3).toNat + 4 →
    let f := s.rxBuf.take s.want
    let ended := fun g : Port → Port => ({ s with
      rxBuf := [], busy := false, xowner := none, xstate := .idle, ports := s.ports.modify q g } : State)
    (byteAt f (s.want - 1) = checksum (memRead f 2 (s.want - 3)) ∧ byteAt f 2 = s.reqId ∧ s.cfg.minFrame ≤ s.want →
      exchangeStep s = ended fun x => { x with
        resCode := .success, resErr := byteAt f 4, resData := f, pending := none
        completions := x.completions ++
          [{ code := some .success, err := some (byteAt f 4), data := some f }] }) ∧
    (byteAt f (s.want - 1) ≠ checksum (memRead f 2 (s.want - 3)) ∨ byteAt f 2 ≠ s.reqId ∨ s.want < s.cfg.minFrame →
      exchangeStep s = ended fun x => { x with
        resCode := .rxCorrupt, resErr := 0, resData := [], pending := none
        completions := x.completions ++ [{ code := some .rxCorrupt, err := some 0, data := some [] }] })

/-- Round trip: when a frame that the block could build, to an acceptable id and within the parser's length limit, is the
first thing delivered since the flush, byte by byte as the Line and the Clock move, and its bytes are pulled before expiry,
the receive ends in Success with exactly that frame, its params are the built params, and later bytes stay in the FIFO, whose
depth holds them (41_frame_codec.md R156, R153; 42_request_response.md R175, R176). The limit `|F| <= P_RX_MAX_LEN + 4`
holds of every built frame at the default parameters (log 24); a FIFO of depth 0 queues nothing and is left out (log 28). -/
def Obligations.BuiltFrameIsReceivedAsItWasBuilt : Prop :=
  ∀ (s t : State) (q : Nat) (id code : Byte) (params delivered rest : List Byte), s.cfg.wf → s.lineOpen = true →
    s.xstate = .awaitingResponse → s.xowner = some q → s.rxBuf = [] → s.want = s.cfg.minFrame →
    (∀ d, s.cfg.rxFifoDepth = some d → 1 ≤ d ∧ rest.length ≤ d) →
    LineRun s delivered t → exchangeReady t = false → t.now - s.tStart ≤ s.tDur →
    s.rxFifo ++ delivered = frameOf id code params ++ rest → s.reqId = id → id.toNat ≤ s.cfg.rxIdMax →
    s.cfg.minFrame ≤ params.length + 6 → params.length + 2 ≤ s.cfg.rxMaxLen →
    frameParams (frameOf id code params) = params ∧
    t = { s with
      now := t.now, env := t.env
      rxFifo := rest, want := params.length + 6, busy := false, xowner := none, xstate := .idle
      ports := s.ports.modify q fun x => { x with
        resCode := .success, resErr := code, resData := frameOf id code params, pending := none
        completions := x.completions ++
          [{ code := some .success, err := some code, data := some (frameOf id code params) }] } }

/-- Corruption detection: change one byte of such a frame from offset 4 on, or its id to another acceptable id. Once the
first byte stands in the FIFO, the receive ends in RxCorrupt: when the whole changed frame was delivered, byte by byte, and
when expiry came first (41_frame_codec.md R157, R146; log 24; a FIFO of depth 0 is left out, log 28). -/
def Obligations.OneChangedByteIsRxCorrupt : Prop :=
  ∀ (s t : State) (q : Nat) (id code : Byte) (params delivered later : List Byte) (k : Nat) (b : Byte), s.cfg.wf →
    s.lineOpen = true → s.xstate = .awaitingResponse → s.xowner = some q → s.rxBuf = [] → s.want = s.cfg.minFrame →
    s.cfg.rxFifoDepth ≠ some 0 → s.rxFifo ≠ [] → LineRun s delivered t → exchangeReady t = false →
    id.toNat ≤ s.cfg.rxIdMax → s.cfg.minFrame ≤ params.length + 6 → params.length + 2 ≤ s.cfg.rxMaxLen →
    (4 ≤ k ∧ k < params.length + 6 ∨ k = 2 ∧ b.toNat ≤ s.cfg.rxIdMax) → byteAt (frameOf id code params) k ≠ b →
    let changed := (frameOf id code params).set k b
    (s.rxFifo ++ delivered = changed ++ later ∨
      s.rxFifo ++ delivered <+: changed ∧ s.tDur < t.now - s.tStart) →
    t = { s with
      now := t.now, env := t.env, rxFifo := t.rxFifo, want := t.want
      busy := false, xowner := none, xstate := .idle
      ports := s.ports.modify q fun x => { x with
        resCode := .rxCorrupt, resErr := 0, resData := [], pending := none
        completions := x.completions ++ [{ code := some .rxCorrupt, err := some 0, data := some [] }] } }

/-- Re-synchronisation: noise of any length without 0xFF, delivered byte by byte before such a frame, is discarded, and the
receive ends in Success with the frame, when all of it is pulled before expiry (41_frame_codec.md R158, R149, R150;
log 24; a FIFO of depth 0 is left out, log 28). -/
def Obligations.NoiseBeforeAFrameIsDiscarded : Prop :=
  ∀ (s t : State) (q : Nat) (noise : List Byte) (id code : Byte) (params delivered rest : List Byte), s.cfg.wf →
    s.lineOpen = true → s.xstate = .awaitingResponse → s.xowner = some q → s.rxBuf = [] → s.want = s.cfg.minFrame →
    (∀ d, s.cfg.rxFifoDepth = some d → 1 ≤ d ∧ rest.length ≤ d) →
    LineRun s delivered t → exchangeReady t = false → t.now - s.tStart ≤ s.tDur → (∀ b ∈ noise, b ≠ 0xFF) →
    s.rxFifo ++ delivered = noise ++ frameOf id code params ++ rest → s.reqId = id → id.toNat ≤ s.cfg.rxIdMax →
    s.cfg.minFrame ≤ params.length + 6 → params.length + 2 ≤ s.cfg.rxMaxLen →
    t = { s with
      now := t.now, env := t.env
      rxFifo := rest, want := params.length + 6, busy := false, xowner := none, xstate := .idle
      ports := s.ports.modify q fun x => { x with
        resCode := .success, resErr := code, resData := frameOf id code params, pending := none
        completions := x.completions ++
          [{ code := some .success, err := some code, data := some (frameOf id code params) }] } }

/-- A whole unicast exchange on an open line: SEND_UNICAST is issued on a free port, the line takes all of its frame, and
then the Line delivers, byte by byte and at its rate, a well-formed response from the addressed device, the last byte no
later than `TimeoutMs(n)` after the issue, and perhaps later bytes that the FIFO has room for. Then exactly the request's
frame is on the line, the result is Success with the response's error byte and the whole response, the port is free again
and the later bytes are in the FIFO (42_request_response.md R170 to R176, 41_frame_codec.md R156, 40_transport.md R126,
R128, R131, R132). That the write takes the whole frame is a recorded draw (log 2); the response's length is within the
parser's limit (log 24); a FIFO of depth 0 is left out (log 28). -/
def Obligations.AnsweredUnicastSucceedsEndToEnd : Prop :=
  ∀ (s : State) (id code err : Byte) (params data later : List Byte) (draws : List Nat), s.cfg.wf →
    s.port < s.ports.length → s.busy = false → s.lineOpen = true → id.toNat ≤ s.cfg.rxIdMax →
    params.length + 6 ≤ s.cfg.txMaxLen → s.env.writeDraws = (params.length + 6) :: draws →
    s.cfg.minFrame ≤ data.length + 6 → data.length + 2 ≤ s.cfg.rxMaxLen →
    (∀ d, s.cfg.rxFifoDepth = some d → 1 ≤ d ∧ later.length ≤ d) →
    let request := frameOf id code params
    let response := frameOf id err data
    let n := expectedLen s.cfg request
    ∃ t, exec (.sendUnicast id code params) s = .next t ∧
      ∀ u, LineRun t (response ++ later) u → exchangeReady u = false → u.now - s.now ≤ timeoutMs s n →
        u = { s with
          now := u.now, env := u.env
          lineOut := s.lineOut ++ request, rxFifo := later
          busy := false, xowner := none, xstate := .idle, xkind := .unicast
          reqId := id, reqExpect := n, txBuf := request, tStart := s.now, tDur := timeoutMs s n
          rxBuf := [], want := response.length
          ports := s.ports.modify s.port fun q => { q with
            resCode := .success, resErr := err, resData := response, pending := none
            completions := q.completions ++
              [{ code := some .success, err := some err, data := some response }] } }

/-- Progress: with nothing more delivered, the receive state machine ends or waits within
`2 * |RX_FIFO| + |RX_BUF| + 2` Engine steps (41_frame_codec.md R154, 70_reset_and_hazards.md R284). -/
def Obligations.ReceiveEndsOrWaitsInBoundedSteps : Prop :=
  ∀ s : State, MachineInv s → s.xstate = .awaitingResponse →
    ∃ n ≤ 2 * s.rxFifo.length + s.rxBuf.length + 2,
      (exchangeRun n s).xstate = .idle ∨ exchangeReady (exchangeRun n s) = false

/-- Once expired with an empty FIFO, the receive ends within `|RX_BUF| + 2` Engine steps: no read waits for ever
(41_frame_codec.md R154, 70_reset_and_hazards.md R284). -/
def Obligations.ExpiredReceiveEnds : Prop :=
  ∀ s : State, MachineInv s → s.xstate = .awaitingResponse → s.rxFifo = [] → s.tDur < s.now - s.tStart →
    ∃ n ≤ s.rxBuf.length + 2, (exchangeRun n s).xstate = .idle ∧ (exchangeRun n s).busy = false

/-- A receive ends only in Success with a frame that has the header, an acceptable id, an acceptable length equal to its
size less 4 and a good checksum, or in RxCorrupt, or, with nothing buffered, in RxTimeout (41_frame_codec.md R155, R159).
What ends is seen in the completion the owner gets. -/
def Obligations.ReceiveEndsOnlyInTheThreeResults : Prop :=
  ∀ (s : State) (q : Nat) (x : Port), MachineInv s → s.xstate = .awaitingResponse → s.xowner = some q →
    s.ports[q]? = some x → (exchangeStep s).xstate = .idle →
    ∃ y, (exchangeStep s).ports[q]? = some y ∧ y.pending = none ∧
      ((y.resCode = .rxTimeout ∧ s.rxBuf = [] ∧ s.rxFifo = []) ∨ (y.resCode = .rxCorrupt ∧ s.rxBuf ≠ []) ∨
        (y.resCode = .success ∧ y.resErr = byteAt y.resData 4 ∧ byteAt y.resData 2 = s.reqId ∧
          y.resData.take 2 = [0xFF, 0xFF] ∧ (byteAt y.resData 2).toNat ≤ s.cfg.rxIdMax ∧
          (byteAt y.resData 3).toNat ≤ s.cfg.rxMaxLen ∧ y.resData.length = (byteAt y.resData 3).toNat + 4 ∧
          s.cfg.minFrame ≤ y.resData.length ∧
          byteAt y.resData (y.resData.length - 1) = checksum (memRead y.resData 2 (y.resData.length - 3))))

/-- Once a byte has been pulled, the buffer is never empty again before the receive ends (41_frame_codec.md R154, R159). -/
def Obligations.BufferStaysNonEmptyUntilTheEnd : Prop :=
  ∀ s : State, MachineInv s → s.xstate = .awaitingResponse → s.rxBuf ≠ [] →
    (exchangeStep s).xstate = .idle ∨
      ((exchangeStep s).xstate = .awaitingResponse ∧ (exchangeStep s).rxBuf ≠ [])

/-! The group write buffer. -/

/-- GWB_INIT starts an empty buffer of the given address and width (43_group_write.md R190). -/
def Obligations.GwbInitStartsAnEmptyBuffer : Prop :=
  ∀ (s : State) (addr width : Byte), s.port < s.ports.length →
    exec (.gwbInit addr width) s = .next { s with
      ports := s.ports.modify s.port fun q => { q with
        gwbAddr := addr, gwbWidth := width, gwbEntries := [], gwbValid := true, pending := none
        completions := q.completions ++ [({} : Completion)] } }

/-- GWB_ADD of a new id with data of the declared width to an initialised buffer appends it and gives true; anything else
gives false and leaves the buffer (43_group_write.md R191, 60_exceptions.md R250). -/
def Obligations.GwbAddKeepsIdsDistinctAndWidthsEqual : Prop :=
  ∀ (s : State) (q : Port) (id : Byte) (data : List Byte), s.ports[s.port]? = some q →
    ((q.gwbValid = true ∧ (∀ e ∈ q.gwbEntries, e.1 ≠ id) ∧ data.length = q.gwbWidth.toNat) →
      exec (.gwbAdd id data) s = .next { s with
        ports := s.ports.set s.port { q with
          gwbEntries := q.gwbEntries ++ [(id, data)], resBool := true, pending := none
          completions := q.completions ++ [{ bool := some true }] } }) ∧
    ((q.gwbValid = false ∨ (∃ e ∈ q.gwbEntries, e.1 = id) ∨ data.length ≠ q.gwbWidth.toNat) →
      exec (.gwbAdd id data) s = .next { s with
        ports := s.ports.set s.port { q with
          resBool := false, pending := none, completions := q.completions ++ [{ bool := some false }] } })

/-- GWB_PAYLOAD writes out each id followed by its data, in insertion order (43_group_write.md R192). -/
def Obligations.GwbPayloadIsTheEntriesInOrder : Prop :=
  ∀ (s : State) (q : Port), s.ports[s.port]? = some q →
    let payload := (q.gwbEntries.map fun e => [e.1] ++ e.2).flatten
    exec .gwbPayload s = .next { s with
      ports := s.ports.set s.port { q with
        resData := payload, pending := none, completions := q.completions ++ [{ data := some payload }] } }

/-- GWB_SEND of an empty buffer is Success at once, whatever the port or the line is doing (43_group_write.md R193). -/
def Obligations.EmptyGwbSendIsANoOpSuccess : Prop :=
  ∀ (s : State) (q : Port), s.ports[s.port]? = some q → q.gwbEntries = [] →
    exec .gwbSend s = .next { s with
      ports := s.ports.set s.port { q with
        resCode := .success, pending := none, completions := q.completions ++ [{ code := some .success }] } }

/-- GWB_SEND of a non-empty buffer whose parameter block fits a frame begins, on a free port, the broadcast of one SYNC_WRITE
frame, and keeps the buffer. While an exchange holds the port it is PortBusy, writes only the code and sends nothing
(43_group_write.md R193, R194; 42_request_response.md R172; 60_exceptions.md R253; 70_reset_and_hazards.md R274). -/
def Obligations.GwbSendBeginsOneSyncWrite : Prop :=
  ∀ (s : State) (q : Port), s.ports[s.port]? = some q → q.gwbEntries ≠ [] →
    let params := q.gwbAddr :: q.gwbWidth :: (q.gwbEntries.map fun e => [e.1] ++ e.2).flatten
    params.length + 6 ≤ s.cfg.txMaxLen →
    (s.busy = false →
      exec .gwbSend s = .next { s with
        busy := true, xowner := some s.port, xstate := .sending, xkind := .broadcast, reqId := 0xFE
        txBuf := frameOf 0xFE 0x83 params, rxFifo := [] }) ∧
    (s.busy = true →
      exec .gwbSend s = .next { s with
        ports := s.ports.set s.port { q with
          resCode := .portBusy, pending := none, completions := q.completions ++ [{ code := some .portBusy }] } })

/-- A well-kept, non-empty buffer of `k` entries of width `w` fits a frame exactly when `k * (1 + w) + 8 <= P_TX_MAX_LEN`:
then GWB_SEND on a free port begins a frame of that length; beyond it GWB_SEND gives TxError, even while busy, and sends
nothing (43_group_write.md R193, R195; 60_exceptions.md R253). -/
def Obligations.OversizeGroupIsTxError : Prop :=
  ∀ (s : State) (q : Port), s.ports[s.port]? = some q → q.Ok → q.gwbEntries ≠ [] →
    let frameLen := q.gwbEntries.length * (1 + q.gwbWidth.toNat) + 8
    (s.cfg.txMaxLen < frameLen →
      exec .gwbSend s = .next { s with
        ports := s.ports.set s.port { q with
          resCode := .txError, pending := none, completions := q.completions ++ [{ code := some .txError }] } }) ∧
    (frameLen ≤ s.cfg.txMaxLen → s.busy = false →
      ∃ t, exec .gwbSend s = .next t ∧ t.xstate = .sending ∧ t.xowner = some s.port ∧ t.txBuf.length = frameLen)

/-! Agents. -/

/-- The Line: a byte delivered to a closed line, or to a full FIFO of bounded depth, is dropped; any other is queued behind
the bytes before it (40_transport.md R131, R134). The delivery's time is the model's own bookkeeping (log 14). -/
def Obligations.LineDeliveryQueuesOrDrops : Prop :=
  ∀ (s : State) (b : Byte) (rest : List Byte), s.env.lineIn = b :: rest →
    (s.lineOpen = false → lineMove s = { s with env := { s.env with lineIn := rest } }) ∧
    (s.lineOpen = true → (s.cfg.rxFifoDepth = none ∨ ∃ d, s.cfg.rxFifoDepth = some d ∧ s.rxFifo.length < d) →
      lineMove s = { s with rxFifo := s.rxFifo ++ [b], env := { s.env with lineIn := rest, lastRx := some s.now } }) ∧
    (s.lineOpen = true → (∃ d, s.cfg.rxFifoDepth = some d ∧ d ≤ s.rxFifo.length) →
      lineMove s = { s with env := { s.env with lineIn := rest, lastRx := some s.now } })

/-- The Host: it may issue only with nothing pending, and issuing puts the command, copied, in `PENDING[p]`; what is no
command cannot be issued (30_encoding.md R98, R100). That the step then refuses is the model's reading (log 15). -/
def Obligations.HostIssuesOnePendingCommand : Prop :=
  ∀ (s : State) (p : Nat), Move.issue p ∈ moves s →
    ∃ q r rest, s.ports[p]? = some q ∧ q.pending = none ∧ s.env.hostIn[p]? = some (r :: rest) ∧
      (∀ c, decode r = .command c →
        runMove (.issue p) s = .next { s with
          ports := s.ports.set p { q with pending := some c }
          env := { s.env with hostIn := s.env.hostIn.set p rest } }) ∧
      ∀ e, decode r = .malformed e → runMove (.issue p) s = .refused (.notIssuable e)

/-- Engine urgency and the line rate: the Clock and the Line are enabled only when no Engine step is, and then the Clock is;
the open line delivers only when `MS_PER_BYTE` has passed since its last delivery, and as long as the line stays open, also
through a reopening, a step keeps the time of that delivery or is the next one, at least `MS_PER_BYTE` later
(70_reset_and_hazards.md R284, 40_transport.md R132, R135). The record of that time is the model's own (log 14). -/
def Obligations.LineAndClockWaitForTheEngine : Prop :=
  ∀ s : State,
    let engineWaits := exchangeReady s = false ∧ ∀ p q, s.ports[p]? = some q → q.pending ≠ none → s.xowner = some p
    (Move.line ∈ moves s ∨ Move.clock ∈ moves s → engineWaits) ∧
    (engineWaits → Move.clock ∈ moves s) ∧
    (Move.line ∈ moves s → s.lineOpen = true → ∀ u, s.env.lastRx = some u → s.msPerByte ≤ s.now - u) ∧
    ∀ t u, step s = .next t → s.lineOpen = true → t.lineOpen = true → s.env.lastRx = some u →
      t.env.lastRx = some u ∨ t.env.lastRx = some s.now ∧ s.msPerByte ≤ s.now - u

/-- Reset from any state: every element takes its reset value but `NOW`, pending commands are dropped without a
completion, an exchange in progress is abandoned (70_reset_and_hazards.md R270, 10_state.md R50). -/
def Obligations.ResetKeepsOnlyTime : Prop :=
  ∀ s : State, ∃ t, runMove .reset s = .next t ∧
    t.cfg = s.cfg ∧ t.now = s.now ∧
    t.lineOpen = false ∧ t.baud = 0 ∧ t.msPerByte = 0 ∧ t.busy = false ∧ t.xowner = none ∧ t.xstate = .idle ∧
    t.xkind = .unicast ∧ t.reqId = 0 ∧ t.reqExpect = 0 ∧ t.txBuf = [] ∧ t.rxFifo = [] ∧ t.rxBuf = [] ∧
    t.want = s.cfg.minFrame ∧ t.tStart = 0 ∧ t.tDur = 0 ∧ t.lineOut = [] ∧
    t.ports = List.replicate s.cfg.hostPorts
      { pending := none, resCode := .success, resBool := false, resErr := 0, resData := [], gwbValid := false
        gwbAddr := 0, gwbWidth := 0, gwbEntries := [], completions := [] }

/-! The machine. -/

/-- A step runs the decoded instruction. When the schedule's next choice is to serve port `p`, which has a command pending
that is not the exchange in progress, the step runs that command on that port; an instruction of the opcode table is run by
`exec`. And when the host of a free port `p` is to issue bytes that decode to an instruction, and the port is to be served
after it, the two steps issue that instruction and run it by `exec`. The schedule is the model's own (log 1), and that issue and begin are
two steps, with a state between them in which the command is pending, is its choice (log 31). -/
def Obligations.StepRunsTheDecodedInstruction : Prop :=
  ∀ (s : State) (p : Nat) (q : Port) (rest : List Move), s.cfg.wf → s.ports[p]? = some q → s.xowner ≠ some p →
    (∀ c, s.env.sched = .serve p :: rest → q.pending = some c →
      let served : State := { s with port := p, env := { s.env with sched := rest } }
      step s = runCommand c served ∧ ∀ i, c = .instr i → step s = exec i served) ∧
    ∀ r i later, s.env.sched = .issue p :: .serve p :: rest → q.pending = none →
      s.env.hostIn[p]? = some (r :: later) → decode r = .command (.instr i) →
      let issued : State := { s with
        ports := s.ports.set p { q with pending := some (.instr i) }
        env := { s.env with hostIn := s.env.hostIn.set p later, sched := .serve p :: rest } }
      step s = .next issued ∧ step issued = exec i { issued with port := p, env := { issued.env with sched := rest } }

/-- The Engine's step of the exchange in progress is enabled exactly when it has one and no command is pending beside it, and
the step runs it when the schedule's next choice is that. That pending commands are begun first is the model's reading of
60_exceptions.md R255 (log 29); the schedule is its own (log 1). -/
def Obligations.StepRunsTheExchange : Prop :=
  ∀ s : State,
    let alone := ∀ p q, s.ports[p]? = some q → q.pending ≠ none → s.xowner = some p
    (Move.exchange ∈ moves s ↔ exchangeReady s = true ∧ alone) ∧
    ∀ rest, s.cfg.wf → s.env.sched = .exchange :: rest → exchangeReady s = true → alone →
      step s = .next (exchangeStep { s with env := { s.env with sched := rest } })

/-- The state after reset meets the invariant of 10_state.md R51, and nothing that cannot be issued is pending in it
(30_encoding.md R98). -/
def Obligations.ResetStateMeetsTheInvariant : Prop := MachineInv State.reset ∧ PendingOk State.reset

/-- Every step keeps the invariant of 10_state.md R51, from every state that has it; and a step leaves nothing pending that
cannot be issued, where there was nothing such before it (R42, 30_encoding.md R98). -/
def Obligations.EveryStepKeepsTheInvariant : Prop :=
  ∀ s t : State, step s = .next t → (MachineInv s → MachineInv t) ∧ (PendingOk s → PendingOk t)

/-- A step goes on, unless a request that a host may hand over next is no command: only then it refuses, with that request's
reason. It never faults: every failure is a completion (00_scope.md R9, 30_encoding.md R98, 60_exceptions.md R240,
R257). -/
def Obligations.NoStepFaults : Prop :=
  ∀ s : State, MachineInv s → SafeStep s (step s)

/-- RxFail and RxWaiting are never produced: no step latches either, and no step returns either (30_encoding.md R96,
60_exceptions.md R249). -/
def Obligations.RxFailAndRxWaitingAreNeverProduced : Prop :=
  let clean := fun s : State => ∀ q ∈ s.ports, q.resCode ≠ .rxFail ∧ q.resCode ≠ .rxWaiting ∧
    ∀ c ∈ q.completions, c.code ≠ some .rxFail ∧ c.code ≠ some .rxWaiting
  ∀ s t : State, clean s → step s = .next t → clean t

/-- Only a move of the Clock changes time. The Clock's move always advances time and changes nothing else of the block; of
the environment it changes only what it draws from. In every infinite run through states that meet the invariant, time
grows without bound (10_state.md R36, 40_transport.md R135, 70_reset_and_hazards.md R284). The lists of future inputs,
which an infinite run uses up, and the form of the Clock's free draws are the model's own (log 17, log 27). -/
def Obligations.OnlyTheClockAdvancesTime : Prop :=
  (∀ s t : State, step s = .next t → t.now = s.now ∨
    s.now < t.now ∧ Move.clock ∈ moves s ∧
      ∃ sched draws, t = clockMove { s with env := { s.env with sched := sched, draws := draws } }) ∧
  (∀ s : State, s.now < (clockMove s).now ∧
    clockMove s = { s with
      now := (clockMove s).now
      env := { s.env with clockIn := (clockMove s).env.clockIn, draws := (clockMove s).env.draws } }) ∧
  ∀ s : State, (∀ k, ∃ t, Host.Core.run Sys2Proof.core k s = .next t ∧ MachineInv t) →
    ∀ bound : Millis, ∃ k t, Host.Core.run Sys2Proof.core k s = .next t ∧ bound < t.now

/-- The bytes on the line grow only by TX_DONE, the Engine's step of an exchange in `Sending`, which holds `BUSY`: that
step appends the prefix of the one frame in progress that the write took, and leaves `Sending`. Else they stay, or a reset
restarts them (20_memory.md R71, 10_state.md R37, 40_transport.md R129). -/
def Obligations.OnlyTxDoneEmitsBytes : Prop :=
  ∀ s t : State, MachineInv s → step s = .next t →
    t.lineOut = s.lineOut ∨
      (s.busy = true ∧ s.xstate = .sending ∧ Move.exchange ∈ moves s ∧ ∃ sched draws,
        let sender : State := { s with env := { s.env with sched := sched, draws := draws } }
        t = exchangeStep sender ∧ t.xstate ≠ .sending ∧
          t.lineOut = s.lineOut ++ s.txBuf.take (writeTx sender).1) ∨
      (t.lineOut = [] ∧ Move.reset ∈ moves s ∧ t.env.resets + 1 = s.env.resets)

/-- While an exchange holds the port, no command of another port disturbs it: exclusivity of the busy flag
(40_transport.md R123, 60_exceptions.md R243). And a command that another port has pending then does not wait for the
exchange's end: a step runs that command, or leaves it pending and the exchange in progress, or is a reset. So a SEND pending
beside an exchange never acquires the port (60_exceptions.md R255, 42_request_response.md R172, 70_reset_and_hazards.md R274;
that the Engine begins it before the exchange steps is the model's reading, log 29). -/
def Obligations.CommandsDoNotDisturbTheOwner : Prop :=
  (∀ (s t : State) (o p : Nat) (q : Port) (c : Command), MachineInv s → s.busy = true → s.xowner = some o → p ≠ o →
    s.ports[p]? = some q → q.pending = some c → step s = .next t →
      (t.busy = true ∧ t.xowner = some o ∧ t.xstate = s.xstate ∧ t.ports[p]? = some q) ∨
      (t.busy = true ∧ t.xowner = some o ∧ t.xstate = s.xstate ∧ ∃ sched draws,
        runCommand c { s with port := p, env := { s.env with sched := sched, draws := draws } } = .next t) ∨
      (Move.reset ∈ moves s ∧ t.env.resets + 1 = s.env.resets)) ∧
  ∀ (i : Instr) (s t : State) (o : Nat), s.busy = true → s.xowner = some o → s.port ≠ o → exec i s = .next t →
    t.busy = true ∧ t.xowner = s.xowner ∧ t.xstate = s.xstate ∧ t.xkind = s.xkind ∧ t.reqId = s.reqId ∧
      t.reqExpect = s.reqExpect ∧ t.txBuf = s.txBuf ∧ t.rxFifo = s.rxFifo ∧ t.rxBuf = s.rxBuf ∧ t.want = s.want ∧
      t.tStart = s.tStart ∧ t.tDur = s.tDur ∧ t.lineOut = s.lineOut ∧ t.lineOpen = s.lineOpen ∧ t.baud = s.baud ∧
      t.msPerByte = s.msPerByte ∧ t.ports[o]? = s.ports[o]?

/-- A command reads and writes the registers of its own port only: two states that agree on the shared state and on that
port are taken to states that agree again, and every other port keeps its own (60_exceptions.md R260). -/
def Obligations.PortsKeepTheirOwnRegisters : Prop :=
  ∀ (i : Instr) (s t : State) (ports' : List Port), exec i s = .next t → ports'.length = s.ports.length →
    ports'[s.port]? = s.ports[s.port]? →
    (∀ p, p ≠ s.port → t.ports[p]? = s.ports[p]?) ∧
    ∃ u, exec i { s with ports := ports' } = .next u ∧ u.ports[s.port]? = t.ports[s.port]? ∧
      { u with ports := t.ports } = t

/-- The flags have no other writers: a command sets `OPEN` only as OPEN and clears it only as CLOSE, sets `BUSY` only as a
SEND, GWB_SEND or wire instruction and never clears it, and sets `GWB_VALID[p]` only as GWB_INIT and never clears it
(10_state.md R45). -/
def Obligations.FlagsHaveNoOtherWriters : Prop :=
  ∀ (i : Instr) (s t : State), exec i s = .next t →
    (t.lineOpen ≠ s.lineOpen → (t.lineOpen = true ∧ ∃ b, i = .openLine b) ∨ (t.lineOpen = false ∧ i = .closeLine)) ∧
    (t.busy ≠ s.busy → t.busy = true ∧
      ((∃ a b c, i = .sendUnicast a b c) ∨ (∃ a b, i = .sendBroadcast a b) ∨ i = .gwbSend ∨ (∃ a b, i = .ping a b) ∨
        (∃ a b, i = .read a b) ∨ (∃ a b, i = .write a b) ∨ ∃ a b, i = .syncWrite a b)) ∧
    (∀ p q q', s.ports[p]? = some q → t.ports[p]? = some q' → q'.gwbValid ≠ q.gwbValid →
      q'.gwbValid = true ∧ p = s.port ∧ ∃ a b, i = .gwbInit a b)

/-! Host-side encodings. -/

/-- `Pack16` splits a word by `P_END`, and `Unpack16` joins what it split (20_memory.md R62). -/
def Obligations.PackAndUnpackAgree : Prop :=
  ∀ v : BitVec 16,
    (pack16 .little v).map BitVec.toNat = [v.toNat % 256, v.toNat / 256] ∧
    (pack16 .big v).map BitVec.toNat = [v.toNat / 256, v.toNat % 256] ∧
    ∀ (e : Endian) (b0 b1 : Byte), pack16 e v = [b0, b1] → unpack16 e b0 b1 = v

/-- The sign-magnitude encodings of speed and position correction decode to what was encoded, over their whole ranges,
with the sign in bit 15 and bit 11 (44_device_api.md R211, R212). -/
def Obligations.SignMagnitudeRoundTrips : Prop :=
  (∀ v : Int, v.natAbs ≤ 0x7FFF → ∃ w, encSpeed v = some w ∧ decSpeed w = v ∧ w.getLsbD 15 = decide (v < 0)) ∧
  (∀ v : Int, v.natAbs ≤ 2047 → ∃ w, encCorr v = some w ∧ decCorr w = v ∧ w.getLsbD 11 = decide (v < 0) ∧ w.toNat < 4096)
end

