-- ==== Sys2Proof/Laws/Codec.lean ====
section
/-!
SUPPORT. Laws of the frame codec and the buffers: sums, the checksum, frame layout, the header search.
-/

namespace Sys2Proof.Machine

/-! Buffers. -/

@[simp] theorem byteAt_nil (i : Nat) : byteAt [] i = 0 := by simp [byteAt]
@[simp] theorem byteAt_cons_zero (b : Byte) (s : List Byte) : byteAt (b :: s) 0 = b := rfl
@[simp] theorem byteAt_cons_succ (b : Byte) (s : List Byte) (i : Nat) : byteAt (b :: s) (i + 1) = byteAt s i := rfl

theorem byteAt_append_left {s t : List Byte} {i : Nat} (h : i < s.length) : byteAt (s ++ t) i = byteAt s i := by
  simp [byteAt, List.getD, List.getElem?_append_left h]

theorem byteAt_append_right {s t : List Byte} {i : Nat} (h : s.length ≤ i) :
    byteAt (s ++ t) i = byteAt t (i - s.length) := by
  simp [byteAt, List.getD, List.getElem?_append_right h]

theorem byteAt_take {s : List Byte} {i n : Nat} (h : i < n) : byteAt (s.take n) i = byteAt s i := by
  simp [byteAt, List.getD, h]

theorem byteAt_set_self {s : List Byte} {k : Nat} (b : Byte) (h : k < s.length) : byteAt (s.set k b) k = b := by
  simp [byteAt, List.getD, h]

theorem byteAt_set_ne {s : List Byte} {k i : Nat} (b : Byte) (h : k ≠ i) : byteAt (s.set k b) i = byteAt s i := by
  simp [byteAt, List.getD, h]

/-- A buffer with its byte at `k` written out. -/
theorem eq_take_byteAt_drop {s : List Byte} {k : Nat} (h : k < s.length) :
    s = s.take k ++ byteAt s k :: s.drop (k + 1) := by
  have : byteAt s k = s[k] := by simp [byteAt, List.getD, h]
  rw [this, List.cons_getElem_drop_succ, List.take_append_drop]

/-- Reading what was just written gives it back (00_scope.md R13). -/
theorem memRead_memWrite {buf v : List Byte} {i : Nat} (h : i + v.length ≤ buf.length) :
    memRead (memWrite buf i v) i v.length = v := by
  have h1 : (buf.take i).length = i := by simp; omega
  simp only [memRead, memWrite, List.append_assoc]
  rw [List.drop_append_of_le_length (by omega), List.drop_of_length_le (by omega)]
  simp

/-- A write leaves every byte outside it alone (00_scope.md R13). -/
theorem byteAt_memWrite_of_outside {buf v : List Byte} {i j : Nat} (h : i + v.length ≤ buf.length)
    (hj : j < i ∨ i + v.length ≤ j) : byteAt (memWrite buf i v) j = byteAt buf j := by
  have h1 : (buf.take i).length = i := by simp; omega
  rcases hj with hj | hj
  · rw [memWrite, List.append_assoc, byteAt_append_left (by omega), byteAt_take hj]
  · rw [memWrite, byteAt_append_right (by simp; omega)]
    simp only [byteAt, List.getD, List.getElem?_drop, List.length_append, h1]
    congr 2
    omega

/-- A write keeps the buffer's length (00_scope.md R13). -/
theorem length_memWrite {buf v : List Byte} {i : Nat} (h : i + v.length ≤ buf.length) :
    (memWrite buf i v).length = buf.length := by
  simp [memWrite]; omega

/-! Sums and the checksum. -/

@[simp] theorem byteSum_append (s t : List Byte) : byteSum (s ++ t) = byteSum s + byteSum t := by
  induction s with
  | nil => simp [byteSum]
  | cons b s ih => simp [byteSum, ih]; omega

theorem checksum_toNat (s : List Byte) : (checksum s).toNat = 0xFF - byteSum s % 256 := by
  simp only [checksum, BitVec.toNat_ofNat]
  omega

theorem checksum_eq_iff (s t : List Byte) : checksum s = checksum t ↔ byteSum s % 256 = byteSum t % 256 := by
  constructor
  · intro h
    have := congrArg BitVec.toNat h
    rw [checksum_toNat, checksum_toNat] at this
    omega
  · intro h
    simp [checksum, h]

/-! Frames. -/

theorem lenByte_toNat {n : Nat} (h : n < 256) : (lenByte n).toNat = n := by
  simp [lenByte, h]

@[simp] theorem frameOf_length (id code : Byte) (params : List Byte) :
    (frameOf id code params).length = params.length + 6 := by
  simp [frameOf, frameBody]

theorem buildFrame_eq_none_iff (cfg : Params) (id code : Byte) (params : List Byte) :
    buildFrame cfg id code params = none ↔ cfg.txMaxLen < params.length + 6 := by
  simp [buildFrame]

theorem buildFrame_eq_some_iff (cfg : Params) (id code : Byte) (params f : List Byte) :
    buildFrame cfg id code params = some f ↔ params.length + 6 ≤ cfg.txMaxLen ∧ f = frameOf id code params := by
  simp [buildFrame, eq_comm]

@[simp] theorem frameOf_byteAt_id (id code : Byte) (params : List Byte) : byteAt (frameOf id code params) 2 = id := rfl
@[simp] theorem frameOf_byteAt_len (id code : Byte) (params : List Byte) :
    byteAt (frameOf id code params) 3 = lenByte (params.length + 2) := rfl
@[simp] theorem frameOf_byteAt_code (id code : Byte) (params : List Byte) :
    byteAt (frameOf id code params) 4 = code := rfl

@[simp] theorem frameParams_frameOf (id code : Byte) (params : List Byte) :
    frameParams (frameOf id code params) = params := by
  simp [frameParams, memRead, frameOf, frameBody]

/-- The bytes a frame's checksum covers are its body (30_encoding.md R86). -/
theorem memRead_frameOf_body (id code : Byte) (params : List Byte) :
    memRead (frameOf id code params) 2 (params.length + 3) = frameBody id code params := by
  simp [memRead, frameOf, frameBody]

theorem frameOf_byteAt_checksum (id code : Byte) (params : List Byte) :
    byteAt (frameOf id code params) (params.length + 5) = checksum (frameBody id code params) := by
  have h : frameOf id code params =
      (headerByte :: headerByte :: frameBody id code params) ++ [checksum (frameBody id code params)] := rfl
  rw [h, byteAt_append_right (by simp [frameBody])]
  simp [frameBody]

/-! The header search. -/

@[simp] theorem findHeader_header (s : List Byte) : findHeader (headerByte :: headerByte :: s) = some 0 := by
  simp [findHeader]

/-- A byte that is no header byte is skipped. -/
theorem findHeader_cons_of_ne {b : Byte} (h : b ≠ headerByte) (s : List Byte) :
    findHeader (b :: s) = (findHeader s).map (· + 1) := by
  cases s with
  | nil => simp [findHeader]
  | cons c s => simp [findHeader, h]

/-- Noise without header bytes is skipped whole. -/
theorem findHeader_append_of_ne {noise : List Byte} (h : ∀ b ∈ noise, b ≠ headerByte) (s : List Byte) :
    findHeader (noise ++ s) = (findHeader s).map (· + noise.length) := by
  induction noise with
  | nil => simp
  | cons b n ih =>
    rw [List.cons_append, findHeader_cons_of_ne (h b (by simp)), ih fun c hc => h c (by simp [hc])]
    simp only [Option.map_map, List.length_cons]
    congr 1

/-- A header at offset 0 is the buffer's first two bytes. -/
theorem findHeader_eq_zero_iff (s : List Byte) : findHeader s = some 0 ↔ s.take 2 = [headerByte, headerByte] := by
  match s with
  | [] => simp [findHeader]
  | [a] => simp [findHeader]
  | a :: b :: s =>
    simp only [findHeader, List.take_succ_cons, List.take_zero, List.cons.injEq, and_true]
    split
    · simp_all
    · rename_i h
      simp [h]

/-- A header found later lies inside the buffer. -/
theorem findHeader_lt {s : List Byte} {k : Nat} (h : findHeader s = some k) : k + 2 ≤ s.length := by
  induction s generalizing k with
  | nil => simp [findHeader] at h
  | cons a s ih =>
    cases s with
    | nil => simp [findHeader] at h
    | cons b s =>
      simp only [findHeader] at h
      split at h
      · cases h; simp
      · simp only [Option.map_eq_some_iff] at h
        obtain ⟨j, hj, rfl⟩ := h
        have := ih hj
        simp only [List.length_cons] at this ⊢
        omega

end Sys2Proof.Machine
end

