-- ==== Sys2Proof/Laws/State.lean ====
section
/-!
SUPPORT. One lemma for each field of State or Port and each update: what the update leaves, and what it writes.
-/

namespace Sys2Proof.Machine

@[simp] theorem onPort_cfg (s : State) (p : Nat) (f : Port → Port) : (onPort s p f).cfg = s.cfg := rfl
@[simp] theorem onPort_lineOpen (s : State) (p : Nat) (f : Port → Port) : (onPort s p f).lineOpen = s.lineOpen := rfl
@[simp] theorem onPort_baud (s : State) (p : Nat) (f : Port → Port) : (onPort s p f).baud = s.baud := rfl
@[simp] theorem onPort_msPerByte (s : State) (p : Nat) (f : Port → Port) : (onPort s p f).msPerByte = s.msPerByte := rfl
@[simp] theorem onPort_busy (s : State) (p : Nat) (f : Port → Port) : (onPort s p f).busy = s.busy := rfl
@[simp] theorem onPort_xowner (s : State) (p : Nat) (f : Port → Port) : (onPort s p f).xowner = s.xowner := rfl
@[simp] theorem onPort_xstate (s : State) (p : Nat) (f : Port → Port) : (onPort s p f).xstate = s.xstate := rfl
@[simp] theorem onPort_xkind (s : State) (p : Nat) (f : Port → Port) : (onPort s p f).xkind = s.xkind := rfl
@[simp] theorem onPort_reqId (s : State) (p : Nat) (f : Port → Port) : (onPort s p f).reqId = s.reqId := rfl
@[simp] theorem onPort_reqExpect (s : State) (p : Nat) (f : Port → Port) : (onPort s p f).reqExpect = s.reqExpect := rfl
@[simp] theorem onPort_txBuf (s : State) (p : Nat) (f : Port → Port) : (onPort s p f).txBuf = s.txBuf := rfl
@[simp] theorem onPort_rxFifo (s : State) (p : Nat) (f : Port → Port) : (onPort s p f).rxFifo = s.rxFifo := rfl
@[simp] theorem onPort_rxBuf (s : State) (p : Nat) (f : Port → Port) : (onPort s p f).rxBuf = s.rxBuf := rfl
@[simp] theorem onPort_want (s : State) (p : Nat) (f : Port → Port) : (onPort s p f).want = s.want := rfl
@[simp] theorem onPort_tStart (s : State) (p : Nat) (f : Port → Port) : (onPort s p f).tStart = s.tStart := rfl
@[simp] theorem onPort_tDur (s : State) (p : Nat) (f : Port → Port) : (onPort s p f).tDur = s.tDur := rfl
@[simp] theorem onPort_now (s : State) (p : Nat) (f : Port → Port) : (onPort s p f).now = s.now := rfl
@[simp] theorem onPort_lineOut (s : State) (p : Nat) (f : Port → Port) : (onPort s p f).lineOut = s.lineOut := rfl
@[simp] theorem onPort_ports (s : State) (p : Nat) (f : Port → Port) : (onPort s p f).ports = s.ports.modify p f := rfl
@[simp] theorem onPort_port (s : State) (p : Nat) (f : Port → Port) : (onPort s p f).port = s.port := rfl
@[simp] theorem onPort_env (s : State) (p : Nat) (f : Port → Port) : (onPort s p f).env = s.env := rfl

@[simp] theorem release_cfg (s : State) : (release s).cfg = s.cfg := rfl
@[simp] theorem release_lineOpen (s : State) : (release s).lineOpen = s.lineOpen := rfl
@[simp] theorem release_baud (s : State) : (release s).baud = s.baud := rfl
@[simp] theorem release_msPerByte (s : State) : (release s).msPerByte = s.msPerByte := rfl
@[simp] theorem release_busy (s : State) : (release s).busy = false := rfl
@[simp] theorem release_xowner (s : State) : (release s).xowner = none := rfl
@[simp] theorem release_xstate (s : State) : (release s).xstate = .idle := rfl
@[simp] theorem release_xkind (s : State) : (release s).xkind = s.xkind := rfl
@[simp] theorem release_reqId (s : State) : (release s).reqId = s.reqId := rfl
@[simp] theorem release_reqExpect (s : State) : (release s).reqExpect = s.reqExpect := rfl
@[simp] theorem release_txBuf (s : State) : (release s).txBuf = s.txBuf := rfl
@[simp] theorem release_rxFifo (s : State) : (release s).rxFifo = s.rxFifo := rfl
@[simp] theorem release_rxBuf (s : State) : (release s).rxBuf = s.rxBuf := rfl
@[simp] theorem release_want (s : State) : (release s).want = s.want := rfl
@[simp] theorem release_tStart (s : State) : (release s).tStart = s.tStart := rfl
@[simp] theorem release_tDur (s : State) : (release s).tDur = s.tDur := rfl
@[simp] theorem release_now (s : State) : (release s).now = s.now := rfl
@[simp] theorem release_lineOut (s : State) : (release s).lineOut = s.lineOut := rfl
@[simp] theorem release_ports (s : State) : (release s).ports = s.ports := rfl
@[simp] theorem release_port (s : State) : (release s).port = s.port := rfl
@[simp] theorem release_env (s : State) : (release s).env = s.env := rfl

@[simp] theorem fifoFlush_cfg (s : State) : (fifoFlush s).cfg = s.cfg := rfl
@[simp] theorem fifoFlush_lineOpen (s : State) : (fifoFlush s).lineOpen = s.lineOpen := rfl
@[simp] theorem fifoFlush_baud (s : State) : (fifoFlush s).baud = s.baud := rfl
@[simp] theorem fifoFlush_msPerByte (s : State) : (fifoFlush s).msPerByte = s.msPerByte := rfl
@[simp] theorem fifoFlush_busy (s : State) : (fifoFlush s).busy = s.busy := rfl
@[simp] theorem fifoFlush_xowner (s : State) : (fifoFlush s).xowner = s.xowner := rfl
@[simp] theorem fifoFlush_xstate (s : State) : (fifoFlush s).xstate = s.xstate := rfl
@[simp] theorem fifoFlush_xkind (s : State) : (fifoFlush s).xkind = s.xkind := rfl
@[simp] theorem fifoFlush_reqId (s : State) : (fifoFlush s).reqId = s.reqId := rfl
@[simp] theorem fifoFlush_reqExpect (s : State) : (fifoFlush s).reqExpect = s.reqExpect := rfl
@[simp] theorem fifoFlush_txBuf (s : State) : (fifoFlush s).txBuf = s.txBuf := rfl
@[simp] theorem fifoFlush_rxFifo (s : State) : (fifoFlush s).rxFifo = [] := rfl
@[simp] theorem fifoFlush_rxBuf (s : State) : (fifoFlush s).rxBuf = s.rxBuf := rfl
@[simp] theorem fifoFlush_want (s : State) : (fifoFlush s).want = s.want := rfl
@[simp] theorem fifoFlush_tStart (s : State) : (fifoFlush s).tStart = s.tStart := rfl
@[simp] theorem fifoFlush_tDur (s : State) : (fifoFlush s).tDur = s.tDur := rfl
@[simp] theorem fifoFlush_now (s : State) : (fifoFlush s).now = s.now := rfl
@[simp] theorem fifoFlush_lineOut (s : State) : (fifoFlush s).lineOut = s.lineOut := rfl
@[simp] theorem fifoFlush_ports (s : State) : (fifoFlush s).ports = s.ports := rfl
@[simp] theorem fifoFlush_port (s : State) : (fifoFlush s).port = s.port := rfl
@[simp] theorem fifoFlush_env (s : State) : (fifoFlush s).env = s.env := rfl

@[simp] theorem lineEmit_cfg (s : State) (b : List Byte) : (lineEmit s b).cfg = s.cfg := rfl
@[simp] theorem lineEmit_lineOpen (s : State) (b : List Byte) : (lineEmit s b).lineOpen = s.lineOpen := rfl
@[simp] theorem lineEmit_baud (s : State) (b : List Byte) : (lineEmit s b).baud = s.baud := rfl
@[simp] theorem lineEmit_msPerByte (s : State) (b : List Byte) : (lineEmit s b).msPerByte = s.msPerByte := rfl
@[simp] theorem lineEmit_busy (s : State) (b : List Byte) : (lineEmit s b).busy = s.busy := rfl
@[simp] theorem lineEmit_xowner (s : State) (b : List Byte) : (lineEmit s b).xowner = s.xowner := rfl
@[simp] theorem lineEmit_xstate (s : State) (b : List Byte) : (lineEmit s b).xstate = s.xstate := rfl
@[simp] theorem lineEmit_xkind (s : State) (b : List Byte) : (lineEmit s b).xkind = s.xkind := rfl
@[simp] theorem lineEmit_reqId (s : State) (b : List Byte) : (lineEmit s b).reqId = s.reqId := rfl
@[simp] theorem lineEmit_reqExpect (s : State) (b : List Byte) : (lineEmit s b).reqExpect = s.reqExpect := rfl
@[simp] theorem lineEmit_txBuf (s : State) (b : List Byte) : (lineEmit s b).txBuf = s.txBuf := rfl
@[simp] theorem lineEmit_rxFifo (s : State) (b : List Byte) : (lineEmit s b).rxFifo = s.rxFifo := rfl
@[simp] theorem lineEmit_rxBuf (s : State) (b : List Byte) : (lineEmit s b).rxBuf = s.rxBuf := rfl
@[simp] theorem lineEmit_want (s : State) (b : List Byte) : (lineEmit s b).want = s.want := rfl
@[simp] theorem lineEmit_tStart (s : State) (b : List Byte) : (lineEmit s b).tStart = s.tStart := rfl
@[simp] theorem lineEmit_tDur (s : State) (b : List Byte) : (lineEmit s b).tDur = s.tDur := rfl
@[simp] theorem lineEmit_now (s : State) (b : List Byte) : (lineEmit s b).now = s.now := rfl
@[simp] theorem lineEmit_lineOut (s : State) (b : List Byte) : (lineEmit s b).lineOut = s.lineOut ++ b := rfl
@[simp] theorem lineEmit_ports (s : State) (b : List Byte) : (lineEmit s b).ports = s.ports := rfl
@[simp] theorem lineEmit_port (s : State) (b : List Byte) : (lineEmit s b).port = s.port := rfl
@[simp] theorem lineEmit_env (s : State) (b : List Byte) : (lineEmit s b).env = s.env := rfl

@[simp] theorem startTimer_cfg (s : State) (n : Nat) : (startTimer s n).cfg = s.cfg := rfl
@[simp] theorem startTimer_lineOpen (s : State) (n : Nat) : (startTimer s n).lineOpen = s.lineOpen := rfl
@[simp] theorem startTimer_baud (s : State) (n : Nat) : (startTimer s n).baud = s.baud := rfl
@[simp] theorem startTimer_msPerByte (s : State) (n : Nat) : (startTimer s n).msPerByte = s.msPerByte := rfl
@[simp] theorem startTimer_busy (s : State) (n : Nat) : (startTimer s n).busy = s.busy := rfl
@[simp] theorem startTimer_xowner (s : State) (n : Nat) : (startTimer s n).xowner = s.xowner := rfl
@[simp] theorem startTimer_xstate (s : State) (n : Nat) : (startTimer s n).xstate = s.xstate := rfl
@[simp] theorem startTimer_xkind (s : State) (n : Nat) : (startTimer s n).xkind = s.xkind := rfl
@[simp] theorem startTimer_reqId (s : State) (n : Nat) : (startTimer s n).reqId = s.reqId := rfl
@[simp] theorem startTimer_reqExpect (s : State) (n : Nat) : (startTimer s n).reqExpect = n := rfl
@[simp] theorem startTimer_txBuf (s : State) (n : Nat) : (startTimer s n).txBuf = s.txBuf := rfl
@[simp] theorem startTimer_rxFifo (s : State) (n : Nat) : (startTimer s n).rxFifo = s.rxFifo := rfl
@[simp] theorem startTimer_rxBuf (s : State) (n : Nat) : (startTimer s n).rxBuf = s.rxBuf := rfl
@[simp] theorem startTimer_want (s : State) (n : Nat) : (startTimer s n).want = s.want := rfl
@[simp] theorem startTimer_tStart (s : State) (n : Nat) : (startTimer s n).tStart = s.now := rfl
@[simp] theorem startTimer_tDur (s : State) (n : Nat) : (startTimer s n).tDur = timeoutMs s n := rfl
@[simp] theorem startTimer_now (s : State) (n : Nat) : (startTimer s n).now = s.now := rfl
@[simp] theorem startTimer_lineOut (s : State) (n : Nat) : (startTimer s n).lineOut = s.lineOut := rfl
@[simp] theorem startTimer_ports (s : State) (n : Nat) : (startTimer s n).ports = s.ports := rfl
@[simp] theorem startTimer_port (s : State) (n : Nat) : (startTimer s n).port = s.port := rfl
@[simp] theorem startTimer_env (s : State) (n : Nat) : (startTimer s n).env = s.env := rfl

@[simp] theorem parseStart_cfg (s : State) : (parseStart s).cfg = s.cfg := rfl
@[simp] theorem parseStart_lineOpen (s : State) : (parseStart s).lineOpen = s.lineOpen := rfl
@[simp] theorem parseStart_baud (s : State) : (parseStart s).baud = s.baud := rfl
@[simp] theorem parseStart_msPerByte (s : State) : (parseStart s).msPerByte = s.msPerByte := rfl
@[simp] theorem parseStart_busy (s : State) : (parseStart s).busy = s.busy := rfl
@[simp] theorem parseStart_xowner (s : State) : (parseStart s).xowner = s.xowner := rfl
@[simp] theorem parseStart_xstate (s : State) : (parseStart s).xstate = .awaitingResponse := rfl
@[simp] theorem parseStart_xkind (s : State) : (parseStart s).xkind = s.xkind := rfl
@[simp] theorem parseStart_reqId (s : State) : (parseStart s).reqId = s.reqId := rfl
@[simp] theorem parseStart_reqExpect (s : State) : (parseStart s).reqExpect = s.reqExpect := rfl
@[simp] theorem parseStart_txBuf (s : State) : (parseStart s).txBuf = s.txBuf := rfl
@[simp] theorem parseStart_rxFifo (s : State) : (parseStart s).rxFifo = s.rxFifo := rfl
@[simp] theorem parseStart_rxBuf (s : State) : (parseStart s).rxBuf = [] := rfl
@[simp] theorem parseStart_want (s : State) : (parseStart s).want = s.cfg.minFrame := rfl
@[simp] theorem parseStart_tStart (s : State) : (parseStart s).tStart = s.tStart := rfl
@[simp] theorem parseStart_tDur (s : State) : (parseStart s).tDur = s.tDur := rfl
@[simp] theorem parseStart_now (s : State) : (parseStart s).now = s.now := rfl
@[simp] theorem parseStart_lineOut (s : State) : (parseStart s).lineOut = s.lineOut := rfl
@[simp] theorem parseStart_ports (s : State) : (parseStart s).ports = s.ports := rfl
@[simp] theorem parseStart_port (s : State) : (parseStart s).port = s.port := rfl
@[simp] theorem parseStart_env (s : State) : (parseStart s).env = s.env := rfl

@[simp] theorem headerLater_cfg (s : State) (i : Nat) : (headerLater s i).cfg = s.cfg := rfl
@[simp] theorem headerLater_lineOpen (s : State) (i : Nat) : (headerLater s i).lineOpen = s.lineOpen := rfl
@[simp] theorem headerLater_baud (s : State) (i : Nat) : (headerLater s i).baud = s.baud := rfl
@[simp] theorem headerLater_msPerByte (s : State) (i : Nat) : (headerLater s i).msPerByte = s.msPerByte := rfl
@[simp] theorem headerLater_busy (s : State) (i : Nat) : (headerLater s i).busy = s.busy := rfl
@[simp] theorem headerLater_xowner (s : State) (i : Nat) : (headerLater s i).xowner = s.xowner := rfl
@[simp] theorem headerLater_xstate (s : State) (i : Nat) : (headerLater s i).xstate = s.xstate := rfl
@[simp] theorem headerLater_xkind (s : State) (i : Nat) : (headerLater s i).xkind = s.xkind := rfl
@[simp] theorem headerLater_reqId (s : State) (i : Nat) : (headerLater s i).reqId = s.reqId := rfl
@[simp] theorem headerLater_reqExpect (s : State) (i : Nat) : (headerLater s i).reqExpect = s.reqExpect := rfl
@[simp] theorem headerLater_txBuf (s : State) (i : Nat) : (headerLater s i).txBuf = s.txBuf := rfl
@[simp] theorem headerLater_rxFifo (s : State) (i : Nat) : (headerLater s i).rxFifo = s.rxFifo := rfl
@[simp] theorem headerLater_rxBuf (s : State) (i : Nat) : (headerLater s i).rxBuf = s.rxBuf.drop i := rfl
@[simp] theorem headerLater_want (s : State) (i : Nat) : (headerLater s i).want = s.want := rfl
@[simp] theorem headerLater_tStart (s : State) (i : Nat) : (headerLater s i).tStart = s.tStart := rfl
@[simp] theorem headerLater_tDur (s : State) (i : Nat) : (headerLater s i).tDur = s.tDur := rfl
@[simp] theorem headerLater_now (s : State) (i : Nat) : (headerLater s i).now = s.now := rfl
@[simp] theorem headerLater_lineOut (s : State) (i : Nat) : (headerLater s i).lineOut = s.lineOut := rfl
@[simp] theorem headerLater_ports (s : State) (i : Nat) : (headerLater s i).ports = s.ports := rfl
@[simp] theorem headerLater_port (s : State) (i : Nat) : (headerLater s i).port = s.port := rfl
@[simp] theorem headerLater_env (s : State) (i : Nat) : (headerLater s i).env = s.env := rfl

@[simp] theorem openAccepted_cfg (s : State) (p : Nat) (b : BitVec 32) : (openAccepted s p b).cfg = s.cfg := rfl
@[simp] theorem openAccepted_lineOpen (s : State) (p : Nat) (b : BitVec 32) : (openAccepted s p b).lineOpen = true := rfl
@[simp] theorem openAccepted_baud (s : State) (p : Nat) (b : BitVec 32) : (openAccepted s p b).baud = b := rfl
@[simp] theorem openAccepted_msPerByte (s : State) (p : Nat) (b : BitVec 32) : (openAccepted s p b).msPerByte = lineTime s.cfg b := rfl
@[simp] theorem openAccepted_busy (s : State) (p : Nat) (b : BitVec 32) : (openAccepted s p b).busy = s.busy := rfl
@[simp] theorem openAccepted_xowner (s : State) (p : Nat) (b : BitVec 32) : (openAccepted s p b).xowner = s.xowner := rfl
@[simp] theorem openAccepted_xstate (s : State) (p : Nat) (b : BitVec 32) : (openAccepted s p b).xstate = s.xstate := rfl
@[simp] theorem openAccepted_xkind (s : State) (p : Nat) (b : BitVec 32) : (openAccepted s p b).xkind = s.xkind := rfl
@[simp] theorem openAccepted_reqId (s : State) (p : Nat) (b : BitVec 32) : (openAccepted s p b).reqId = s.reqId := rfl
@[simp] theorem openAccepted_reqExpect (s : State) (p : Nat) (b : BitVec 32) : (openAccepted s p b).reqExpect = s.reqExpect := rfl
@[simp] theorem openAccepted_txBuf (s : State) (p : Nat) (b : BitVec 32) : (openAccepted s p b).txBuf = s.txBuf := rfl
@[simp] theorem openAccepted_rxFifo (s : State) (p : Nat) (b : BitVec 32) : (openAccepted s p b).rxFifo = [] := rfl
@[simp] theorem openAccepted_rxBuf (s : State) (p : Nat) (b : BitVec 32) : (openAccepted s p b).rxBuf = s.rxBuf := rfl
@[simp] theorem openAccepted_want (s : State) (p : Nat) (b : BitVec 32) : (openAccepted s p b).want = s.want := rfl
@[simp] theorem openAccepted_tStart (s : State) (p : Nat) (b : BitVec 32) : (openAccepted s p b).tStart = s.tStart := rfl
@[simp] theorem openAccepted_tDur (s : State) (p : Nat) (b : BitVec 32) : (openAccepted s p b).tDur = s.tDur := rfl
@[simp] theorem openAccepted_now (s : State) (p : Nat) (b : BitVec 32) : (openAccepted s p b).now = s.now := rfl
@[simp] theorem openAccepted_lineOut (s : State) (p : Nat) (b : BitVec 32) : (openAccepted s p b).lineOut = s.lineOut := rfl
@[simp] theorem openAccepted_ports (s : State) (p : Nat) (b : BitVec 32) : (openAccepted s p b).ports = s.ports.modify p fun q => q.completeBool true := rfl
@[simp] theorem openAccepted_port (s : State) (p : Nat) (b : BitVec 32) : (openAccepted s p b).port = s.port := rfl
@[simp] theorem openAccepted_env (s : State) (p : Nat) (b : BitVec 32) : (openAccepted s p b).env =
    { s.env with lastRx := if s.lineOpen then s.env.lastRx else none } := rfl

@[simp] theorem resetBlock_cfg (s : State) : (resetBlock s).cfg = s.cfg := rfl
@[simp] theorem resetBlock_lineOpen (s : State) : (resetBlock s).lineOpen = false := rfl
@[simp] theorem resetBlock_baud (s : State) : (resetBlock s).baud = 0 := rfl
@[simp] theorem resetBlock_msPerByte (s : State) : (resetBlock s).msPerByte = 0 := rfl
@[simp] theorem resetBlock_busy (s : State) : (resetBlock s).busy = false := rfl
@[simp] theorem resetBlock_xowner (s : State) : (resetBlock s).xowner = none := rfl
@[simp] theorem resetBlock_xstate (s : State) : (resetBlock s).xstate = .idle := rfl
@[simp] theorem resetBlock_xkind (s : State) : (resetBlock s).xkind = .unicast := rfl
@[simp] theorem resetBlock_reqId (s : State) : (resetBlock s).reqId = 0 := rfl
@[simp] theorem resetBlock_reqExpect (s : State) : (resetBlock s).reqExpect = 0 := rfl
@[simp] theorem resetBlock_txBuf (s : State) : (resetBlock s).txBuf = [] := rfl
@[simp] theorem resetBlock_rxFifo (s : State) : (resetBlock s).rxFifo = [] := rfl
@[simp] theorem resetBlock_rxBuf (s : State) : (resetBlock s).rxBuf = [] := rfl
@[simp] theorem resetBlock_want (s : State) : (resetBlock s).want = s.cfg.minFrame := rfl
@[simp] theorem resetBlock_tStart (s : State) : (resetBlock s).tStart = 0 := rfl
@[simp] theorem resetBlock_tDur (s : State) : (resetBlock s).tDur = 0 := rfl
@[simp] theorem resetBlock_now (s : State) : (resetBlock s).now = s.now := rfl
@[simp] theorem resetBlock_lineOut (s : State) : (resetBlock s).lineOut = [] := rfl
@[simp] theorem resetBlock_ports (s : State) : (resetBlock s).ports = List.replicate s.cfg.hostPorts Port.reset := rfl
@[simp] theorem resetBlock_port (s : State) : (resetBlock s).port = 0 := rfl
@[simp] theorem resetBlock_env (s : State) : (resetBlock s).env = { s.env with lastRx := none } := rfl

@[simp] theorem Port.complete_pending (q : Port) (r : Completion) : (Port.complete q r).pending = none := rfl
@[simp] theorem Port.complete_resCode (q : Port) (r : Completion) : (Port.complete q r).resCode = q.resCode := rfl
@[simp] theorem Port.complete_resBool (q : Port) (r : Completion) : (Port.complete q r).resBool = q.resBool := rfl
@[simp] theorem Port.complete_resErr (q : Port) (r : Completion) : (Port.complete q r).resErr = q.resErr := rfl
@[simp] theorem Port.complete_resData (q : Port) (r : Completion) : (Port.complete q r).resData = q.resData := rfl
@[simp] theorem Port.complete_gwbValid (q : Port) (r : Completion) : (Port.complete q r).gwbValid = q.gwbValid := rfl
@[simp] theorem Port.complete_gwbAddr (q : Port) (r : Completion) : (Port.complete q r).gwbAddr = q.gwbAddr := rfl
@[simp] theorem Port.complete_gwbWidth (q : Port) (r : Completion) : (Port.complete q r).gwbWidth = q.gwbWidth := rfl
@[simp] theorem Port.complete_gwbEntries (q : Port) (r : Completion) : (Port.complete q r).gwbEntries = q.gwbEntries := rfl
@[simp] theorem Port.complete_completions (q : Port) (r : Completion) : (Port.complete q r).completions = q.completions ++ [r] := rfl

@[simp] theorem Port.completeBool_pending (q : Port) (b : Bool) : (Port.completeBool q b).pending = none := rfl
@[simp] theorem Port.completeBool_resCode (q : Port) (b : Bool) : (Port.completeBool q b).resCode = q.resCode := rfl
@[simp] theorem Port.completeBool_resBool (q : Port) (b : Bool) : (Port.completeBool q b).resBool = b := rfl
@[simp] theorem Port.completeBool_resErr (q : Port) (b : Bool) : (Port.completeBool q b).resErr = q.resErr := rfl
@[simp] theorem Port.completeBool_resData (q : Port) (b : Bool) : (Port.completeBool q b).resData = q.resData := rfl
@[simp] theorem Port.completeBool_gwbValid (q : Port) (b : Bool) : (Port.completeBool q b).gwbValid = q.gwbValid := rfl
@[simp] theorem Port.completeBool_gwbAddr (q : Port) (b : Bool) : (Port.completeBool q b).gwbAddr = q.gwbAddr := rfl
@[simp] theorem Port.completeBool_gwbWidth (q : Port) (b : Bool) : (Port.completeBool q b).gwbWidth = q.gwbWidth := rfl
@[simp] theorem Port.completeBool_gwbEntries (q : Port) (b : Bool) : (Port.completeBool q b).gwbEntries = q.gwbEntries := rfl
@[simp] theorem Port.completeBool_completions (q : Port) (b : Bool) : (Port.completeBool q b).completions = q.completions ++ [{ bool := some b }] := rfl

@[simp] theorem Port.completeCode_pending (q : Port) (c : CommResult) : (Port.completeCode q c).pending = none := rfl
@[simp] theorem Port.completeCode_resCode (q : Port) (c : CommResult) : (Port.completeCode q c).resCode = c := rfl
@[simp] theorem Port.completeCode_resBool (q : Port) (c : CommResult) : (Port.completeCode q c).resBool = q.resBool := rfl
@[simp] theorem Port.completeCode_resErr (q : Port) (c : CommResult) : (Port.completeCode q c).resErr = q.resErr := rfl
@[simp] theorem Port.completeCode_resData (q : Port) (c : CommResult) : (Port.completeCode q c).resData = q.resData := rfl
@[simp] theorem Port.completeCode_gwbValid (q : Port) (c : CommResult) : (Port.completeCode q c).gwbValid = q.gwbValid := rfl
@[simp] theorem Port.completeCode_gwbAddr (q : Port) (c : CommResult) : (Port.completeCode q c).gwbAddr = q.gwbAddr := rfl
@[simp] theorem Port.completeCode_gwbWidth (q : Port) (c : CommResult) : (Port.completeCode q c).gwbWidth = q.gwbWidth := rfl
@[simp] theorem Port.completeCode_gwbEntries (q : Port) (c : CommResult) : (Port.completeCode q c).gwbEntries = q.gwbEntries := rfl
@[simp] theorem Port.completeCode_completions (q : Port) (c : CommResult) : (Port.completeCode q c).completions = q.completions ++ [{ code := some c }] := rfl

@[simp] theorem Port.completeUnicast_pending (q : Port) (c : CommResult) (e : Byte) (d : List Byte) : (Port.completeUnicast q c e d).pending = none := rfl
@[simp] theorem Port.completeUnicast_resCode (q : Port) (c : CommResult) (e : Byte) (d : List Byte) : (Port.completeUnicast q c e d).resCode = c := rfl
@[simp] theorem Port.completeUnicast_resBool (q : Port) (c : CommResult) (e : Byte) (d : List Byte) : (Port.completeUnicast q c e d).resBool = q.resBool := rfl
@[simp] theorem Port.completeUnicast_resErr (q : Port) (c : CommResult) (e : Byte) (d : List Byte) : (Port.completeUnicast q c e d).resErr = e := rfl
@[simp] theorem Port.completeUnicast_resData (q : Port) (c : CommResult) (e : Byte) (d : List Byte) : (Port.completeUnicast q c e d).resData = d := rfl
@[simp] theorem Port.completeUnicast_gwbValid (q : Port) (c : CommResult) (e : Byte) (d : List Byte) : (Port.completeUnicast q c e d).gwbValid = q.gwbValid := rfl
@[simp] theorem Port.completeUnicast_gwbAddr (q : Port) (c : CommResult) (e : Byte) (d : List Byte) : (Port.completeUnicast q c e d).gwbAddr = q.gwbAddr := rfl
@[simp] theorem Port.completeUnicast_gwbWidth (q : Port) (c : CommResult) (e : Byte) (d : List Byte) : (Port.completeUnicast q c e d).gwbWidth = q.gwbWidth := rfl
@[simp] theorem Port.completeUnicast_gwbEntries (q : Port) (c : CommResult) (e : Byte) (d : List Byte) : (Port.completeUnicast q c e d).gwbEntries = q.gwbEntries := rfl
@[simp] theorem Port.completeUnicast_completions (q : Port) (c : CommResult) (e : Byte) (d : List Byte) : (Port.completeUnicast q c e d).completions = q.completions ++ [{ code := some c, err := some e, data := some d }] := rfl

@[simp] theorem Port.gwbInit_pending (q : Port) (a w : Byte) : (Port.gwbInit q a w).pending = none := rfl
@[simp] theorem Port.gwbInit_resCode (q : Port) (a w : Byte) : (Port.gwbInit q a w).resCode = q.resCode := rfl
@[simp] theorem Port.gwbInit_resBool (q : Port) (a w : Byte) : (Port.gwbInit q a w).resBool = q.resBool := rfl
@[simp] theorem Port.gwbInit_resErr (q : Port) (a w : Byte) : (Port.gwbInit q a w).resErr = q.resErr := rfl
@[simp] theorem Port.gwbInit_resData (q : Port) (a w : Byte) : (Port.gwbInit q a w).resData = q.resData := rfl
@[simp] theorem Port.gwbInit_gwbValid (q : Port) (a w : Byte) : (Port.gwbInit q a w).gwbValid = true := rfl
@[simp] theorem Port.gwbInit_gwbAddr (q : Port) (a w : Byte) : (Port.gwbInit q a w).gwbAddr = a := rfl
@[simp] theorem Port.gwbInit_gwbWidth (q : Port) (a w : Byte) : (Port.gwbInit q a w).gwbWidth = w := rfl
@[simp] theorem Port.gwbInit_gwbEntries (q : Port) (a w : Byte) : (Port.gwbInit q a w).gwbEntries = [] := rfl
@[simp] theorem Port.gwbInit_completions (q : Port) (a w : Byte) : (Port.gwbInit q a w).completions = q.completions ++ [({} : Completion)] := rfl

@[simp] theorem Port.gwbPayload_pending (q : Port) : (Port.gwbPayload q).pending = none := rfl
@[simp] theorem Port.gwbPayload_resCode (q : Port) : (Port.gwbPayload q).resCode = q.resCode := rfl
@[simp] theorem Port.gwbPayload_resBool (q : Port) : (Port.gwbPayload q).resBool = q.resBool := rfl
@[simp] theorem Port.gwbPayload_resErr (q : Port) : (Port.gwbPayload q).resErr = q.resErr := rfl
@[simp] theorem Port.gwbPayload_resData (q : Port) : (Port.gwbPayload q).resData = q.payload := rfl
@[simp] theorem Port.gwbPayload_gwbValid (q : Port) : (Port.gwbPayload q).gwbValid = q.gwbValid := rfl
@[simp] theorem Port.gwbPayload_gwbAddr (q : Port) : (Port.gwbPayload q).gwbAddr = q.gwbAddr := rfl
@[simp] theorem Port.gwbPayload_gwbWidth (q : Port) : (Port.gwbPayload q).gwbWidth = q.gwbWidth := rfl
@[simp] theorem Port.gwbPayload_gwbEntries (q : Port) : (Port.gwbPayload q).gwbEntries = q.gwbEntries := rfl
@[simp] theorem Port.gwbPayload_completions (q : Port) : (Port.gwbPayload q).completions = q.completions ++ [{ data := some q.payload }] := rfl

/-! The draws write only the environment. -/

@[simp] theorem drawOpen_cfg (s : State) : (drawOpen s).2.cfg = s.cfg := by
  unfold drawOpen; split <;> rfl
@[simp] theorem drawWrite_cfg (s : State) (L : Nat) : (drawWrite s L).2.cfg = s.cfg := by
  unfold drawWrite; split <;> rfl
@[simp] theorem drawOpen_lineOpen (s : State) : (drawOpen s).2.lineOpen = s.lineOpen := by
  unfold drawOpen; split <;> rfl
@[simp] theorem drawWrite_lineOpen (s : State) (L : Nat) : (drawWrite s L).2.lineOpen = s.lineOpen := by
  unfold drawWrite; split <;> rfl
@[simp] theorem drawOpen_baud (s : State) : (drawOpen s).2.baud = s.baud := by
  unfold drawOpen; split <;> rfl
@[simp] theorem drawWrite_baud (s : State) (L : Nat) : (drawWrite s L).2.baud = s.baud := by
  unfold drawWrite; split <;> rfl
@[simp] theorem drawOpen_msPerByte (s : State) : (drawOpen s).2.msPerByte = s.msPerByte := by
  unfold drawOpen; split <;> rfl
@[simp] theorem drawWrite_msPerByte (s : State) (L : Nat) : (drawWrite s L).2.msPerByte = s.msPerByte := by
  unfold drawWrite; split <;> rfl
@[simp] theorem drawOpen_busy (s : State) : (drawOpen s).2.busy = s.busy := by
  unfold drawOpen; split <;> rfl
@[simp] theorem drawWrite_busy (s : State) (L : Nat) : (drawWrite s L).2.busy = s.busy := by
  unfold drawWrite; split <;> rfl
@[simp] theorem drawOpen_xowner (s : State) : (drawOpen s).2.xowner = s.xowner := by
  unfold drawOpen; split <;> rfl
@[simp] theorem drawWrite_xowner (s : State) (L : Nat) : (drawWrite s L).2.xowner = s.xowner := by
  unfold drawWrite; split <;> rfl
@[simp] theorem drawOpen_xstate (s : State) : (drawOpen s).2.xstate = s.xstate := by
  unfold drawOpen; split <;> rfl
@[simp] theorem drawWrite_xstate (s : State) (L : Nat) : (drawWrite s L).2.xstate = s.xstate := by
  unfold drawWrite; split <;> rfl
@[simp] theorem drawOpen_xkind (s : State) : (drawOpen s).2.xkind = s.xkind := by
  unfold drawOpen; split <;> rfl
@[simp] theorem drawWrite_xkind (s : State) (L : Nat) : (drawWrite s L).2.xkind = s.xkind := by
  unfold drawWrite; split <;> rfl
@[simp] theorem drawOpen_reqId (s : State) : (drawOpen s).2.reqId = s.reqId := by
  unfold drawOpen; split <;> rfl
@[simp] theorem drawWrite_reqId (s : State) (L : Nat) : (drawWrite s L).2.reqId = s.reqId := by
  unfold drawWrite; split <;> rfl
@[simp] theorem drawOpen_reqExpect (s : State) : (drawOpen s).2.reqExpect = s.reqExpect := by
  unfold drawOpen; split <;> rfl
@[simp] theorem drawWrite_reqExpect (s : State) (L : Nat) : (drawWrite s L).2.reqExpect = s.reqExpect := by
  unfold drawWrite; split <;> rfl
@[simp] theorem drawOpen_txBuf (s : State) : (drawOpen s).2.txBuf = s.txBuf := by
  unfold drawOpen; split <;> rfl
@[simp] theorem drawWrite_txBuf (s : State) (L : Nat) : (drawWrite s L).2.txBuf = s.txBuf := by
  unfold drawWrite; split <;> rfl
@[simp] theorem drawOpen_rxFifo (s : State) : (drawOpen s).2.rxFifo = s.rxFifo := by
  unfold drawOpen; split <;> rfl
@[simp] theorem drawWrite_rxFifo (s : State) (L : Nat) : (drawWrite s L).2.rxFifo = s.rxFifo := by
  unfold drawWrite; split <;> rfl
@[simp] theorem drawOpen_rxBuf (s : State) : (drawOpen s).2.rxBuf = s.rxBuf := by
  unfold drawOpen; split <;> rfl
@[simp] theorem drawWrite_rxBuf (s : State) (L : Nat) : (drawWrite s L).2.rxBuf = s.rxBuf := by
  unfold drawWrite; split <;> rfl
@[simp] theorem drawOpen_want (s : State) : (drawOpen s).2.want = s.want := by
  unfold drawOpen; split <;> rfl
@[simp] theorem drawWrite_want (s : State) (L : Nat) : (drawWrite s L).2.want = s.want := by
  unfold drawWrite; split <;> rfl
@[simp] theorem drawOpen_tStart (s : State) : (drawOpen s).2.tStart = s.tStart := by
  unfold drawOpen; split <;> rfl
@[simp] theorem drawWrite_tStart (s : State) (L : Nat) : (drawWrite s L).2.tStart = s.tStart := by
  unfold drawWrite; split <;> rfl
@[simp] theorem drawOpen_tDur (s : State) : (drawOpen s).2.tDur = s.tDur := by
  unfold drawOpen; split <;> rfl
@[simp] theorem drawWrite_tDur (s : State) (L : Nat) : (drawWrite s L).2.tDur = s.tDur := by
  unfold drawWrite; split <;> rfl
@[simp] theorem drawOpen_now (s : State) : (drawOpen s).2.now = s.now := by
  unfold drawOpen; split <;> rfl
@[simp] theorem drawWrite_now (s : State) (L : Nat) : (drawWrite s L).2.now = s.now := by
  unfold drawWrite; split <;> rfl
@[simp] theorem drawOpen_lineOut (s : State) : (drawOpen s).2.lineOut = s.lineOut := by
  unfold drawOpen; split <;> rfl
@[simp] theorem drawWrite_lineOut (s : State) (L : Nat) : (drawWrite s L).2.lineOut = s.lineOut := by
  unfold drawWrite; split <;> rfl
@[simp] theorem drawOpen_ports (s : State) : (drawOpen s).2.ports = s.ports := by
  unfold drawOpen; split <;> rfl
@[simp] theorem drawWrite_ports (s : State) (L : Nat) : (drawWrite s L).2.ports = s.ports := by
  unfold drawWrite; split <;> rfl
@[simp] theorem drawOpen_port (s : State) : (drawOpen s).2.port = s.port := by
  unfold drawOpen; split <;> rfl
@[simp] theorem drawWrite_port (s : State) (L : Nat) : (drawWrite s L).2.port = s.port := by
  unfold drawWrite; split <;> rfl

/-! Write emits bytes and draws, nothing else. -/

@[simp] theorem writeTx_cfg (s : State) : (writeTx s).2.cfg = s.cfg := by
  unfold writeTx; split <;> simp
@[simp] theorem writeTx_lineOpen (s : State) : (writeTx s).2.lineOpen = s.lineOpen := by
  unfold writeTx; split <;> simp
@[simp] theorem writeTx_baud (s : State) : (writeTx s).2.baud = s.baud := by
  unfold writeTx; split <;> simp
@[simp] theorem writeTx_msPerByte (s : State) : (writeTx s).2.msPerByte = s.msPerByte := by
  unfold writeTx; split <;> simp
@[simp] theorem writeTx_busy (s : State) : (writeTx s).2.busy = s.busy := by
  unfold writeTx; split <;> simp
@[simp] theorem writeTx_xowner (s : State) : (writeTx s).2.xowner = s.xowner := by
  unfold writeTx; split <;> simp
@[simp] theorem writeTx_xstate (s : State) : (writeTx s).2.xstate = s.xstate := by
  unfold writeTx; split <;> simp
@[simp] theorem writeTx_xkind (s : State) : (writeTx s).2.xkind = s.xkind := by
  unfold writeTx; split <;> simp
@[simp] theorem writeTx_reqId (s : State) : (writeTx s).2.reqId = s.reqId := by
  unfold writeTx; split <;> simp
@[simp] theorem writeTx_reqExpect (s : State) : (writeTx s).2.reqExpect = s.reqExpect := by
  unfold writeTx; split <;> simp
@[simp] theorem writeTx_txBuf (s : State) : (writeTx s).2.txBuf = s.txBuf := by
  unfold writeTx; split <;> simp
@[simp] theorem writeTx_rxFifo (s : State) : (writeTx s).2.rxFifo = s.rxFifo := by
  unfold writeTx; split <;> simp
@[simp] theorem writeTx_rxBuf (s : State) : (writeTx s).2.rxBuf = s.rxBuf := by
  unfold writeTx; split <;> simp
@[simp] theorem writeTx_want (s : State) : (writeTx s).2.want = s.want := by
  unfold writeTx; split <;> simp
@[simp] theorem writeTx_tStart (s : State) : (writeTx s).2.tStart = s.tStart := by
  unfold writeTx; split <;> simp
@[simp] theorem writeTx_tDur (s : State) : (writeTx s).2.tDur = s.tDur := by
  unfold writeTx; split <;> simp
@[simp] theorem writeTx_now (s : State) : (writeTx s).2.now = s.now := by
  unfold writeTx; split <;> simp
@[simp] theorem writeTx_ports (s : State) : (writeTx s).2.ports = s.ports := by
  unfold writeTx; split <;> simp
@[simp] theorem writeTx_port (s : State) : (writeTx s).2.port = s.port := by
  unfold writeTx; split <;> simp

end Sys2Proof.Machine
end

