-- ==== Sys2Proof/Laws/Ops.lean ====
section
/-!
SUPPORT. What each shared operation can do, said once: the command wrapper, the ports, acquire, the completions, an
exchange's issue, TX_DONE and the receive step.
-/

namespace Sys2Proof.Machine

/-! Ports. -/

theorem portAt_of_getElem? {s : State} {p : Nat} {q : Port} (h : s.ports[p]? = some q) : portAt s p = q := by
  simp [portAt, List.getD, h]

theorem getElem?_portAt {s : State} {p : Nat} (h : p < s.ports.length) : s.ports[p]? = some (portAt s p) := by
  simp [portAt, List.getD, h]

theorem modify_eq_set {q : Port} {ps : List Port} {p : Nat} (h : ps[p]? = some q) (f : Port → Port) :
    ps.modify p f = ps.set p (f q) := by
  obtain ⟨hp, rfl⟩ := List.getElem?_eq_some_iff.mp h
  rw [List.modify_eq_set_getElem?]
  simp [h]

@[simp] theorem portAt_onPort_self {s : State} {p : Nat} (h : p < s.ports.length) (f : Port → Port) :
    portAt (onPort s p f) p = f (portAt s p) := by
  simp [portAt, List.getD, h]

theorem portAt_onPort_ne {s : State} {p q : Nat} (h : p ≠ q) (f : Port → Port) :
    portAt (onPort s p f) q = portAt s q := by
  simp [portAt, List.getD, h]

/-- Every port of `onPort` is an old port, or the old port `p` rewritten. -/
theorem mem_modify {ps : List Port} {p : Nat} {f : Port → Port} {q : Port} (h : q ∈ ps.modify p f) :
    q ∈ ps ∨ ∃ q₀ ∈ ps, q = f q₀ := by
  obtain ⟨j, hj⟩ := List.mem_iff_getElem?.mp h
  rw [List.getElem?_modify] at hj
  cases hps : ps[j]? with
  | none => simp [hps] at hj
  | some r =>
    simp only [hps, Option.map_eq_map, Option.map_some, Option.some.injEq] at hj
    have hr : r ∈ ps := List.mem_iff_getElem?.mpr ⟨j, hps⟩
    split at hj
    · exact .inr ⟨r, hr, hj.symm⟩
    · exact .inl (hj ▸ hr)

/-! Commands. -/

/-- A command answers a next state exactly on a port that exists, and never faults. -/
theorem command_eq_next_iff (s t : State) (f : Nat → State → State) :
    command s f = .next t ↔ s.port < s.ports.length ∧ f s.port s = t := by
  unfold command
  split <;> simp [*]

theorem command_of_port {s : State} (h : s.port < s.ports.length) (f : Nat → State → State) :
    command s f = .next (f s.port s) := by
  simp [command, h]

/-! Acquire. -/

theorem acquire_of_free {s : State} (h : s.busy = false) (p : Nat) :
    acquire s p = some { s with busy := true, xowner := some p } := by
  simp [acquire, h]

theorem acquire_of_busy {s : State} (h : s.busy = true) (p : Nat) : acquire s p = none := by
  simp [acquire, h]

/-! Issue. -/

/-- A begun exchange (42_request_response.md R172). -/
def begun (s : State) (p : Nat) (kind : XKind) (id : Byte) (f : List Byte) : State :=
  { s with busy := true, xowner := some p, xstate := .sending, xkind := kind, reqId := id, txBuf := f, rxFifo := [] }

/-- Issue ends with one of the three failures, in this order, or begins the exchange (42_request_response.md R171, R172;
60_exceptions.md R253). -/
theorem issueExchange_cases (s : State) (p : Nat) (kind : XKind) (id code : Byte) (params : List Byte) :
    (kind = .unicast ∧ id = broadcastId ∧
      issueExchange s p kind id code params = completeFail s p kind .notAvailable) ∨
    (¬(kind = .unicast ∧ id = broadcastId) ∧ s.cfg.txMaxLen < params.length + 6 ∧
      issueExchange s p kind id code params = completeFail s p kind .txError) ∨
    (¬(kind = .unicast ∧ id = broadcastId) ∧ params.length + 6 ≤ s.cfg.txMaxLen ∧ s.busy = true ∧
      issueExchange s p kind id code params = completeFail s p kind .portBusy) ∨
    (¬(kind = .unicast ∧ id = broadcastId) ∧ params.length + 6 ≤ s.cfg.txMaxLen ∧ s.busy = false ∧
      issueExchange s p kind id code params = begun s p kind id (frameOf id code params)) := by
  by_cases h : kind = .unicast ∧ id = broadcastId
  · exact .inl ⟨h.1, h.2, by simp [issueExchange, h]⟩
  · by_cases hl : s.cfg.txMaxLen < params.length + 6
    · refine .inr (.inl ⟨h, hl, ?_⟩)
      simp [issueExchange, h, (buildFrame_eq_none_iff _ _ _ _).mpr hl]
    · have hb := (buildFrame_eq_some_iff s.cfg id code params _).mpr ⟨by omega, rfl⟩
      cases hbusy : s.busy with
      | true =>
        refine .inr (.inr (.inl ⟨h, by omega, rfl, ?_⟩))
        simp [issueExchange, h, hb, txStart, acquire_of_busy hbusy]
      | false =>
        refine .inr (.inr (.inr ⟨h, by omega, rfl, ?_⟩))
        simp [issueExchange, h, hb, txStart, acquire_of_free hbusy, begun, fifoFlush]

/-- A completion before the port is acquired rewrites the port's own registers only. -/
theorem completeFail_eq_onPort (s : State) (p : Nat) (kind : XKind) (c : CommResult) :
    completeFail s p kind c = onPort s p fun q =>
      match kind with
      | .unicast => q.completeUnicast c 0 []
      | .broadcast => q.completeCode c := by
  cases kind <;> rfl

/-! Completions of an exchange that owns the port. -/

/-- An ended exchange: its owner's registers rewritten, the port released. -/
def ended (s : State) (q : Nat) (f : Port → Port) : State := release (onPort s q f)

theorem completeUnicastExchange_of_owner {s : State} {q : Nat} (h : s.xowner = some q) (c : CommResult) :
    completeUnicastExchange s c = ended s q fun x => x.completeUnicast c 0 [] := by
  simp [completeUnicastExchange, h, ended]

theorem completeOk_of_owner {s : State} {q : Nat} (h : s.xowner = some q) (f : List Byte) :
    completeOk s f = ended s q fun x => x.completeUnicast .success (byteAt f 4) f := by
  simp [completeOk, h, ended]

theorem completeBroadcast_of_owner {s : State} {q : Nat} (h : s.xowner = some q) (c : CommResult) :
    completeBroadcast s c = ended s q fun x => x.completeCode c := by
  simp [completeBroadcast, h, ended]

/-- An acceptable frame: the request's id and at least `P_MIN_FRAME` bytes (42_request_response.md R175). -/
theorem finishOk_of_match {s : State} {q : Nat} {f : List Byte} (h : s.xowner = some q) (hid : byteAt f 2 = s.reqId)
    (hlen : s.cfg.minFrame ≤ f.length) :
    finishOk s f = ended { s with rxBuf := [] } q fun x => x.completeUnicast .success (byteAt f 4) f := by
  rw [finishOk, postReceive, if_neg (by simp [hid]; omega), completeOk_of_owner (by simpa using h)]

theorem finishOk_of_mismatch {s : State} {q : Nat} {f : List Byte} (h : s.xowner = some q)
    (hbad : byteAt f 2 ≠ s.reqId ∨ f.length < s.cfg.minFrame) :
    finishOk s f = ended { s with rxBuf := [] } q fun x => x.completeUnicast .rxCorrupt 0 [] := by
  rw [finishOk, postReceive, if_pos (by simpa using hbad), completeUnicastExchange_of_owner (by simpa using h)]

theorem finishFail_of_owner {s : State} {q : Nat} (h : s.xowner = some q) (c : CommResult) :
    finishFail s c = ended { s with rxBuf := [] } q fun x => x.completeUnicast c 0 [] := by
  rw [finishFail, completeUnicastExchange_of_owner (by simpa using h)]

/-! The draws. -/

theorem drawWrite_le (s : State) (L : Nat) : (drawWrite s L).1 ≤ L := by
  unfold drawWrite
  split <;> simp

theorem writeTx_le (s : State) : (writeTx s).1 ≤ s.txBuf.length := by
  unfold writeTx
  split
  · exact drawWrite_le _ _
  · simp

theorem writeTx_lineOut (s : State) : (writeTx s).2.lineOut = s.lineOut ++ s.txBuf.take (writeTx s).1 := by
  unfold writeTx
  split <;> simp

/-- Write writes the environment and the line, nothing else (40_transport.md R129). -/
theorem writeTx_eq (s : State) : (writeTx s).2 =
    { s with env := (writeTx s).2.env, lineOut := s.lineOut ++ s.txBuf.take (writeTx s).1 } := by
  apply State.ext <;> simp [writeTx_lineOut]

/-- A draw of OPEN writes the environment only. -/
theorem drawOpen_eq (s : State) : (drawOpen s).2 = { s with env := (drawOpen s).2.env } := by
  unfold drawOpen
  split <;> rfl

/-! The Clock's draws (40_transport.md R135). -/

theorem clockTime_gt (now : Millis) (k : Nat) : now < Config.clockTime now k := by
  have h : (0 : Rat) < mkRat ((Config.clockAdvance k).1 + 1) ((Config.clockAdvance k).2 + 1) := by
    rw [Rat.mkRat_eq_div]
    positivity
  exact lt_of_lt_of_le (lt_add_of_pos_right now h) (le_max_left _ _)

/-- From draw `max n (clockReach n)` on, the Clock sets no time below `n` ms. -/
theorem le_clockTime (now : Millis) {n k : Nat} (hn : n ≤ k) (hr : Config.clockReach n ≤ k) :
    (n : Millis) ≤ Config.clockTime now k := by
  have foldl_max : ∀ (l : List Nat) (a : Nat), a ≤ l.foldl max a ∧ ∀ x ∈ l, x ≤ l.foldl max a := by
    intro l
    induction l with
    | nil => simp
    | cons b l ih =>
      intro a
      have h := ih (max a b)
      simp only [List.foldl_cons, List.mem_cons, forall_eq_or_imp]
      exact ⟨by omega, by omega, h.2⟩
  have hf : n ≤ Config.clockFloor k := (foldl_max _ 0).2 n (by simp [hr]; omega)
  exact le_trans (by exact_mod_cast hf) (le_max_right _ _)

/-- A draw of time is above `NOW`, and writes the environment only: a time off the list, or a free draw. -/
theorem drawTime_cases (s : State) :
    (∃ t rest, s.env.clockIn = t :: rest ∧ s.now < t ∧
      drawTime s = (t, { s with env := { s.env with clockIn := rest } })) ∨
    ((∀ t ∈ s.env.clockIn.head?, t ≤ s.now) ∧
      drawTime s = (Config.clockTime s.now s.env.draws,
        { s with env := { s.env with clockIn := s.env.clockIn.tail, draws := s.env.draws + 1 } })) := by
  unfold drawTime
  split
  · rename_i h
    exact .inr ⟨by simp [h], by simp [h]⟩
  · rename_i t rest h
    split
    · rename_i hlt
      exact .inl ⟨t, rest, h, hlt, rfl⟩
    · rename_i hle
      exact .inr ⟨by simpa [h] using hle, by simp [h]⟩

theorem drawTime_gt (s : State) : s.now < (drawTime s).1 := by
  rcases drawTime_cases s with ⟨t, rest, -, hlt, e⟩ | ⟨-, e⟩ <;> rw [e]
  · exact hlt
  · exact clockTime_gt _ _

/-- The Clock writes `NOW` and the environment, nothing else. -/
theorem clockMove_eq (s : State) :
    clockMove s = { s with now := (drawTime s).1, env := (drawTime s).2.env } := by
  rcases drawTime_cases s with ⟨t, rest, -, -, e⟩ | ⟨-, e⟩ <;> simp [clockMove, e]

/-! Expiry. -/

theorem expired_iff (s : State) : expired s = true ↔ s.tDur < s.now - s.tStart := by
  simp [expired]

theorem not_expired_iff (s : State) : expired s = false ↔ s.now - s.tStart ≤ s.tDur := by
  simp [expired]

/-! TX_DONE. -/

/-- TX_DONE of an owned exchange ends it with TxFail or, for a broadcast, Success, or starts the receive
(42_request_response.md R173). -/
theorem txDone_cases {s : State} {q : Nat} (h : s.xowner = some q) :
    (s.xkind = .broadcast ∧ (writeTx s).1 ≠ s.txBuf.length ∧
      txDone s = ended (writeTx s).2 q fun x => x.completeCode .txFail) ∨
    (s.xkind = .broadcast ∧ (writeTx s).1 = s.txBuf.length ∧
      txDone s = ended (writeTx s).2 q fun x => x.completeCode .success) ∨
    (s.xkind = .unicast ∧ (writeTx s).1 ≠ s.txBuf.length ∧
      txDone s = ended (writeTx s).2 q fun x => x.completeUnicast .txFail 0 []) ∨
    (s.xkind = .unicast ∧ (writeTx s).1 = s.txBuf.length ∧
      txDone s = parseStart (startTimer (writeTx s).2 (expectedLen s.cfg s.txBuf))) := by
  have ho : (writeTx s).2.xowner = some q := by simpa using h
  cases hk : s.xkind <;> by_cases hn : (writeTx s).1 = s.txBuf.length
  · exact .inr (.inr (.inr ⟨rfl, hn, by simp [txDone, hn, hk]⟩))
  · exact .inr (.inr (.inl ⟨rfl, hn, by simp [txDone, hn, hk, completeUnicastExchange_of_owner ho]⟩))
  · exact .inr (.inl ⟨rfl, hn, by simp [txDone, hn, hk, completeBroadcast_of_owner ho]⟩)
  · exact .inl ⟨rfl, hn, by simp [txDone, hn, hk, completeBroadcast_of_owner ho]⟩

/-! The receive step. -/

/-- HeaderAtZero of a whole frame verifies it (41_frame_codec.md R153). -/
theorem verifyFrame_cases {s : State} {q : Nat} (h : s.xowner = some q) :
    let f := s.rxBuf.take s.want
    (verifyFrame s = (ended { s with rxBuf := [] } q fun x => x.completeUnicast .success (byteAt f 4) f) ∧
      byteAt f (s.want - 1) = checksum (memRead f 2 (s.want - 3)) ∧ byteAt f 2 = s.reqId ∧
      s.cfg.minFrame ≤ f.length) ∨
    verifyFrame s = ended { s with rxBuf := [] } q fun x => x.completeUnicast .rxCorrupt 0 [] := by
  have hf : memRead s.rxBuf 0 s.want = s.rxBuf.take s.want := by simp [memRead]
  simp only [verifyFrame, hf]
  split
  · rename_i hc
    by_cases hm : byteAt (s.rxBuf.take s.want) 2 ≠ s.reqId ∨ (s.rxBuf.take s.want).length < s.cfg.minFrame
    · exact .inr (finishOk_of_mismatch h hm)
    · push Not at hm
      exact .inl ⟨finishOk_of_match h hm.1 hm.2, hc, hm.1, hm.2⟩
  · exact .inr (finishFail_of_owner h _)

/-- What one receive step of an owned exchange can do (41_frame_codec.md R144 to R153). -/
inductive ReceiveCase (s : State) (q : Nat) : State → Prop where
  | wait (hlt : s.rxBuf.length < s.want) (hf : s.rxFifo = []) (he : expired s = false) : ReceiveCase s q s
  | pull (b : Byte) (rest : List Byte) (hlt : s.rxBuf.length < s.want) (hf : s.rxFifo = b :: rest) :
      ReceiveCase s q { s with rxFifo := rest, rxBuf := s.rxBuf ++ [b] }
  | expireEmpty (hlt : s.rxBuf.length < s.want) (hf : s.rxFifo = []) (he : expired s = true) (hb : s.rxBuf = []) :
      ReceiveCase s q (ended { s with rxBuf := [] } q fun x => x.completeUnicast .rxTimeout 0 [])
  | expirePartial (hlt : s.rxBuf.length < s.want) (hf : s.rxFifo = []) (he : expired s = true) (hb : s.rxBuf ≠ []) :
      ReceiveCase s q (ended { s with rxBuf := [] } q fun x => x.completeUnicast .rxCorrupt 0 [])
  | noHeaderExpired (hle : s.want ≤ s.rxBuf.length) (hh : findHeader s.rxBuf = none) (he : expired s = true) :
      ReceiveCase s q (ended { s with rxBuf := [] } q fun x => x.completeUnicast .rxCorrupt 0 [])
  | noHeader (hle : s.want ≤ s.rxBuf.length) (hh : findHeader s.rxBuf = none) (he : expired s = false) :
      ReceiveCase s q { s with rxBuf := s.rxBuf.drop (s.rxBuf.length - 1) }
  | later (i : Nat) (hle : s.want ≤ s.rxBuf.length) (hh : findHeader s.rxBuf = some (i + 1)) :
      ReceiveCase s q { s with rxBuf := s.rxBuf.drop (i + 1) }
  | spurious (hle : s.want ≤ s.rxBuf.length) (hh : findHeader s.rxBuf = some 0)
      (hs : s.cfg.rxIdMax < (byteAt s.rxBuf 2).toNat ∨ s.cfg.rxMaxLen < (byteAt s.rxBuf 3).toNat) :
      ReceiveCase s q { s with rxBuf := s.rxBuf.drop 1 }
  | setLength (hle : s.want ≤ s.rxBuf.length) (hh : findHeader s.rxBuf = some 0)
      (hi : (byteAt s.rxBuf 2).toNat ≤ s.cfg.rxIdMax) (hl : (byteAt s.rxBuf 3).toNat ≤ s.cfg.rxMaxLen)
      (hw : s.want ≠ (byteAt s.rxBuf 3).toNat + 4) :
      ReceiveCase s q { s with want := (byteAt s.rxBuf 3).toNat + 4 }
  | verify (hle : s.want ≤ s.rxBuf.length) (hh : findHeader s.rxBuf = some 0)
      (hi : (byteAt s.rxBuf 2).toNat ≤ s.cfg.rxIdMax) (hl : (byteAt s.rxBuf 3).toNat ≤ s.cfg.rxMaxLen)
      (hw : s.want = (byteAt s.rxBuf 3).toNat + 4) : ReceiveCase s q (verifyFrame s)

theorem receiveStep_cases {s : State} {q : Nat} (h : s.xowner = some q) : ReceiveCase s q (receiveStep s) := by
  unfold receiveStep
  split
  · rename_i hlt
    split
    · rename_i hf
      obtain ⟨b, rest, hbr⟩ := List.exists_cons_of_ne_nil hf
      have : parsePull s = { s with rxFifo := rest, rxBuf := s.rxBuf ++ [b] } := by simp [parsePull, hbr]
      exact this ▸ .pull b rest hlt hbr
    · rename_i hf
      push Not at hf
      split
      · rename_i he
        unfold parseExpire
        split
        · rename_i hb
          exact finishFail_of_owner h _ ▸ .expireEmpty hlt hf he hb
        · rename_i hb
          exact finishFail_of_owner h _ ▸ .expirePartial hlt hf he hb
      · rename_i he
        exact .wait hlt hf (by simpa using he)
  · rename_i hle
    push Not at hle
    unfold parseEval
    split
    · rename_i hh
      unfold headerNotFound
      split
      · rename_i he
        exact finishFail_of_owner h _ ▸ .noHeaderExpired hle hh he
      · rename_i he
        exact .noHeader hle hh (by simpa using he)
    · rename_i hh
      unfold headerAtZero
      split
      · rename_i hs
        exact .spurious hle hh hs
      · rename_i hs
        push Not at hs
        split
        · rename_i hw
          exact .setLength hle hh hs.1 hs.2 hw
        · rename_i hw
          push Not at hw
          exact .verify hle hh hs.1 hs.2 hw
    · rename_i i hh
      exact .later i hle hh

end Sys2Proof.Machine
end

