-- ==== Sys2Proof/Laws/Exchange.lean ====
section
/-!
SUPPORT. Laws of the receive in progress: what an accepted header keeps, that every step of it ends, waits or makes
progress, and how a run of Engine steps takes a frame off the FIFO.
-/

namespace Sys2Proof.Machine

/-! Accepted headers. -/

/-- Appending bytes keeps an accepted header. -/
theorem HeaderSet.append {cfg : Params} {buf : List Byte} {w : Nat} (hw : cfg.wf) (h : HeaderSet cfg buf w)
    (t : List Byte) : HeaderSet cfg (buf ++ t) w := by
  have h6 : 6 ≤ cfg.minFrame := hw.1
  have hl := h.held
  refine ⟨?_, ?_, ?_, ?_, ?_⟩
  · rw [List.take_append_of_le_length (by omega)]; exact h.header
  · rw [byteAt_append_left (by omega)]; exact h.id
  · rw [byteAt_append_left (by omega)]; exact h.length
  · rw [byteAt_append_left (by omega)]; exact h.target
  · simp; omega

theorem HeaderSet.findHeader_eq {cfg : Params} {buf : List Byte} {w : Nat} (h : HeaderSet cfg buf w) :
    findHeader buf = some 0 := (findHeader_eq_zero_iff _).mpr h.header

/-! Engine steps of the exchange. -/

theorem exchangeStep_sending {s : State} (h : s.xstate = .sending) : exchangeStep s = txDone s := by
  simp [exchangeStep, h]

theorem exchangeStep_awaiting {s : State} (h : s.xstate = .awaitingResponse) : exchangeStep s = receiveStep s := by
  simp [exchangeStep, h]

theorem exchangeRun_add (m n : Nat) (s : State) : exchangeRun (m + n) s = exchangeRun n (exchangeRun m s) := by
  induction m generalizing s with
  | zero => simp [exchangeRun]
  | succ m ih => rw [Nat.succ_add]; exact ih _

@[simp] theorem ended_xstate (s : State) (q : Nat) (f : Port → Port) : (ended s q f).xstate = .idle := rfl
@[simp] theorem ended_busy (s : State) (q : Nat) (f : Port → Port) : (ended s q f).busy = false := rfl
@[simp] theorem ended_xowner (s : State) (q : Nat) (f : Port → Port) : (ended s q f).xowner = none := rfl
@[simp] theorem ended_ports (s : State) (q : Nat) (f : Port → Port) : (ended s q f).ports = s.ports.modify q f := rfl

/-! The exchange leaves time alone (40_transport.md R135). -/

@[simp] theorem completeUnicastExchange_now (s : State) (c : CommResult) : (completeUnicastExchange s c).now = s.now := by
  unfold completeUnicastExchange; split <;> rfl

@[simp] theorem completeOk_now (s : State) (f : List Byte) : (completeOk s f).now = s.now := by
  unfold completeOk; split <;> rfl

@[simp] theorem completeBroadcast_now (s : State) (c : CommResult) : (completeBroadcast s c).now = s.now := by
  unfold completeBroadcast; split <;> rfl

@[simp] theorem verifyFrame_now (s : State) : (verifyFrame s).now = s.now := by
  simp only [verifyFrame, finishOk, finishFail, postReceive]
  repeat' split
  all_goals simp

@[simp] theorem receiveStep_now (s : State) : (receiveStep s).now = s.now := by
  simp only [receiveStep, parsePull, parseExpire, parseEval, headerNotFound, headerLater, headerAtZero, finishFail]
  repeat' split
  all_goals simp

@[simp] theorem txDone_now (s : State) : (txDone s).now = s.now := by
  simp only [txDone, parseStart, startTimer]
  repeat' split
  all_goals simp

@[simp] theorem exchangeStep_now (s : State) : (exchangeStep s).now = s.now := by
  unfold exchangeStep
  split <;> simp

/-! Of the exchange's steps only TX_DONE writes to the line (20_memory.md R71). -/

@[simp] theorem completeUnicastExchange_lineOut (s : State) (c : CommResult) :
    (completeUnicastExchange s c).lineOut = s.lineOut := by
  unfold completeUnicastExchange; split <;> rfl

@[simp] theorem completeOk_lineOut (s : State) (f : List Byte) : (completeOk s f).lineOut = s.lineOut := by
  unfold completeOk; split <;> rfl

@[simp] theorem completeBroadcast_lineOut (s : State) (c : CommResult) :
    (completeBroadcast s c).lineOut = s.lineOut := by
  unfold completeBroadcast; split <;> rfl

@[simp] theorem verifyFrame_lineOut (s : State) : (verifyFrame s).lineOut = s.lineOut := by
  simp only [verifyFrame, finishOk, finishFail, postReceive]
  repeat' split
  all_goals simp

@[simp] theorem receiveStep_lineOut (s : State) : (receiveStep s).lineOut = s.lineOut := by
  simp only [receiveStep, parsePull, parseExpire, parseEval, headerNotFound, headerLater, headerAtZero, finishFail]
  repeat' split
  all_goals simp

/-- TX_DONE appends what the write took, and nothing else (40_transport.md R129, R131). -/
theorem txDone_lineOut (s : State) : (txDone s).lineOut = s.lineOut ++ s.txBuf.take (writeTx s).1 := by
  simp only [txDone, parseStart, startTimer]
  repeat' split
  all_goals simp [writeTx_lineOut]

/-- TX_DONE ends the exchange or starts its receive (42_request_response.md R173). -/
theorem txDone_ne_sending {s : State} {q : Nat} (h : s.xowner = some q) : (txDone s).xstate ≠ .sending := by
  rcases txDone_cases h with ⟨-, -, e⟩ | ⟨-, -, e⟩ | ⟨-, -, e⟩ | ⟨-, -, e⟩ <;> rw [e] <;> simp [parseStart]

/-- An awaited receive with an owner, and a target that is `P_MIN_FRAME` or set by an accepted header. -/
structure Receiving (s : State) : Prop where
  wf : s.cfg.wf
  awaiting : s.xstate = .awaitingResponse
  owned : ∃ q, s.xowner = some q
  target : s.want = s.cfg.minFrame ∨ HeaderSet s.cfg s.rxBuf s.want

theorem MachineInv.receiving {s : State} (h : MachineInv s) (ha : s.xstate = .awaitingResponse) : Receiving s :=
  have hb : s.busy = true := h.exchange.busy.mpr (by simp [ha])
  ⟨h.params, ha, Option.ne_none_iff_exists'.mp (h.exchange.owner.mp hb), h.receive.header ha⟩

/-- Whenever PARSE_EVAL runs, at least six bytes are held (41_frame_codec.md R147). -/
theorem Receiving.six_le {s : State} (h : Receiving s) (hle : s.want ≤ s.rxBuf.length) : 6 ≤ s.rxBuf.length := by
  have h6 := h.wf.1
  rcases h.target with ht | ht
  · omega
  · have := ht.held; omega

theorem verifyFrame_idle {s : State} {q : Nat} (h : s.xowner = some q) :
    (verifyFrame s).xstate = .idle ∧ (verifyFrame s).busy = false := by
  rcases verifyFrame_cases h with h | h
  · rw [h.1]; exact ⟨rfl, rfl⟩
  · rw [h]; exact ⟨rfl, rfl⟩

/-- `k` Engine steps pull the `k` oldest bytes, while the target is not reached (41_frame_codec.md R145). -/
theorem exchangeRun_pulls (k : Nat) : ∀ (s : State) (pre rest : List Byte), s.xstate = .awaitingResponse →
    s.rxFifo = pre ++ rest → pre.length = k → s.rxBuf.length + k ≤ s.want →
    exchangeRun k s = { s with rxBuf := s.rxBuf ++ pre, rxFifo := rest } := by
  induction k with
  | zero =>
    intro s pre rest _ hf hk _
    obtain rfl : pre = [] := List.length_eq_zero_iff.mp hk
    simp at hf
    simp [exchangeRun, ← hf]
  | succ k ih =>
    intro s pre rest ha hf hk hw
    cases pre with
    | nil => simp at hk
    | cons b pre =>
      have hstep : receiveStep s = { s with rxBuf := s.rxBuf ++ [b], rxFifo := pre ++ rest } := by
        simp only [receiveStep, hf]
        rw [if_pos (by omega)]
        simp [parsePull, hf]
      simp only [exchangeRun, exchangeStep_awaiting ha, hstep]
      rw [ih { s with rxBuf := s.rxBuf ++ [b], rxFifo := pre ++ rest } pre rest ha rfl (by simpa using hk) (by simp; omega)]
      simp

/-- A receive whose buffer and FIFO begin with `G`, which has an acceptable header and is as long as its length byte says,
comes to verify exactly `G` (41_frame_codec.md R145, R147, R152, R153). -/
theorem exchangeRun_to_verify {s : State} {G rest pre post : List Byte} (wf : s.cfg.wf)
    (ha : s.xstate = .awaitingResponse) (hw : s.want = s.cfg.minFrame)
    (hG : G = pre ++ post) (hpre : s.rxBuf = pre) (hpost : s.rxFifo = post ++ rest)
    (hle : pre.length ≤ s.cfg.minFrame) (hm : s.cfg.minFrame ≤ G.length) (hh : G.take 2 = [headerByte, headerByte])
    (hi : (byteAt G 2).toNat ≤ s.cfg.rxIdMax) (hl : (byteAt G 3).toNat ≤ s.cfg.rxMaxLen)
    (hL : G.length = (byteAt G 3).toNat + 4) :
    ∃ n, exchangeRun n s = verifyFrame { s with rxBuf := G, rxFifo := rest, want := G.length } := by
  have h6 := wf.1
  set k := s.cfg.minFrame - pre.length with hk
  have hGl : G.length = pre.length + post.length := by simp [hG]
  have e1 := exchangeRun_pulls k s (post.take k) (post.drop k ++ rest) ha
    (by rw [hpost, ← List.append_assoc, List.take_append_drop]) (by simp; omega) (by rw [hpre]; omega)
  have hbuf : pre ++ post.take k = G.take s.cfg.minFrame := by
    rw [hG, List.take_append, List.take_of_length_le hle]
  have hdrop : post.drop k = G.drop s.cfg.minFrame := by
    rw [hG, List.drop_append, List.drop_of_length_le hle]; simp [hk]
  rw [hpre, hbuf, hdrop] at e1
  have hh' : findHeader (G.take s.cfg.minFrame) = some 0 := by
    rw [findHeader_eq_zero_iff, List.take_take, Nat.min_eq_left (by omega)]; exact hh
  have b2 : byteAt (G.take s.cfg.minFrame) 2 = byteAt G 2 := byteAt_take (by omega)
  have b3 : byteAt (G.take s.cfg.minFrame) 3 = byteAt G 3 := byteAt_take (by omega)
  have hlen : (G.take s.cfg.minFrame).length = s.cfg.minFrame := by simp; omega
  by_cases heq : s.cfg.minFrame = G.length
  · refine ⟨k + 1, ?_⟩
    have ht : G.take s.cfg.minFrame = G := by rw [heq, List.take_length]
    have hd : G.drop s.cfg.minFrame = [] := by rw [heq, List.drop_length]
    rw [exchangeRun_add, e1]
    simp only [exchangeRun]
    rw [exchangeStep_awaiting (by exact ha)]
    simp only [receiveStep, parseEval, headerAtZero, hlen, hh', b2, b3]
    rw [if_neg (by omega), if_neg (by omega), if_neg (by omega), ht, hd]
    simp [hw, heq]
  · refine ⟨k + (1 + ((G.length - s.cfg.minFrame) + 1)), ?_⟩
    rw [exchangeRun_add, e1, exchangeRun_add, exchangeRun_add]
    have e2 : exchangeRun 1 { s with rxBuf := G.take s.cfg.minFrame, rxFifo := G.drop s.cfg.minFrame ++ rest } =
        { s with rxBuf := G.take s.cfg.minFrame, rxFifo := G.drop s.cfg.minFrame ++ rest, want := G.length } := by
      simp only [exchangeRun]
      rw [exchangeStep_awaiting (by exact ha)]
      simp only [receiveStep, parseEval, headerAtZero, hlen, hh', b2, b3]
      rw [if_neg (by omega), if_neg (by omega), if_pos (by omega), hL]
    have hz : findHeader G = some 0 := (findHeader_eq_zero_iff _).mpr hh
    rw [e2, exchangeRun_pulls (G.length - s.cfg.minFrame)
      { s with rxBuf := G.take s.cfg.minFrame, rxFifo := G.drop s.cfg.minFrame ++ rest, want := G.length }
      (G.drop s.cfg.minFrame) rest ha rfl (by simp) (by simp; omega)]
    simp only [exchangeRun, List.take_append_drop]
    rw [exchangeStep_awaiting (by exact ha)]
    simp only [receiveStep, parseEval, headerAtZero, hz]
    rw [if_neg (by omega), if_neg (by omega), if_neg (by omega)]

/-- Verifying a frame the block could build ends in Success with it, when it answers the request. -/
theorem verifyFrame_frameOf {s : State} {q : Nat} {code : Byte} {params : List Byte} (hq : s.xowner = some q)
    (hm : s.cfg.minFrame ≤ params.length + 6) (hb : s.rxBuf = frameOf s.reqId code params)
    (hw : s.want = params.length + 6) :
    verifyFrame s = ended { s with rxBuf := [] } q fun x =>
      x.completeUnicast .success code (frameOf s.reqId code params) := by
  have hf : memRead s.rxBuf 0 s.want = frameOf s.reqId code params := by
    simp [memRead, hb, hw, List.take_of_length_le]
  have h2 : params.length + 6 - 3 = params.length + 3 := by omega
  have h3 : params.length + 6 - 1 = params.length + 5 := by omega
  simp only [verifyFrame, hf]
  rw [if_pos (by rw [hw, h2, h3, memRead_frameOf_body, frameOf_byteAt_checksum]),
    finishOk_of_match hq (by simp) (by simpa using hm)]
  simp

end Sys2Proof.Machine
end

