-- ==== Sys2Proof/Laws/Step.lean ====
section
/-!
SUPPORT. Laws of the schedule and the step: which moves there are, that the scheduler picks an enabled one and touches only
its own data, and what a step can be.
-/

namespace Sys2Proof.Machine

/-- The scheduler's own data: the state with other choices left and another draw counter. -/
def rescheduled (s : State) (sched : List Move) (draws : Nat) : State :=
  { s with env := { s.env with sched := sched, draws := draws } }

@[simp] theorem moves_rescheduled (s : State) (sched : List Move) (draws : Nat) :
    moves (rescheduled s sched draws) = moves s := rfl

/-- The enabled moves. -/
theorem mem_moves_iff (s : State) (m : Move) : m ∈ moves s ↔
    (m = .exchange ∧ (∀ p < s.ports.length, servable s p = false) ∧ exchangeReady s = true) ∨
    (∃ p, m = .serve p ∧ p < s.ports.length ∧ servable s p = true) ∨
    (∃ p, m = .issue p ∧ p < s.ports.length ∧ issueReady s p = true) ∨
    (m = .line ∧ engineIdle s = true ∧ s.env.lineIn ≠ [] ∧ lineRateAllows s = true) ∨
    (m = .clock ∧ engineIdle s = true) ∨
    (m = .reset ∧ 0 < s.env.resets) := by
  cases m <;> simp [moves, engineMoves, envMoves, commandsBegun, and_assoc]

theorem servable_iff (s : State) (p : Nat) :
    servable s p = true ↔ (∃ r, (portAt s p).pending = some r) ∧ s.xowner ≠ some p := by
  simp [servable, Option.isSome_iff_exists]

theorem issueReady_iff (s : State) (p : Nat) :
    issueReady s p = true ↔ (∃ r rest, s.env.hostIn[p]? = some (r :: rest)) ∧ (portAt s p).pending = none := by
  unfold issueReady hostQueue
  cases h : s.env.hostIn[p]? with
  | none => simp [List.getD, h]
  | some l => cases l <;> simp [List.getD, h]

/-- Issuing what the host hands over next: a command becomes pending, and nothing else can be issued (30_encoding.md R98,
R100). -/
theorem hostIssue_eq {s : State} {p : Nat} {r : Request} {rest : List Request} (h : s.env.hostIn[p]? = some (r :: rest)) :
    hostIssue s p =
      match decode r with
      | .command c => .next (issueCommand s p c rest)
      | .malformed e => .refused (.notIssuable e) := by
  cases hd : decode r <;> simp [hostIssue, hostQueue, List.getD, h, hd]

/-- An issue goes on exactly with a command. -/
theorem hostIssue_eq_next_iff {s t : State} {p : Nat} {r : Request} {rest : List Request}
    (h : s.env.hostIn[p]? = some (r :: rest)) :
    hostIssue s p = .next t ↔ ∃ c, decode r = .command c ∧ issueCommand s p c rest = t := by
  rw [hostIssue_eq h]
  cases decode r <;> simp

/-- No command waits to be begun: every pending one is the exchange in progress. -/
theorem not_servable_iff (s : State) : (∀ p < s.ports.length, servable s p = false) ↔
    ∀ p q, s.ports[p]? = some q → q.pending ≠ none → s.xowner = some p := by
  have at' : ∀ {p : Nat} {q : Port}, s.ports[p]? = some q → portAt s p = q := fun h => by simp [portAt, h]
  constructor
  · intro h p q hq hn
    by_contra hx
    have hs := (servable_iff s p).mpr ⟨by rw [at' hq]; exact Option.ne_none_iff_exists'.mp hn, hx⟩
    simp [h p (List.getElem?_eq_some_iff.mp hq).1] at hs
  · intro h p hlt
    by_contra hs
    obtain ⟨⟨r, hr⟩, hx⟩ := (servable_iff s p).mp (by simpa using hs)
    have hq : s.ports[p]? = some s.ports[p] := List.getElem?_eq_getElem hlt
    rw [at' hq] at hr
    exact hx (h p _ hq (by simp [hr]))

/-- Nothing of the Engine's is enabled: it has no exchange step, and every pending command is the exchange in progress. -/
theorem engineIdle_iff (s : State) :
    engineIdle s = true ↔ exchangeReady s = false ∧ ∀ p < s.ports.length, servable s p = false := by
  cases h : exchangeReady s <;> simp +contextual [engineIdle, engineMoves, commandsBegun, h, List.filter_eq_nil_iff]

/-- Some agent has a move: the Engine, else the Clock (log 13). -/
theorem moves_ne_nil (s : State) : moves s ≠ [] := by
  cases h : engineIdle s with
  | false => simp [moves, show engineMoves s ≠ [] by simpa [engineIdle] using h]
  | true => exact List.ne_nil_of_mem ((mem_moves_iff s .clock).mpr (.inr (.inr (.inr (.inr (.inl ⟨rfl, h⟩))))))

theorem pickMove_ne_none (s : State) : pickMove s ≠ none := by
  have free : pickFree s ≠ none := by
    unfold pickFree
    split <;> simp_all [moves_ne_nil]
  unfold pickMove
  split
  · exact free
  · split <;> simp [free]

/-- The scheduler picks an enabled move and touches only its own data; the draw counter never goes back. -/
theorem pickMove_eq_some {s s' : State} {m : Move} (h : pickMove s = some (m, s')) :
    m ∈ moves s ∧ ∃ sched draws, s.env.draws ≤ draws ∧ s' = rescheduled s sched draws := by
  have free : pickFree s = some (m, s') →
      m ∈ moves s ∧ ∃ sched draws, s.env.draws ≤ draws ∧ s' = rescheduled s sched draws := by
    intro h
    unfold pickFree at h
    split at h
    · cases h
    · rename_i m' hm
      cases h
      exact ⟨by simp [hm], s.env.sched, s.env.draws, le_rfl, rfl⟩
    · rename_i m' ms hm
      cases h
      refine ⟨?_, s.env.sched, s.env.draws + 1, by omega, rfl⟩
      rw [hm, List.getD_eq_getElem _ _ (by simpa using Nat.mod_lt _ (Nat.succ_pos _))]
      exact List.getElem_mem _
  unfold pickMove at h
  split at h
  · exact free h
  · rename_i m' rest _
    split at h
    · rename_i hm
      cases h
      exact ⟨hm, rest, s.env.draws, le_rfl, rfl⟩
    · exact free h

/-- A step is one enabled move. -/
theorem step_eq {s : State} (hw : s.cfg.wf) :
    ∃ m ∈ moves s, ∃ sched draws, s.env.draws ≤ draws ∧ step s = runMove m (rescheduled s sched draws) := by
  unfold step machineStep
  rw [if_pos hw]
  split
  · rename_i h
    exact absurd h (pickMove_ne_none s)
  · rename_i m s' hp
    obtain ⟨hm, sched, draws, hd, rfl⟩ := pickMove_eq_some hp
    exact ⟨m, hm, sched, draws, hd, rfl⟩

/-- A step that goes on is of legal parameters, and one enabled move. -/
theorem step_eq_next {s t : State} (h : step s = .next t) : s.cfg.wf ∧
    ∃ m ∈ moves s, ∃ sched draws, s.env.draws ≤ draws ∧ runMove m (rescheduled s sched draws) = .next t := by
  by_cases hw : s.cfg.wf
  · obtain ⟨m, hm, sched, draws, hd, e⟩ := step_eq hw
    exact ⟨hw, m, hm, sched, draws, hd, e ▸ h⟩
  · simp [step, machineStep, hw] at h

/-! Runs of the exchange, the Clock and the Line. -/

/-- A step whose move is known is that move. -/
theorem step_of_picked {s s' t : State} {m : Move} (hp : pickMove s = some (m, s')) (h : step s = .next t) :
    m ∈ moves s ∧ (∃ sched draws, s' = rescheduled s sched draws) ∧ runMove m s' = .next t := by
  obtain ⟨hm, sched, draws, -, hs⟩ := pickMove_eq_some hp
  refine ⟨hm, ⟨sched, draws, hs⟩, ?_⟩
  unfold step machineStep at h
  split at h
  · rw [hp] at h; exact h
  · cases h

/-- One run after another. -/
theorem LineRun.append {s t u : State} {d e : List Byte} (h : LineRun s d t) (h' : LineRun t e u) :
    LineRun s (d ++ e) u := by
  induction h' with
  | start => simpa using h
  | quiet _ hp hw hs ih => exact .quiet ih hp hw hs
  | line _ hp hb hs ih => rw [← List.append_assoc]; exact .line ih hp hb hs

/-- What holds at the start of such a run, and is kept by the scheduler's own data and by each of the three moves where it is
enabled, holds at its end. -/
theorem LineRun.keeps {s t : State} {delivered : List Byte} {P : List Byte → State → Prop} (run : LineRun s delivered t)
    (start : P [] s) (schedule : ∀ bs u sched draws, P bs u → P bs (rescheduled u sched draws))
    (exchange : ∀ bs u, P bs u → exchangeReady u = true → P bs (exchangeStep u))
    (clock : ∀ bs u, P bs u → engineIdle u = true → P bs (clockMove u))
    (line : ∀ bs u b rest, P bs u → engineIdle u = true → lineRateAllows u = true → u.env.lineIn = b :: rest →
      P (bs ++ [b]) (lineMove u)) : P delivered t := by
  induction run with
  | start => exact start
  | quiet _ picked who moved ih =>
    obtain ⟨hm, ⟨sched, draws, rfl⟩, he⟩ := step_of_picked picked moved
    rw [← moves_rescheduled _ sched draws, mem_moves_iff] at hm
    have h := schedule _ _ sched draws ih
    rcases who with rfl | rfl <;> simp only [runMove, Host.Outcome.next.injEq] at he <;> subst he
    · simp only [reduceCtorEq, false_and, exists_false, or_false, true_and] at hm
      exact exchange _ _ h hm.2
    · exact clock _ _ h (by simpa using hm)
  | line _ picked byte moved ih =>
    obtain ⟨hm, ⟨sched, draws, rfl⟩, he⟩ := step_of_picked picked moved
    rw [← moves_rescheduled _ sched draws, mem_moves_iff] at hm
    have h := schedule _ _ sched draws ih
    simp only [runMove, Host.Outcome.next.injEq] at he
    subst he
    simp only [reduceCtorEq, false_and, exists_false, false_or, or_false, true_and] at hm
    exact line _ _ _ _ h hm.1 hm.2.2 byte

/-- A FIFO has room when its depth, if any, is not reached (40_transport.md R131). -/
theorem fifoFull_eq_false_iff (s : State) : fifoFull s = false ↔ ∀ d, s.cfg.rxFifoDepth = some d → s.rxFifo.length < d := by
  unfold fifoFull
  split <;> simp_all

/-- The Line's delivery to an open line whose FIFO has room (40_transport.md R131). -/
theorem lineMove_of_room {s : State} {b : Byte} {rest : List Byte} (hb : s.env.lineIn = b :: rest)
    (ho : s.lineOpen = true) (hr : fifoFull s = false) :
    lineMove s = { s with rxFifo := s.rxFifo ++ [b], env := { s.env with lineIn := rest, lastRx := some s.now } } := by
  have deliver : ∀ u : State, u.lineOpen = true → fifoFull u = false →
      lineDeliver u b = { u with rxFifo := u.rxFifo ++ [b], env := { u.env with lastRx := some u.now } } := by
    intro u hu hf
    simp only [lineDeliver, hu, hf]
    rfl
  rw [lineMove, hb]
  exact deliver _ ho hr

/-- A delivery leaves `NOW`. -/
@[simp] theorem lineMove_now (s : State) : (lineMove s).now = s.now := by
  unfold lineMove
  split
  · rfl
  · unfold lineDeliver; split <;> rfl

/-- While the Engine waits in a receive, everything that arrived was pulled, and it is not enough (41_frame_codec.md
R144). -/
theorem waiting_of_not_ready {s : State} (ha : s.xstate = .awaitingResponse) (h : exchangeReady s = false) :
    s.rxFifo = [] ∧ s.rxBuf.length < s.want ∧ expired s = false := by
  simpa [exchangeReady, ha, and_assoc, and_comm, and_left_comm] using h

end Sys2Proof.Machine
end

