-- ==== Sys2Proof/Laws/Commands.lean ====
section
/-!
SUPPORT. What a command can do, said once for all of them: it completes on its own port alone, opens or closes the line, or
begins an exchange.
-/

namespace Sys2Proof.Machine

/-- The commands that can begin an exchange (42_request_response.md, 43_group_write.md R193, 45_wire_instructions.md). -/
inductive Begins : Command → Prop where
  | sendUnicast (id code : Byte) (params : List Byte) : Begins (.instr (.sendUnicast id code params))
  | sendBroadcast (code : Byte) (params : List Byte) : Begins (.instr (.sendBroadcast code params))
  | gwbSend : Begins (.instr .gwbSend)
  | ping (id : Byte) (params : List Byte) : Begins (.instr (.ping id params))
  | read (id : Byte) (params : List Byte) : Begins (.instr (.read id params))
  | write (id : Byte) (params : List Byte) : Begins (.instr (.write id params))
  | syncWrite (id : Byte) (params : List Byte) : Begins (.instr (.syncWrite id params))
  | otherWire (id code : Byte) (params : List Byte) : Begins (.otherWire id code params)

/-- What a command that completes at once makes of its port's registers. -/
inductive PortEffect (f : Command) (q : Port) : Port → Prop where
  | bool (b : Bool) : PortEffect f q (q.completeBool b)
  | done : PortEffect f q (q.complete {})
  | value (v : BitVec 32) : PortEffect f q (q.complete { value := some v })
  | code (c : CommResult) (hc : c ≠ .rxFail) (hw : c ≠ .rxWaiting) : PortEffect f q (q.completeCode c)
  | unicast (c : CommResult) (hc : c ≠ .rxFail) (hw : c ≠ .rxWaiting) : PortEffect f q (q.completeUnicast c 0 [])
  | gwbInit (addr width : Byte) (hf : f = .instr (.gwbInit addr width)) : PortEffect f q (q.gwbInit addr width)
  | gwbAdd (id : Byte) (data : List Byte) : PortEffect f q (q.gwbAdd id data)
  | gwbPayload : PortEffect f q q.gwbPayload

/-- What a command can do. -/
inductive CommandCase (f : Command) (s : State) : State → Prop where
  | atOnce (g : Port → Port) (hg : ∀ q, PortEffect f q (g q)) : CommandCase f s (onPort s s.port g)
  | openRefused (baud : BitVec 32) (hf : f = .instr (.openLine baud)) :
      CommandCase f s (onPort (drawOpen s).2 s.port fun q => q.completeBool false)
  | opened (baud : BitVec 32) (hf : f = .instr (.openLine baud)) (hb : s.busy = false) :
      CommandCase f s (openAccepted (drawOpen s).2 s.port baud)
  | closed (hf : f = .instr .closeLine) (hb : s.busy = false) :
      CommandCase f s (onPort { fifoFlush s with lineOpen := false } s.port fun q => q.complete {})
  | began (kind : XKind) (id code : Byte) (params : List Byte) (hf : Begins f) (hb : s.busy = false)
      (hfit : params.length + 6 ≤ s.cfg.txMaxLen) :
      CommandCase f s (begun s s.port kind id (frameOf id code params))

/-- An issued exchange, as a command. -/
theorem commandCase_issue {f : Command} (hf : Begins f) (s : State) (kind : XKind) (id code : Byte)
    (params : List Byte) : CommandCase f s (issueExchange s s.port kind id code params) := by
  have fail : ∀ c : CommResult, c ≠ .rxFail → c ≠ .rxWaiting → CommandCase f s (completeFail s s.port kind c) := by
    intro c hc hw
    rw [completeFail_eq_onPort]
    cases kind
    · exact .atOnce _ fun q => .unicast c hc hw
    · exact .atOnce _ fun q => .code c hc hw
  rcases issueExchange_cases s s.port kind id code params with h | h | h | h
  · rw [h.2.2]; exact fail _ (by simp) (by simp)
  · rw [h.2.2]; exact fail _ (by simp) (by simp)
  · rw [h.2.2.2]; exact fail _ (by simp) (by simp)
  · rw [h.2.2.2]; exact .began _ _ _ _ hf h.2.2.1 h.2.1

theorem commandCase_carry {f : Command} (hf : Begins f) (s : State) (id code : Byte) (params : List Byte) :
    CommandCase f s (carry id code params s.port s) := by
  unfold carry
  split <;> exact commandCase_issue hf _ _ _ _ _

/-- A command that goes on does so on a port that exists, in one of these ways. -/
theorem runCommand_cases {f : Command} {s t : State} (h : runCommand f s = .next t) :
    s.port < s.ports.length ∧ CommandCase f s t := by
  cases f with
  | instr i =>
    cases i with
    | openLine baud =>
      simp only [runCommand, exec, execOpenLine, command_eq_next_iff] at h
      obtain ⟨hp, rfl⟩ := h
      refine ⟨hp, ?_⟩
      unfold openCommand
      dsimp only
      split
      · exact .atOnce _ fun q => .bool false
      · rename_i hb
        split
        · exact .atOnce _ fun q => .bool false
        · split
          · exact .opened baud rfl (by simpa using hb)
          · exact .openRefused baud rfl
    | closeLine =>
      simp only [runCommand, exec, execCloseLine, command_eq_next_iff] at h
      obtain ⟨hp, rfl⟩ := h
      refine ⟨hp, ?_⟩
      unfold closeCommand
      split
      · exact .atOnce _ fun q => .done
      · rename_i hb
        exact .closed rfl (by simpa using hb)
    | readReg reg =>
      simp only [runCommand, exec, execReadReg, command_eq_next_iff] at h
      obtain ⟨hp, rfl⟩ := h
      exact ⟨hp, .atOnce _ fun q => .value _⟩
    | sendUnicast id code params =>
      simp only [runCommand, exec, execSendUnicast, command_eq_next_iff] at h
      obtain ⟨hp, rfl⟩ := h
      exact ⟨hp, commandCase_issue (.sendUnicast _ _ _) _ _ _ _ _⟩
    | sendBroadcast code params =>
      simp only [runCommand, exec, execSendBroadcast, command_eq_next_iff] at h
      obtain ⟨hp, rfl⟩ := h
      exact ⟨hp, commandCase_issue (.sendBroadcast _ _) _ _ _ _ _⟩
    | gwbInit addr width =>
      simp only [runCommand, exec, execGwbInit, command_eq_next_iff] at h
      obtain ⟨hp, rfl⟩ := h
      exact ⟨hp, .atOnce _ fun q => .gwbInit _ _ rfl⟩
    | gwbAdd id data =>
      simp only [runCommand, exec, execGwbAdd, command_eq_next_iff] at h
      obtain ⟨hp, rfl⟩ := h
      exact ⟨hp, .atOnce _ fun q => .gwbAdd _ _⟩
    | gwbPayload =>
      simp only [runCommand, exec, execGwbPayload, command_eq_next_iff] at h
      obtain ⟨hp, rfl⟩ := h
      exact ⟨hp, .atOnce _ fun q => .gwbPayload⟩
    | gwbSend =>
      simp only [runCommand, exec, execGwbSend, command_eq_next_iff] at h
      obtain ⟨hp, rfl⟩ := h
      refine ⟨hp, ?_⟩
      unfold gwbSendCommand
      dsimp only
      split
      · exact .atOnce _ fun q => .code _ (by simp) (by simp)
      · exact commandCase_issue .gwbSend _ _ _ _ _
    | ping id params =>
      simp only [runCommand, exec, execPing, command_eq_next_iff] at h
      obtain ⟨hp, rfl⟩ := h
      exact ⟨hp, commandCase_carry (.ping _ _) _ _ _ _⟩
    | read id params =>
      simp only [runCommand, exec, execRead, command_eq_next_iff] at h
      obtain ⟨hp, rfl⟩ := h
      exact ⟨hp, commandCase_carry (.read _ _) _ _ _ _⟩
    | write id params =>
      simp only [runCommand, exec, execWrite, command_eq_next_iff] at h
      obtain ⟨hp, rfl⟩ := h
      exact ⟨hp, commandCase_carry (.write _ _) _ _ _ _⟩
    | syncWrite id params =>
      simp only [runCommand, exec, execSyncWrite, command_eq_next_iff] at h
      obtain ⟨hp, rfl⟩ := h
      exact ⟨hp, commandCase_carry (.syncWrite _ _) _ _ _ _⟩
  | unassigned op =>
    simp only [runCommand, execUnassigned, command_eq_next_iff] at h
    obtain ⟨hp, rfl⟩ := h
    exact ⟨hp, .atOnce _ fun q => .code _ (by simp) (by simp)⟩
  | otherWire id code params =>
    simp only [runCommand, execOtherWire, command_eq_next_iff] at h
    obtain ⟨hp, rfl⟩ := h
    exact ⟨hp, commandCase_carry (.otherWire _ _ _) _ _ _ _⟩

/-- A command on a port that exists goes on. -/
theorem runCommand_goes_on {s : State} (f : Command) (hp : s.port < s.ports.length) :
    ∃ t, runCommand f s = .next t := by
  cases f with
  | instr i =>
    cases i <;>
      simp [runCommand, exec, execOpenLine, execCloseLine, execReadReg, execSendUnicast, execSendBroadcast, execGwbInit,
        execGwbAdd, execGwbPayload, execGwbSend, execPing, execRead, execWrite, execSyncWrite, command_of_port hp]
  | unassigned op => simp [runCommand, execUnassigned, command_of_port hp]
  | otherWire id code params => simp [runCommand, execOtherWire, command_of_port hp]

/-- A completed command has no pending command left on its port. -/
theorem PortEffect.pending {f : Command} {q q' : Port} (h : PortEffect f q q') : q'.pending = none := by
  cases h with
  | gwbAdd id data => unfold Port.gwbAdd; split <;> rfl
  | _ => rfl

/-- While an exchange holds the port, a command leaves that exchange and every other port (40_transport.md R123). -/
theorem CommandCase.keeps_exchange {f : Command} {s t : State} {p : Nat} (hc : CommandCase f s t) (hb : s.busy = true)
    (hp : s.port ≠ p) : t.busy = true ∧ t.xowner = s.xowner ∧ t.xstate = s.xstate ∧ t.ports[p]? = s.ports[p]? := by
  cases hc with
  | atOnce g hg => exact ⟨hb, rfl, rfl, by simp [onPort, hp]⟩
  | openRefused => unfold drawOpen; split <;> simp [onPort, hb, hp]
  | opened _ _ h => simp [hb] at h
  | closed _ h => simp [hb] at h
  | began _ _ _ _ _ h => simp [hb] at h

end Sys2Proof.Machine
end

