-- ==== Sys2Proof/Laws/Group.lean ====
section
/-!
SUPPORT. Laws of a port's registers: a well-kept group write buffer stays so, and fits `RES_DATA`.
-/

namespace Sys2Proof.Machine

/-- Distinct bytes are at most 256 (10_state.md R44). -/
theorem length_le_of_nodup {l : List Byte} (h : l.Nodup) : l.length ≤ 256 := by
  have hf : (l.map BitVec.toFin).Nodup := h.map fun a b h => BitVec.eq_of_toFin_eq h
  have := hf.length_le_card
  rwa [Fintype.card_fin, List.length_map] at this

/-- The payload of `k` entries of width `w` has `k * (1 + w)` bytes (43_group_write.md R192). -/
theorem payload_length {q : Port} (h : q.Ok) :
    q.payload.length = q.gwbEntries.length * (1 + q.gwbWidth.toNat) := by
  have key : ∀ l : List (Byte × List Byte), (∀ e ∈ l, e.2.length = q.gwbWidth.toNat) →
      (l.flatMap fun e => e.1 :: e.2).length = l.length * (1 + q.gwbWidth.toNat) := by
    intro l
    induction l with
    | nil => simp
    | cons a l ih =>
      intro hl
      have h1 := hl a (by simp)
      have h2 := ih fun e he => hl e (by simp [he])
      simp only [List.flatMap_cons, List.length_append, List.length_cons, h1, h2]
      ring
  exact key _ h.widths

/-- A payload fits `RES_LEN`'s range (10_state.md R41, 43_group_write.md R192). -/
theorem payload_length_le {q : Port} (h : q.Ok) : q.payload.length ≤ 65536 := by
  have h1 : q.gwbEntries.length ≤ 256 := by simpa [Port.gwbIds] using length_le_of_nodup h.idsDistinct
  have h2 := q.gwbWidth.isLt
  calc q.payload.length = _ := payload_length h
    _ ≤ 256 * 256 := Nat.mul_le_mul h1 (by omega)
    _ = 65536 := rfl

theorem Port.Ok.complete {q : Port} (h : q.Ok) (r : Completion) : (q.complete r).Ok :=
  ⟨h.idsDistinct, h.widths, h.resLen⟩

theorem Port.Ok.completeBool {q : Port} (h : q.Ok) (b : Bool) : (q.completeBool b).Ok :=
  ⟨h.idsDistinct, h.widths, h.resLen⟩

theorem Port.Ok.completeCode {q : Port} (h : q.Ok) (c : CommResult) : (q.completeCode c).Ok :=
  ⟨h.idsDistinct, h.widths, h.resLen⟩

theorem Port.Ok.completeUnicast {q : Port} (h : q.Ok) (c : CommResult) (err : Byte) {data : List Byte}
    (hd : data.length ≤ 65536) : (q.completeUnicast c err data).Ok :=
  ⟨h.idsDistinct, h.widths, hd⟩

/-- GWB_ADD keeps ids distinct and widths equal (43_group_write.md R191). -/
theorem Port.Ok.gwbAdd {q : Port} (h : q.Ok) (id : Byte) (data : List Byte) : (q.gwbAdd id data).Ok := by
  unfold Port.gwbAdd
  split
  · exact h.completeBool _
  · rename_i hr
    simp only [Port.gwbRejects, Bool.or_eq_true, not_or, List.contains_iff_mem, decide_eq_true_eq, not_not] at hr
    refine Port.Ok.completeBool (q := { q with gwbEntries := q.gwbEntries ++ [(id, data)] }) ⟨?_, ?_, h.resLen⟩ _
    · have h0 := h.idsDistinct
      have hn := hr.1.2
      simp only [Port.gwbIds] at hn h0 ⊢
      rw [List.map_append, List.nodup_append]
      refine ⟨h0, by simp, ?_⟩
      rintro a ha b hb rfl
      simp only [List.map_cons, List.map_nil, List.mem_singleton] at hb
      exact hn (hb ▸ ha)
    · intro e he
      rcases List.mem_append.mp he with he | he
      · exact h.widths e he
      · simp only [List.mem_singleton] at he
        subst he
        exact hr.2

/-- A command that completes at once keeps its port's registers well kept. -/
theorem PortEffect.ok {f : Command} {q q' : Port} (h : PortEffect f q q') (hq : q.Ok) : q'.Ok := by
  cases h with
  | bool b => exact hq.completeBool b
  | done => exact hq.complete _
  | value v => exact hq.complete _
  | code c _ _ => exact hq.completeCode _
  | unicast c _ _ => exact hq.completeUnicast _ _ (by simp)
  | gwbInit addr width _ =>
    exact ⟨by simp [Port.gwbInit, Port.complete, Port.gwbIds], by simp [Port.gwbInit, Port.complete], hq.resLen⟩
  | gwbAdd id data => exact hq.gwbAdd id data
  | gwbPayload =>
    exact Port.Ok.complete (q := { q with resData := q.payload }) ⟨hq.idsDistinct, hq.widths, payload_length_le hq⟩ _

end Sys2Proof.Machine
end

