-- ==== Sys2Proof/Laws/PerInstr.lean ====
section
/-!
SUPPORT. The per-instruction family `Code`: where the encoding of each instruction carries its code byte, with the value of
spec/opcode_table.json: byte 0 of a host command (30_encoding.md R98, R99), byte 4 of a request frame (R82, R91), whose
length byte and size agree wherever the instruction is well formed (R84).
-/

namespace Sys2Proof.Laws.Code

open Sys2Proof Sys2Proof.Machine

/-- The match value of the instruction's row in spec/opcode_table.json. -/
def tableCode : Instr → Byte
  | .openLine _ => 0x01
  | .closeLine => 0x02
  | .readReg _ => 0x03
  | .sendUnicast _ _ _ => 0x10
  | .sendBroadcast _ _ => 0x11
  | .gwbInit _ _ => 0x20
  | .gwbAdd _ _ => 0x21
  | .gwbPayload => 0x22
  | .gwbSend => 0x23
  | .ping _ _ => 0x01
  | .read _ _ => 0x02
  | .write _ _ => 0x03
  | .syncWrite _ _ => 0x83

/-- The code byte stands where the encoding puts it, and a frame is as long as its length byte says. -/
def Statement (i : Instr) : Prop :=
  match encode i with
  | .host message => message.head? = some (tableCode i)
  | .wire frame => frame[4]? = some (tableCode i) ∧
      (i.WellFormed → ∃ len, frame[3]? = some len ∧ frame.length = len.toNat + 4)

theorem openLine (baud : BitVec 32) : Statement (.openLine baud) := rfl
theorem closeLine : Statement .closeLine := rfl
theorem readReg (reg : BitVec 32) : Statement (.readReg reg) := rfl
theorem sendUnicast (id instr : Byte) (params : List Byte) : Statement (.sendUnicast id instr params) := rfl
theorem sendBroadcast (instr : Byte) (params : List Byte) : Statement (.sendBroadcast instr params) := rfl
theorem gwbInit (addr width : Byte) : Statement (.gwbInit addr width) := rfl
theorem gwbAdd (id : Byte) (data : List Byte) : Statement (.gwbAdd id data) := rfl
theorem gwbPayload : Statement .gwbPayload := rfl
theorem gwbSend : Statement .gwbSend := rfl

/-- A frame whose params fit is as long as its length byte says (30_encoding.md R84). -/
theorem frame_length_field (id code : Byte) (params : List Byte) (h : frameParamsFit params) :
    ∃ len, (frameOf id code params)[3]? = some len ∧ (frameOf id code params).length = len.toNat + 4 := by
  have h256 : params.length + 2 < 256 := by unfold frameParamsFit at h; omega
  refine ⟨lenByte (params.length + 2), rfl, ?_⟩
  simp [frameOf, frameBody, lenByte, h256]
  omega

theorem ping (id : Byte) (params : List Byte) : Statement (.ping id params) :=
  ⟨rfl, frame_length_field _ _ _⟩
theorem read (id : Byte) (params : List Byte) : Statement (.read id params) :=
  ⟨rfl, frame_length_field _ _ _⟩
theorem write (id : Byte) (params : List Byte) : Statement (.write id params) :=
  ⟨rfl, frame_length_field _ _ _⟩
theorem syncWrite (id : Byte) (params : List Byte) : Statement (.syncWrite id params) :=
  ⟨rfl, frame_length_field _ _ _⟩

end Sys2Proof.Laws.Code
end

