-- ==== Sys2Proof/Laws/Progress.lean ====
section
/-!
SUPPORT. What every step uses up: future inputs, pending commands, the phases of an exchange, the bytes of a receive. So only
the Clock, once it draws freely, can move for ever (40_transport.md R135, 70_reset_and_hazards.md R284).
-/

namespace Sys2Proof.Machine

/-! What is left to do. -/

/-- How many inputs are recorded for the future. -/
def inputsLeft (s : State) : Nat :=
  (s.env.hostIn.map List.length).sum + s.env.lineIn.length + s.env.clockIn.length + s.env.resets

/-- How many commands are pending. -/
def commandsLeft (s : State) : Nat := s.ports.countP fun q => q.pending.isSome

/-- How many phases an exchange has before it: begin, transmit, receive. -/
def phasesLeft (s : State) : Nat :=
  match s.xstate with
  | .idle => 2
  | .sending => 1
  | .awaitingResponse => 0

/-- Whether the target length has been set from the header at offset 0 (41_frame_codec.md R152). -/
def targetSet (s : State) : Bool := decide (findHeader s.rxBuf = some 0 ∧ s.want = (byteAt s.rxBuf 3).toNat + 4)

/-- What a receive has before it while no byte is delivered (41_frame_codec.md R154): a pull moves a byte from the FIFO to the
buffer, a discard shortens the buffer, and the target is set once. -/
def receiveLeft (s : State) : Nat := 4 * s.rxFifo.length + 2 * s.rxBuf.length + (if targetSet s then 0 else 1)

/-- What the machine has before it, the most significant first. -/
def workLeft (s : State) : Nat ×ₗ Nat ×ₗ Nat ×ₗ Nat :=
  toLex (inputsLeft s, toLex (commandsLeft s, toLex (phasesLeft s, receiveLeft s)))

theorem workLeft_lt_of_inputs {s t : State} (h : inputsLeft t < inputsLeft s) : workLeft t < workLeft s :=
  Prod.Lex.toLex_lt_toLex.mpr (.inl h)

theorem workLeft_lt_of_commands {s t : State} (hi : inputsLeft t = inputsLeft s) (h : commandsLeft t < commandsLeft s) :
    workLeft t < workLeft s :=
  Prod.Lex.toLex_lt_toLex.mpr (.inr ⟨hi, Prod.Lex.toLex_lt_toLex.mpr (.inl h)⟩)

theorem workLeft_lt_of_phases {s t : State} (hi : inputsLeft t = inputsLeft s) (hc : commandsLeft t = commandsLeft s)
    (h : phasesLeft t < phasesLeft s) : workLeft t < workLeft s :=
  Prod.Lex.toLex_lt_toLex.mpr (.inr ⟨hi, Prod.Lex.toLex_lt_toLex.mpr (.inr ⟨hc, Prod.Lex.toLex_lt_toLex.mpr (.inl h)⟩)⟩)

theorem workLeft_lt_of_receive {s t : State} (hi : inputsLeft t = inputsLeft s) (hc : commandsLeft t = commandsLeft s)
    (hp : phasesLeft t = phasesLeft s) (h : receiveLeft t < receiveLeft s) : workLeft t < workLeft s :=
  Prod.Lex.toLex_lt_toLex.mpr (.inr ⟨hi, Prod.Lex.toLex_lt_toLex.mpr (.inr ⟨hc, Prod.Lex.toLex_lt_toLex.mpr (.inr ⟨hp, h⟩)⟩)⟩)

/-! Lists. -/

/-- A port whose pending command completes leaves one pending command less. -/
theorem countP_modify_lt {f : Port → Port} (hf : ∀ q, (f q).pending = none) :
    ∀ {ps : List Port} {p : Nat} {q : Port}, ps[p]? = some q → q.pending.isSome = true →
      (ps.modify p f).countP (fun q => q.pending.isSome) < ps.countP fun q => q.pending.isSome
  | [], _, _, h, _ => by simp at h
  | q :: ps, 0, _, h, hq => by
    obtain rfl : q = _ := by simpa using h
    simp [List.modify_zero_cons, hf, hq]
  | r :: ps, p + 1, _, h, hq => by
    have ih := countP_modify_lt hf (ps := ps) (p := p) (by simpa using h) hq
    simp only [List.modify_succ_cons, List.countP_cons]
    omega

/-- A host that issues has one request less to issue. -/
theorem sum_length_set_lt : ∀ {l : List (List Request)} {p : Nat} {r : Request} {rest : List Request},
    l[p]? = some (r :: rest) → ((l.set p rest).map List.length).sum < (l.map List.length).sum
  | [], _, _, _, h => by simp at h
  | a :: l, 0, r, rest, h => by
    obtain rfl : a = r :: rest := by simpa using h
    simp
  | a :: l, p + 1, r, rest, h => by
    have ih := sum_length_set_lt (l := l) (p := p) (r := r) (rest := rest) (by simpa using h)
    simpa using ih

/-! The exchange. -/

theorem commandsLeft_ended_lt {s : State} {q : Nat} {x : Port} {f : Port → Port} (hx : s.ports[q]? = some x)
    (hp : x.pending.isSome = true) (hf : ∀ y, (f y).pending = none) : commandsLeft (ended s q f) < commandsLeft s :=
  countP_modify_lt hf hx hp

/-- A receive step that does not end the receive, where the Engine has one, leaves less to receive. -/
theorem receiveStep_progress {s : State} (h : Receiving s) (hr : exchangeReady s = true) :
    (∃ q f t, s.xowner = some q ∧ receiveStep s = ended t q f ∧ t.ports = s.ports ∧ t.env = s.env ∧
      ∀ x, (f x).pending = none) ∨
    ((receiveStep s).xstate = .awaitingResponse ∧ (receiveStep s).ports = s.ports ∧ (receiveStep s).env = s.env ∧
      receiveLeft (receiveStep s) < receiveLeft s) := by
  obtain ⟨q, hq⟩ := h.owned
  have ite_le : ∀ t : State, (if targetSet t then 0 else 1) ≤ 1 := fun t => by split <;> omega
  have shorter : ∀ (k : Nat), 0 < k → 2 ≤ s.rxBuf.length →
      receiveLeft { s with rxBuf := s.rxBuf.drop k } < receiveLeft s := by
    intro k hk hl
    have := ite_le { s with rxBuf := s.rxBuf.drop k }
    simp only [receiveLeft, List.length_drop] at this ⊢
    omega
  have hc := receiveStep_cases hq
  generalize receiveStep s = t at hc
  cases hc with
  | wait hlt hf he =>
    simp only [exchangeReady, h.awaiting, hf, he] at hr
    simp at hr
    omega
  | pull b rest hlt hf =>
    refine .inr ⟨h.awaiting, rfl, rfl, ?_⟩
    have := ite_le { s with rxFifo := rest, rxBuf := s.rxBuf ++ [b] }
    simp only [receiveLeft, hf, List.length_append, List.length_cons, List.length_nil] at this ⊢
    omega
  | expireEmpty => exact .inl ⟨q, _, _, hq, rfl, rfl, rfl, fun x => rfl⟩
  | expirePartial => exact .inl ⟨q, _, _, hq, rfl, rfl, rfl, fun x => rfl⟩
  | noHeaderExpired => exact .inl ⟨q, _, _, hq, rfl, rfl, rfl, fun x => rfl⟩
  | noHeader hle hh he =>
    have h6 := h.six_le hle
    exact .inr ⟨h.awaiting, rfl, rfl, shorter _ (by omega) (by omega)⟩
  | later i hle hh =>
    have h6 := h.six_le hle
    exact .inr ⟨h.awaiting, rfl, rfl, shorter _ (by omega) (by omega)⟩
  | spurious hle hh hs =>
    have h6 := h.six_le hle
    exact .inr ⟨h.awaiting, rfl, rfl, shorter _ (by omega) (by omega)⟩
  | setLength hle hh hi hl hw =>
    refine .inr ⟨h.awaiting, rfl, rfl, ?_⟩
    simp [receiveLeft, targetSet, hh, hw]
  | verify =>
    rcases verifyFrame_cases hq with ⟨e, -⟩ | e
    · exact .inl ⟨q, _, _, hq, e, rfl, rfl, fun x => rfl⟩
    · exact .inl ⟨q, _, _, hq, e, rfl, rfl, fun x => rfl⟩

theorem inputsLeft_writeTx (s : State) : inputsLeft (writeTx s).2 = inputsLeft s := by
  unfold writeTx drawWrite
  split
  · dsimp only
    split <;> rfl
  · rfl

/-- The Engine's step of the exchange in progress, where it has one, leaves less to do. -/
theorem exchangeStep_workLeft_lt {s : State} (h : MachineInv s) (hr : exchangeReady s = true) :
    workLeft (exchangeStep s) < workLeft s := by
  cases hx : s.xstate with
  | idle => simp [exchangeReady, hx] at hr
  | sending =>
    have hb : s.busy = true := h.exchange.busy.mpr (by simp [hx])
    obtain ⟨q, hq⟩ := Option.ne_none_iff_exists'.mp (h.exchange.owner.mp hb)
    obtain ⟨hlt, r, hpend, -⟩ := h.exchange.ownerPending q hq
    have ends : ∀ f : Port → Port, (∀ y, (f y).pending = none) →
        workLeft (ended (writeTx s).2 q f) < workLeft s := fun f hf =>
      workLeft_lt_of_commands (inputsLeft_writeTx s)
        (countP_modify_lt hf (by rw [writeTx_ports]; exact getElem?_portAt hlt) (by simp [hpend]) |>.trans_eq
          (by rw [writeTx_ports]; rfl))
    rw [exchangeStep_sending hx]
    rcases txDone_cases hq with ⟨-, -, e⟩ | ⟨-, -, e⟩ | ⟨-, -, e⟩ | ⟨-, -, e⟩ <;> rw [e]
    · exact ends _ fun y => rfl
    · exact ends _ fun y => rfl
    · exact ends _ fun y => rfl
    · exact workLeft_lt_of_phases (inputsLeft_writeTx s)
        (by simp [commandsLeft, parseStart, startTimer]) (by simp [phasesLeft, parseStart, hx])
  | awaitingResponse =>
    rw [exchangeStep_awaiting hx]
    rcases receiveStep_progress (h.receiving hx) hr with ⟨q, f, t, hq, e, hp, he, hf⟩ | ⟨ha, hp, he, hl⟩
    · obtain ⟨hlt, r, hpend, -⟩ := h.exchange.ownerPending q hq
      rw [e]
      refine workLeft_lt_of_commands (by simp [inputsLeft, ended, he]) ?_
      have := commandsLeft_ended_lt (s := t) (by rw [hp]; exact getElem?_portAt hlt) (by simp [hpend]) hf
      simpa [commandsLeft, hp] using this
    · exact workLeft_lt_of_receive (by simp [inputsLeft, he]) (by simp [commandsLeft, hp])
        (by simp [phasesLeft, ha, hx]) hl

/-! Commands. -/

/-- A command that the Engine begins leaves less to do. -/
theorem serve_workLeft_lt {s t : State} {p : Nat} (h : MachineInv s) (hp : p < s.ports.length)
    (hs : servable s p = true) (ht : serve p s = .next t) : workLeft t < workLeft s := by
  obtain ⟨⟨r, hr⟩, -⟩ := (servable_iff s p).mp hs
  unfold serve at ht
  rw [hr] at ht
  have hg := getElem?_portAt hp
  have done : ∀ (u : State) (g : Port → Port), inputsLeft u = inputsLeft s → u.ports = s.ports →
      (∀ q, (g q).pending = none) → workLeft (onPort u p g) < workLeft s := by
    intro u g hu hports hpend
    refine workLeft_lt_of_commands hu ?_
    have := countP_modify_lt hpend hg (by simp [hr])
    simpa [commandsLeft, hports] using this
  cases (runCommand_cases ht).2 with
  | atOnce g hg => exact done { s with port := p } g rfl rfl fun q => (hg q).pending
  | openRefused baud hf =>
    refine done _ _ ?_ (by simp) fun q => rfl
    unfold drawOpen; split <;> rfl
  | opened baud hf hb =>
    refine done { fifoFlush (drawOpen { s with port := p }).2 with
      lineOpen := true, baud := baud, msPerByte := lineTime _ baud, env := { (drawOpen _).2.env with lastRx := _ } } _ ?_
      (by simp) fun q => rfl
    unfold drawOpen; split <;> rfl
  | closed hf hb => exact done { fifoFlush { s with port := p } with lineOpen := false } _ rfl rfl fun q => rfl
  | began kind id code params hf hb hfit =>
    have hidle : s.xstate = .idle := by
      by_contra hne
      have := h.exchange.busy.mpr hne
      simp_all
    exact workLeft_lt_of_phases rfl rfl (by simp [phasesLeft, begun, hidle])

/-! Every step. -/

/-- The scheduler's own data is no part of the invariant. -/
theorem MachineInv.rescheduled {s : State} (h : MachineInv s) (sched : List Move) (draws : Nat) :
    MachineInv (rescheduled s sched draws) :=
  ⟨h.params, h.ports, h.portOk, ⟨h.exchange.busy, h.exchange.owner, h.exchange.ownerPending, h.exchange.sending,
    h.exchange.started⟩, ⟨h.receive.buffer, h.receive.target, h.receive.header, h.receive.fifo⟩⟩

/-- A step leaves less to do, or it is a free draw of the Clock, which adds nothing to do (40_transport.md R135). -/
theorem step_progress {s t : State} (h : MachineInv s) (hs : step s = .next t) :
    workLeft t < workLeft s ∨
    (workLeft t = workLeft s ∧ s.env.clockIn = [] ∧
      ∃ sched draws, s.env.draws ≤ draws ∧ t = clockMove (rescheduled s sched draws)) := by
  obtain ⟨-, m, hm, sched, draws, hd, hs⟩ := step_eq_next hs
  have hinv := h.rescheduled sched draws
  have hload : workLeft (Machine.rescheduled s sched draws) = workLeft s := rfl
  rw [← moves_rescheduled s sched draws, mem_moves_iff] at hm
  rw [← hload, show s.env.clockIn = (Machine.rescheduled s sched draws).env.clockIn from rfl]
  rcases hm with ⟨rfl, -, hr⟩ | ⟨p, rfl, hp, hr⟩ | ⟨p, rfl, hp, hr⟩ | ⟨rfl, -, hr, -⟩ | ⟨rfl, -⟩ | ⟨rfl, hr⟩
  · simp only [runMove, Host.Outcome.next.injEq] at hs
    exact .inl (hs ▸ exchangeStep_workLeft_lt hinv hr)
  · exact .inl (serve_workLeft_lt hinv hp hr hs)
  · simp only [runMove] at hs
    obtain ⟨⟨r, rest, hq⟩, -⟩ := (issueReady_iff _ p).mp hr
    obtain ⟨c, -, rfl⟩ := (hostIssue_eq_next_iff hq).mp hs
    refine .inl (workLeft_lt_of_inputs ?_)
    have := sum_length_set_lt hq
    simp only [issueCommand, inputsLeft]
    omega
  · simp only [runMove, Host.Outcome.next.injEq] at hs
    refine .inl (hs ▸ workLeft_lt_of_inputs ?_)
    obtain ⟨b, rest, hb⟩ := List.exists_cons_of_ne_nil hr
    simp only [lineMove, hb, lineDeliver, inputsLeft]
    split <;> simp
  · simp only [runMove, Host.Outcome.next.injEq] at hs
    rcases drawTime_cases (Machine.rescheduled s sched draws) with ⟨u, rest, hu, -, e⟩ | ⟨-, e⟩
    · refine .inl (hs ▸ workLeft_lt_of_inputs ?_)
      simp [clockMove, e, inputsLeft, hu]
    · cases hc : (Machine.rescheduled s sched draws).env.clockIn with
      | cons u rest =>
        refine .inl (hs ▸ workLeft_lt_of_inputs ?_)
        simp [clockMove, e, inputsLeft, hc]
      | nil =>
        refine .inr ⟨?_, rfl, sched, draws, hd, hs.symm⟩
        rw [← hs]
        simp only [clockMove, e, workLeft, inputsLeft, hc]
        rfl
  · simp only [runMove, Host.Outcome.next.injEq] at hs
    refine .inl (hs ▸ workLeft_lt_of_inputs ?_)
    simp only [resetMove, resetBlock, State.resetWith, inputsLeft]
    omega

/-! Runs. -/

/-- A run of `k + 1` steps whose first goes on is a run of `k` steps from there. -/
theorem run_succ_of_step (M : Host.Core) (k : Nat) {s t : M.State} (h : M.step s = .next t) :
    M.run (k + 1) s = M.run k t := by
  change (match M.step s with | .next s' => M.run k s' | .fault r => .fault r | .refused r => .refused r) = _
  rw [h]

/-- A run of one step that goes on is that step. -/
theorem step_of_run_one (M : Host.Core) {s t : M.State} (h : M.run 1 s = .next t) : M.step s = .next t := by
  change (match M.step s with | .next u => M.run 0 u | .fault r => .fault r | .refused r => .refused r) = _ at h
  cases hs : M.step s <;> rw [hs] at h <;> exact h

end Sys2Proof.Machine
end

