-- ==== Sys2Proof/Tests/Slice0.lean ====
section
/-!
SUPPORT. The model's own tests: ill-formed instructions refused, every constructor's decoding shown by a written-out word,
single steps against the vectors of 95_test_vectors.md, and for every obligation with hypotheses a witness that meets them.
Expected values come from the spec: each test names its vector or rule.
-/

namespace Sys2Proof.Tests

open Sys2Proof Sys2Proof.Machine

/-! One theorem after another: these evaluations side by side take more threads, each with its stack, than they save. -/
set_option Elab.async false

/-! Helpers: small states of an instance with two ports and no OPEN parameter left open. -/

/-- The defaults of 00_scope.md R6, two ports, an unbounded FIFO. -/
def cfg : Params :=
  { bitsPerByte := 10, latencyMs := 16, timeoutExtraMs := 2, respMargin := 10, txMaxLen := 250, rxMaxLen := 250,
    minFrame := 6, rxIdMax := 0xFD, endian := .little, hostPorts := 2, rxFifoDepth := none, accAddr := 41,
    modePosition := 0, modeWheel := 1 }

/-- After reset, with an environment that accepts one OPEN. -/
def closed : State := State.resetWith cfg 5 { Env.start with openDraws := [true] }

/-- After reset, with an environment that refuses one OPEN. -/
def refusing : State := State.resetWith cfg 5 { Env.start with openDraws := [false] }

/-- An idle line open at 1000000 (V-TR-2). -/
def idle : State := { closed with lineOpen := true, baud := 1000000, msPerByte := 1 / 100 }

/-- The WRITE request of E1. -/
def writeE1 : List Byte := [0xFF, 0xFF, 0x01, 0x05, 0x03, 0x2A, 0x00, 0x01, 0xCB]

/-- The acknowledgement of V-RX-1. -/
def ack : List Byte := [0xFF, 0xFF, 0x01, 0x02, 0x00, 0xFC]

/-- The host message that sends E1's frame. -/
def sendE1 : Request := .host [0x10, 0x01, 0x03, 0x2A, 0x00, 0x01]

/-- The command of that message. -/
def unicastE1 : Command := .instr (.sendUnicast 1 0x03 [0x2A, 0x00, 0x01])

/-- Port 1's exchange owns the block: a unicast of E1's frame, in `Sending`, of which the line takes `n` bytes. -/
def sending (n : Nat) : State :=
  { idle with
    busy := true, xowner := some 1, xstate := .sending, xkind := .unicast, reqId := 1, txBuf := writeE1
    ports := [Port.reset, { Port.reset with pending := some unicastE1 }]
    env := { Env.start with writeDraws := [n] } }

/-- The same for a broadcast. -/
def sendingBroadcast (n : Nat) : State :=
  { sending n with xkind := .broadcast, reqId := 0xFE, txBuf := [0xFF, 0xFF, 0xFE, 0x04, 0x03, 0x28, 0x00, 0xD2] }

/-- Port 1's unicast to id 1 awaits its response since time 0, for 341/10 ms. -/
def awaiting (buf fifo : List Byte) (want : Nat) (now : Millis) : State :=
  { sending 9 with
    xstate := .awaitingResponse, rxBuf := buf, rxFifo := fifo, want := want, tStart := 0, tDur := 341 / 10
    reqExpect := 10, now := now }

/-- Port 0 has a group write buffer of the two entries of E2. -/
def grouped : State :=
  { idle with
    ports := [{ Port.reset with
      gwbValid := true, gwbAddr := 42, gwbWidth := 2, gwbEntries := [(7, [0x00, 0x02]), (9, [0x00, 0x04])] }, Port.reset] }

/-- The next state, if there is one. -/
def next? (o : Host.Outcome State Fault Refusal) : Option State :=
  match o with
  | .next t => some t
  | .fault _ => none
  | .refused _ => none

/-- What is left of port `p` in the next state. -/
def portAfter (o : Host.Outcome State Fault Refusal) (p : Nat) : Option Port := (next? o).bind fun t => t.ports[p]?

/-! Well-formedness: each check refuses an ill-formed term, and admits the longest params. -/

theorem test_wellFormed_ping : ¬(Instr.ping 1 (List.replicate 254 0)).WellFormed := by decide +kernel
theorem test_wellFormed_read : ¬(Instr.read 1 (List.replicate 254 0)).WellFormed := by decide +kernel
theorem test_wellFormed_write : ¬(Instr.write 1 (List.replicate 254 0)).WellFormed := by decide +kernel
theorem test_wellFormed_syncWrite : ¬(Instr.syncWrite 0xFE (List.replicate 254 0)).WellFormed := by decide +kernel
theorem test_wellFormed_longest : (Instr.write 1 (List.replicate 253 0)).WellFormed := by decide +kernel

/-! Decoding: one written-out word for each constructor (30_encoding.md R99, R82; 95_test_vectors.md). -/

theorem test_decode_open : decode (.host [0x01, 0x40, 0x42, 0x0F, 0x00]) = .command (.instr (.openLine 1000000)) := by decide
theorem test_decode_close : decode (.host [0x02]) = .command (.instr .closeLine) := by decide
theorem test_decode_readReg : decode (.host [0x03, 0x05, 0x00, 0x01, 0x00]) = .command (.instr (.readReg 0x10005)) := by decide
theorem test_decode_sendUnicast : decode sendE1 = .command (.instr (.sendUnicast 1 0x03 [0x2A, 0x00, 0x01])) := by decide
theorem test_decode_sendBroadcast :
    decode (.host [0x11, 0x03, 0x28, 0x00]) = .command (.instr (.sendBroadcast 0x03 [0x28, 0x00])) := by decide
theorem test_decode_gwbInit : decode (.host [0x20, 0x2A, 0x02]) = .command (.instr (.gwbInit 42 2)) := by decide
theorem test_decode_gwbAdd : decode (.host [0x21, 0x07, 0x00, 0x02]) = .command (.instr (.gwbAdd 7 [0x00, 0x02])) := by decide
theorem test_decode_gwbPayload : decode (.host [0x22]) = .command (.instr .gwbPayload) := by decide
theorem test_decode_gwbSend : decode (.host [0x23]) = .command (.instr .gwbSend) := by decide
theorem test_decode_ping : decode (.wire [0xFF, 0xFF, 0x01, 0x02, 0x01, 0xFB]) = .command (.instr (.ping 1 [])) := by decide
theorem test_decode_read :
    decode (.wire [0xFF, 0xFF, 0x01, 0x04, 0x02, 0x38, 0x02, 0xBE]) = .command (.instr (.read 1 [0x38, 0x02])) := by decide
theorem test_decode_write : decode (.wire writeE1) = .command (.instr (.write 1 [0x2A, 0x00, 0x01])) := by decide
theorem test_decode_syncWrite :
    decode (.wire [0xFF, 0xFF, 0xFE, 0x0A, 0x83, 0x2A, 0x02, 0x07, 0x00, 0x02, 0x09, 0x00, 0x04, 0x32]) =
      .command (.instr (.syncWrite 0xFE [0x2A, 0x02, 0x07, 0x00, 0x02, 0x09, 0x00, 0x04])) := by decide

/-! Decoding rejects by name (30_encoding.md R98, R84, R86, R103). -/

theorem test_decode_empty : decode (.host []) = .malformed .emptyMessage := by decide
theorem test_decode_short_open : decode (.host [0x01, 0x40, 0x42, 0x0F]) = .malformed (.badOperands 0x01) := by decide
theorem test_decode_bad_checksum :
    decode (.wire [0xFF, 0xFF, 0x01, 0x02, 0x01, 0xFA]) = .malformed .badChecksum := by decide
theorem test_decode_bad_length :
    decode (.wire [0xFF, 0xFF, 0x01, 0x03, 0x01, 0xFB]) = .malformed .badLength := by decide
theorem test_decode_bad_header :
    decode (.wire [0xFF, 0xFE, 0x01, 0x02, 0x01, 0xFB]) = .malformed .badHeader := by decide
theorem test_decode_unassigned : decode (.host [0x04]) = .command (.unassigned 0x04) := by decide
theorem test_decode_other_wire : decode (.wire [0xFF, 0xFF, 0x00, 0x02, 0x00, 0xFD]) = .command (.otherWire 0 0 []) := by decide

/-! The table's words (spec/opcode_table.json): decoded, and run as the first instruction after reset. -/

theorem test_table_words_decode :
    ([0x01, 0x02, 0x03, 0x10, 0x11, 0x20, 0x21, 0x22, 0x23, 0x83] : List Nat).map (decodeTableWord 8) =
      [some (.openLine 0), some .closeLine, some (.readReg 0), some (.sendUnicast 0 0 []), some (.sendBroadcast 0 []),
        some (.gwbInit 0 0), some (.gwbAdd 0 []), some .gwbPayload, some .gwbSend, some (.syncWrite 0xFE [])] := by decide

theorem test_table_word_runs_first :
    step (State.reset.withFetchWord 8 0x02) =
      exec .closeLine { State.reset.withFetchWord 8 0x02 with env := Env.start, port := 0 } := by rfl

/-! Checksum and build (V-CK-1 to V-CK-7, V-BF-1, V-BF-5 to V-BF-11). -/

theorem test_checksum_vectors :
    checksum [0x01, 0x05, 0x03, 0x2A, 0x00, 0x01] = 0xCB ∧ checksum [] = 0xFF ∧ checksum [0xFF] = 0x00 ∧
      checksum [0x01, 0xFE] = 0x00 ∧ checksum [0x80, 0x80] = 0xFF ∧ checksum [0x01, 0x02, 0x00] = 0xFC ∧
      checksum [0xFE, 0x0A, 0x83, 0x2A, 0x02, 0x07, 0x00, 0x02, 0x09, 0x00, 0x04] = 0x32 := by decide

theorem test_build_vectors :
    buildFrame cfg 0x01 0x03 [0x2A, 0x00, 0x01] = some writeE1 ∧
      buildFrame cfg 0x00 0x00 [] = some [0xFF, 0xFF, 0x00, 0x02, 0x00, 0xFD] ∧
      buildFrame cfg 0xFD 0x01 [] = some [0xFF, 0xFF, 0xFD, 0x02, 0x01, 0xFF] ∧
      buildFrame cfg 0xFF 0x01 [] = some [0xFF, 0xFF, 0xFF, 0x02, 0x01, 0xFD] ∧
      buildFrame cfg 0x01 0x03 [0x2A, 0xFF, 0xFF] =
        some [0xFF, 0xFF, 0x01, 0x05, 0x03, 0x2A, 0xFF, 0xFF, 0xCE] := by decide

theorem test_build_limit :
    (buildFrame cfg 0x01 0x03 (List.replicate 244 0)).map (fun f => (f.length, byteAt f 3, byteAt f 249)) =
        some (250, 0xF6, 0x05) ∧
      buildFrame cfg 0x01 0x03 (List.replicate 245 0) = none := by decide +kernel

/-! OPEN, CLOSE, READ_REG (V-TR-1 to V-TR-9). -/

theorem test_open_accepted :
    (next? (exec (.openLine 9600) { closed with rxFifo := [0xAA] })).map
      (fun t => (t.lineOpen, t.baud, t.msPerByte, t.rxFifo, (portAt t 0).resBool)) =
      some (true, 9600, 25 / 24, [], true) := by decide +kernel

theorem test_open_refused :
    (next? (exec (.openLine 115200) { refusing with lineOpen := true, baud := 1000000 })).map
      (fun t => (t.lineOpen, t.baud, (portAt t 0).completions)) =
      some (true, 1000000, [{ bool := some false }]) := by decide +kernel

theorem test_close_flushes :
    (next? (exec .closeLine { idle with rxFifo := [0xAA] })).map (fun t => (t.lineOpen, t.rxFifo, t.baud)) =
      some (false, [], 1000000) := by decide +kernel

theorem test_close_ignored_while_busy :
    (next? (exec .closeLine (sending 9))).map (fun t => (t.lineOpen, t.busy, (portAt t 0).completions)) =
      some (true, true, [{}]) := by decide +kernel

theorem test_readReg_status :
    (portAfter (exec (.readReg 0) closed) 0).map (·.completions) = some [{ value := some 0x00 }] ∧
      (portAfter (exec (.readReg 0) (awaiting [] [] 6 0)) 0).map (·.completions) = some [{ value := some 0x0B }] := by
  decide +kernel

theorem test_readReg_views :
    regView grouped 0 0x08 = 2 ∧ regView grouped 0 0x06 = 42 ∧ regView grouped 0 0x00 = 0x11 ∧
      regView grouped 0 0x1234 = 0 ∧ regView grouped 1 0x08 = 0 := by decide +kernel

/-! SEND_UNICAST and SEND_BROADCAST: the order of failures (V-EX-1 to V-EX-6, V-EX-12, V-EX-14). -/

theorem test_sendUnicast_begins :
    (next? (exec (.sendUnicast 1 0x03 [0x2A, 0x00, 0x01]) { idle with rxFifo := [0xAA] })).map
      (fun t => (t.txBuf, t.xstate, t.xowner, t.lineOut, t.rxFifo)) = some (writeE1, .sending, some 0, [], []) := by
  decide +kernel

theorem test_sendUnicast_failures :
    (portAfter (exec (.sendUnicast 0xFE 0x03 (List.replicate 300 0)) (sending 9)) 0).map (·.resCode) =
        some .notAvailable ∧
      (portAfter (exec (.sendUnicast 1 0x03 (List.replicate 300 0)) (sending 9)) 0).map (·.resCode) = some .txError ∧
      (portAfter (exec (.sendUnicast 1 0x01 []) (sending 9)) 0).map (·.resCode) = some .portBusy := by decide +kernel

theorem test_sendBroadcast_begins :
    (next? (exec (.sendBroadcast 0x03 [0x28, 0x00]) idle)).map (fun t => (t.txBuf, t.xkind, t.reqId)) =
      some ([0xFF, 0xFF, 0xFE, 0x04, 0x03, 0x28, 0x00, 0xD2], .broadcast, 0xFE) := by decide +kernel

theorem test_sendBroadcast_oversize :
    (portAfter (exec (.sendBroadcast 0x03 (List.replicate 245 0)) (sending 9)) 0).map (fun q => (q.resCode, q.resErr)) =
      some (.txError, 0) := by decide +kernel

/-! TX_DONE (V-EX-7, V-EX-8, V-EX-12, V-EX-13; R174's examples). -/

theorem test_txDone_short :
    ((exchangeStep (sending 3)).lineOut, (exchangeStep (sending 3)).busy, (portAt (exchangeStep (sending 3)) 1).resCode) =
      ([0xFF, 0xFF, 0x01], false, .txFail) := by decide +kernel

theorem test_txDone_closed_line :
    ((exchangeStep { sendingBroadcast 8 with lineOpen := false }).lineOut,
      (portAt (exchangeStep { sendingBroadcast 8 with lineOpen := false }) 1).resCode) = ([], .txFail) := by
  decide +kernel

theorem test_txDone_broadcast :
    ((exchangeStep (sendingBroadcast 8)).lineOut, (exchangeStep (sendingBroadcast 8)).xstate,
      (portAt (exchangeStep (sendingBroadcast 8)) 1).completions) =
      ([0xFF, 0xFF, 0xFE, 0x04, 0x03, 0x28, 0x00, 0xD2], .idle, [{ code := some .success }]) := by decide +kernel

theorem test_txDone_unicast_timer :
    ((exchangeStep (sending 9)).xstate, (exchangeStep (sending 9)).tDur, (exchangeStep (sending 9)).tStart) =
      (.awaitingResponse, 341 / 10, 5) := by decide +kernel

theorem test_expectedLen :
    expectedLen cfg [0xFF, 0xFF, 0x01, 0x04, 0x02, 0x38, 0x02, 0xBE] = 12 ∧
      expectedLen cfg [0xFF, 0xFF, 0x01, 0x03, 0x02, 0x38, 0xC1] = 10 ∧
      timeoutMs { idle with msPerByte := lineTime cfg 1000000 } 12 = 853 / 25 ∧
      timeoutMs { idle with msPerByte := lineTime cfg 9600 } 10 = 533 / 12 := by decide +kernel

/-! The receive state machine, one step each (V-RX-1, 3, 4, 5, 6, 7, 10, 11, 12, 16, 17, 19; V-TM-1, V-TM-2). -/

/-- What the owner got when the receive ended in this step. -/
def verdict (s : State) : CommResult × Byte × List Byte × Bool :=
  ((portAt (exchangeStep s) 1).resCode, (portAt (exchangeStep s) 1).resErr, (portAt (exchangeStep s) 1).resData,
    (exchangeStep s).busy)

theorem test_rx_ack : verdict (awaiting ack [0xAA, 0xBB] 6 1) = (.success, 0x00, ack, false) ∧
    (exchangeStep (awaiting ack [0xAA, 0xBB] 6 1)).rxFifo = [0xAA, 0xBB] := by decide +kernel

theorem test_rx_error_byte :
    verdict (awaiting [0xFF, 0xFF, 0x01, 0x02, 0x20, 0xDC] [] 6 1) =
      (.success, 0x20, [0xFF, 0xFF, 0x01, 0x02, 0x20, 0xDC], false) := by decide +kernel

theorem test_rx_corrupt :
    verdict (awaiting [0xFF, 0xFF, 0x01, 0x02, 0x00, 0xFD] [] 6 1) = (.rxCorrupt, 0, [], false) ∧
      verdict (awaiting [0xFF, 0xFF, 0x01, 0x00, 0x00, 0x00] [] 4 1) = (.rxCorrupt, 0, [], false) ∧
      verdict (awaiting [0xFF, 0xFF, 0x01, 0x01, 0xFD, 0x77] [] 5 1) = (.rxCorrupt, 0, [], false) ∧
      verdict (awaiting [0xFF, 0xFF, 0x02, 0x02, 0x00, 0xFB] [] 6 1) = (.rxCorrupt, 0, [], false) := by decide +kernel

theorem test_rx_expiry :
    exchangeReady (awaiting [] [] 6 (341 / 10)) = false ∧
      verdict (awaiting [] [] 6 35) = (.rxTimeout, 0, [], false) ∧
      verdict (awaiting [0xFF, 0xFF, 0x01] [] 6 35) = (.rxCorrupt, 0, [], false) := by decide +kernel

theorem test_rx_pull_before_expiry :
    (exchangeStep (awaiting [0xFF, 0xFF, 0x01, 0x02, 0x00] [0xFC] 6 35)).rxBuf = ack := by decide +kernel

theorem test_rx_scan :
    (exchangeStep (awaiting [0x00, 0x11, 0x22, 0x33, 0x44, 0xFF] [] 6 1)).rxBuf = [0xFF] ∧
      (exchangeStep (awaiting [0xAA, 0xFF, 0xFF, 0x01, 0x02, 0x00] [] 6 1)).rxBuf = [0xFF, 0xFF, 0x01, 0x02, 0x00] ∧
      (exchangeStep (awaiting [0xFF, 0xFF, 0xFF, 0x01, 0x02, 0x00] [] 6 1)).rxBuf = [0xFF, 0xFF, 0x01, 0x02, 0x00] ∧
      (exchangeStep (awaiting [0xFF, 0xFF, 0x01, 0x04, 0x00, 0x00] [] 6 1)).want = 8 ∧
      (exchangeStep (awaiting [0xFF, 0xFF, 0x01, 0xFB, 0x00, 0x00] [] 6 1)).rxBuf = [0xFF, 0x01, 0xFB, 0x00, 0x00] := by
  decide +kernel

/-! The group write buffer (V-GW-1 to V-GW-6, V-GW-8, V-GW-12, V-GW-13, V-GW-15). -/

theorem test_gwbInit :
    (portAfter (exec (.gwbInit 9 2) grouped) 0).map (fun q => (q.gwbValid, q.gwbAddr, q.gwbWidth, q.gwbEntries)) =
      some (true, 9, 2, []) := by decide +kernel

theorem test_gwbAdd_accepts :
    (portAfter (exec (.gwbAdd 0xFE [0x00, 0x00]) grouped) 0).map (fun q => (q.resBool, q.gwbIds)) =
      some (true, [7, 9, 0xFE]) := by decide +kernel

theorem test_gwbAdd_rejects :
    (portAfter (exec (.gwbAdd 7 [0x00, 0x02]) closed) 0).map (·.resBool) = some false ∧
      (portAfter (exec (.gwbAdd 7 [0x00, 0x03]) grouped) 0).map (fun q => (q.resBool, q.gwbData 7)) =
        some (false, some [0x00, 0x02]) ∧
      (portAfter (exec (.gwbAdd 8 [0x00]) grouped) 0).map (fun q => (q.resBool, q.gwbIds)) =
        some (false, [7, 9]) := by decide +kernel

theorem test_gwbPayload :
    (portAfter (exec .gwbPayload grouped) 0).map (fun q => (q.resData, q.resLen)) =
      some ([0x07, 0x00, 0x02, 0x09, 0x00, 0x04], 6) := by decide +kernel

theorem test_gwbSend_begins :
    (next? (exec .gwbSend grouped)).map (fun t => (t.txBuf, t.xkind, (portAt t 0).gwbEntries.length)) =
      some ([0xFF, 0xFF, 0xFE, 0x0A, 0x83, 0x2A, 0x02, 0x07, 0x00, 0x02, 0x09, 0x00, 0x04, 0x32], .broadcast, 2) := by
  decide +kernel

theorem test_gwbSend_empty :
    (next? (exec .gwbSend { sending 9 with lineOpen := false })).map (fun t => ((portAt t 0).completions, t.txBuf)) =
      some ([{ code := some .success }], writeE1) := by decide +kernel

/-! Wire instructions (45_wire_instructions.md R230 to R234). -/

theorem test_ping : (next? (exec (.ping 1 []) idle)).map (fun t => (t.txBuf, t.xkind)) =
    some ([0xFF, 0xFF, 0x01, 0x02, 0x01, 0xFB], .unicast) := by decide +kernel
theorem test_read : (next? (exec (.read 1 [0x38, 0x02]) idle)).map (fun t => (t.txBuf, t.xkind)) =
    some ([0xFF, 0xFF, 0x01, 0x04, 0x02, 0x38, 0x02, 0xBE], .unicast) := by decide +kernel
theorem test_write : (next? (exec (.write 0xFE [0x28, 0x00]) idle)).map (fun t => (t.txBuf, t.xkind)) =
    some ([0xFF, 0xFF, 0xFE, 0x04, 0x03, 0x28, 0x00, 0xD2], .broadcast) := by decide +kernel
theorem test_syncWrite_unicast :
    (next? (exec (.syncWrite 1 [0x2A, 0x02, 0x07, 0x00, 0x02]) idle)).map (fun t => (t.txBuf, t.xkind)) =
      some ([0xFF, 0xFF, 0x01, 0x07, 0x83, 0x2A, 0x02, 0x07, 0x00, 0x02, 0x3F], .unicast) := by decide +kernel

/-! Codes, words and host conventions (30_encoding.md R95; V-SM-1 to V-SM-9, V-PK-1 to V-PK-3). -/

theorem test_result_codes :
    ([.success, .portBusy, .txFail, .rxFail, .txError, .rxWaiting, .rxTimeout, .rxCorrupt, .notAvailable] :
      List CommResult).map (fun c => c.code.toNat) = [0, 1, 2, 3, 4, 5, 6, 7, 8] := by decide

theorem test_sign_magnitude :
    encSpeed 1000 = some 0x03E8 ∧ encSpeed (-1000) = some 0x83E8 ∧ encSpeed 0 = some 0 ∧ decSpeed 0x8000 = 0 ∧
      encSpeed (-10000) = some 0xA710 ∧ decSpeed 0xA710 = -10000 ∧ encCorr (-5) = some 0x0805 ∧
      encCorr 2047 = some 0x07FF ∧ encCorr (-2047) = some 0x0FFF ∧ decCorr 0xF805 = -5 ∧ decCorr 0x0800 = 0 := by decide

theorem test_pack16 :
    pack16 .little 256 = [0x00, 0x01] ∧ pack16 .little 4095 = [0xFF, 0x0F] ∧ unpack16 .little 0x00 0x08 = 2048 ∧
      pack16 .big 256 = [0x01, 0x00] := by decide

/-- An acknowledged unicast, and one that timed out, as their hosts see them. -/
def acked : Completion := { code := some .success, err := some 0, data := some ack }
def lost : Completion := { code := some .rxTimeout, err := some 0, data := some [] }

/-- P3 and its variants P3b, P3c: a protected write re-locks always, and reports the first failure. -/
theorem test_protected_write :
    (DeviceOp.setPositionMode 1).next cfg [] = some (write8 1 55 0) ∧
      (DeviceOp.setPositionMode 1).next cfg [acked] = some (.sendUnicast 1 0x03 [0x21, 0x00]) ∧
      (DeviceOp.setPositionMode 1).next cfg [acked, lost] = some (write8 1 55 1) ∧
      (DeviceOp.setPositionMode 1).next cfg [lost] = some (write8 1 55 1) ∧
      (DeviceOp.setPositionMode 1).result cfg [acked, acked, acked] = some (.ok 0 none) ∧
      (DeviceOp.setPositionMode 1).result cfg [acked, lost, acked] = some (.comm .rxTimeout) ∧
      (DeviceOp.setPositionMode 1).result cfg [lost, acked] = some (.comm .rxTimeout) := by decide

/-- 44_device_api.md R214, R219: the domain is checked before any command is issued. -/
theorem test_domain_error :
    ∀ op ∈ [DeviceOp.writePosition 1 (-1), .writePosition 1 4096, .writeGoalSpeed 1 (-1), .writePosCorrection 1 (-2048),
        .writeAcceleration 1 255, .setBaudIndex 1 8, .setServoId 0 5, .setServoId 5 253, .connect 0,
        .syncWritePositions ⟨[(7, 4096)], by decide⟩, .syncWriteWheelSpeeds ⟨[(1, -10001)], by decide⟩],
      op.next cfg [] = none ∧ op.result cfg [] = some .domainError := by decide +kernel

/-- 44_device_api.md R220 and its example: the commands in order, then Ok(0, -) or Comm(RES_CODE). -/
theorem test_sync_write_positions :
    let op := DeviceOp.syncWritePositions ⟨[(7, 512), (9, 1024)], by decide⟩
    let sent : List Completion := [{}, { bool := some true }, { bool := some true }]
    op.program cfg = some (.commands
        [.gwbInit 42 2, .gwbAdd 7 [0x00, 0x02], .gwbAdd 9 [0x00, 0x04], .gwbSend]) ∧
      op.next cfg sent = some .gwbSend ∧ op.result cfg sent = none ∧
      op.result cfg (sent ++ [{ code := some .success }]) = some (.ok 0 none) ∧
      op.result cfg (sent ++ [{ code := some .portBusy }]) = some (.comm .portBusy) := by decide +kernel

/-- 44_device_api.md R221's example. -/
theorem test_sync_write_speeds :
    (DeviceOp.syncWriteWheelSpeeds ⟨[(1, 1000), (2, -1000)], by decide⟩).program cfg = some (.commands
      [.gwbInit 46 2, .gwbAdd 1 [0xE8, 0x03], .gwbAdd 2 [0xE8, 0x83], .gwbSend]) := by decide +kernel

/-- P4's read, and a response with too few data bytes (44_device_api.md R216). -/
theorem test_read_position :
    (DeviceOp.readPosition 1).next cfg [] = some (.sendUnicast 1 0x02 [0x38, 0x02]) ∧
      (DeviceOp.readPosition 1).result cfg
        [{ acked with data := some [0xFF, 0xFF, 0x01, 0x04, 0x00, 0x00, 0x08, 0xF2] }] = some (.ok 0 (some 2048)) ∧
      (DeviceOp.readPosition 1).result cfg [acked] = some (.comm .rxCorrupt) := by decide +kernel

/-- 44_device_api.md R218: lock at the new id, else at the old; the ID write's failure does not skip the lock. -/
theorem test_id_change :
    let op := DeviceOp.setServoId 1 5
    op.next cfg [acked] = some (write8 1 5 5) ∧ op.next cfg [acked, lost] = some (write8 5 55 1) ∧
      op.next cfg [lost] = some (write8 5 55 1) ∧ op.next cfg [acked, acked, lost] = some (write8 1 55 1) ∧
      op.next cfg [acked, acked, acked] = none ∧
      op.result cfg [acked, acked, { acked with err := some 0x20 }] = some (.ok 0x20 none) ∧
      op.result cfg [acked, acked, lost, acked] = some (.ok 0 none) ∧
      op.result cfg [lost, acked] = some (.comm .rxTimeout) ∧
      op.result cfg [acked, acked, lost, { lost with code := some .rxCorrupt }] = some (.comm .rxTimeout) ∧
      idChangeLock [acked, acked, lost, { lost with code := some .rxCorrupt }] = some (.failed .rxTimeout .rxCorrupt) := by
  decide +kernel

/-- The examples of 30_encoding.md R104. -/
theorem test_asm :
    asmLine (.openLine 1000000) = "open 1000000" ∧
      asmLine (.sendBroadcast 0x83 [0x2A, 0x02]) = "send.b 0x83, [0x2A, 0x02]" ∧
      asmLine (.gwbAdd 7 [0x00, 0x02]) = "gwb.add 7, [0x00, 0x02]" := by decide +kernel

/-! Reset (V-RS-1). -/

theorem test_reset :
    let t := resetMove { awaiting [] [0xFF, 0xFF] 6 7 with env := { Env.start with resets := 1 } }
    (statusByte t 0, t.rxFifo, t.lineOut, t.now, t.ports) = (0, [], [], 7, [Port.reset, Port.reset]) := by
  decide +kernel

/-! Witnesses: for each obligation with hypotheses, a state and operands that meet all of them, each clause at a boundary
of its range. The name is the obligation's. -/

theorem witness_DecodeOfEncodeIsTheInstruction : (Instr.syncWrite 0xFF (List.replicate 253 0xFF)).WellFormed := by
  decide +kernel

theorem witness_DecodedRequestIsItsEncoding : decode (.host [0x04]) = .command (.unassigned 0x04) ∧
    decode (.wire ack) = .command (.otherWire 1 0x00 []) ∧
    decode (.wire [0xFF, 0xFF, 0x01, 0x02, 0x01, 0xFB]) = .command (.instr (.ping 1 [])) := by decide

theorem witness_UnassignedOpcodeCompletesNotAvailable : closed.port < closed.ports.length ∧
    ∀ op ∈ ([0x00, 0x04, 0x0F, 0x12, 0x1F, 0x24, 0x83, 0xFF] : List Byte),
      op ∉ ([0x01, 0x02, 0x03, 0x10, 0x11, 0x20, 0x21, 0x22, 0x23] : List Byte) := by decide

theorem witness_ChecksumDetectsEverySingleByteChange : (0x00 : Byte) ≠ 0xFF := by decide

theorem witness_BuildFrameLayoutAndLimit :
    buildFrame cfg 0x01 0x03 [] = some (frameOf 0x01 0x03 []) ∧
      buildFrame { cfg with txMaxLen := 260 } 0x01 0x03 (List.replicate 253 0) =
        some (frameOf 0x01 0x03 (List.replicate 253 0)) ∧ (List.replicate 253 (0 : Byte)).length + 2 ≤ 255 := by
  decide +kernel

theorem witness_HeaderScanFindsTheLeastOffset :
    findHeader [0xFF, 0xFF] = some 0 ∧ findHeader [0xFF, 0x00, 0xFF, 0xFF] = some 2 ∧ findHeader [0xFF] = none := by
  decide

theorem witness_OpenAcceptedOpensAndFlushes :
    let reopening : State := { idle with env := { Env.start with openDraws := [true], lastRx := some 4 } }
    (∀ s ∈ [closed, reopening], s.port < s.ports.length ∧ s.busy = false ∧ (drawOpen s).1 = true) ∧
      (reopening.lineOpen = true ∧ reopening.env.lastRx = some 4 ∧ closed.lineOpen = false) ∧
      (1 : BitVec 32) ≠ 0 ∧ (0xFFFFFFFF : BitVec 32) ≠ 0 := by decide +kernel

theorem witness_OpenRefusedChangesNothing :
    ((sending 9).port < (sending 9).ports.length ∧ (sending 9).busy = true) ∧
      (refusing.port < refusing.ports.length ∧ refusing.busy = false ∧ (1 : BitVec 32) ≠ 0 ∧
        (drawOpen refusing).1 = false) := by decide

theorem witness_CloseFlushesUnlessBusy :
    (idle.port < idle.ports.length ∧ idle.busy = false) ∧
      ((sending 9).port < (sending 9).ports.length ∧ (sending 9).busy = true) := by decide

theorem witness_ReadRegReturnsTheViewOnly : idle.port < idle.ports.length := by decide

theorem witness_RegisterViewShowsTheState :
    grouped.ports[0]? = some (portAt grouped 0) ∧ (portAt grouped 0).resData.length < 2 ^ 17 ∧
      (portAt grouped 0).gwbEntries.length < 2 ^ 9 ∧ grouped.rxFifo.length < 2 ^ 32 ∧ 65535 < 65536 ∧
      0x09 < (0x0A : BitVec 32).toNat ∧ (0xFFFF : BitVec 32).toNat < 0x10000 ∧
      0x20000 ≤ (0x20000 : BitVec 32).toNat := by decide +kernel

theorem witness_StatusFieldsAreTheFlags : grouped.ports[1]? = some Port.reset := by decide +kernel

theorem witness_SendUnicastBeginsTheExchange :
    idle.port < idle.ports.length ∧ (0xFF : Byte) ≠ 0xFE ∧
      (List.replicate 244 (0 : Byte)).length + 6 ≤ idle.cfg.txMaxLen ∧ idle.busy = false := by decide +kernel

theorem witness_SendUnicastTurnedAwayInOrder :
    (sending 9).port < (sending 9).ports.length ∧ (sending 9).busy = true ∧ (0xFD : Byte) ≠ 0xFE ∧
      (sending 9).cfg.txMaxLen < (List.replicate 245 (0 : Byte)).length + 6 ∧
      (List.replicate 244 (0 : Byte)).length + 6 ≤ (sending 9).cfg.txMaxLen := by decide +kernel

theorem witness_SendBroadcastBeginsTheExchange :
    idle.port < idle.ports.length ∧ (List.replicate 244 (0 : Byte)).length + 6 ≤ idle.cfg.txMaxLen ∧
      idle.busy = false := by decide +kernel

theorem witness_SendBroadcastTurnedAwayInOrder :
    (sending 9).port < (sending 9).ports.length ∧ (sending 9).busy = true ∧
      (sending 9).cfg.txMaxLen < (List.replicate 245 (0 : Byte)).length + 6 ∧
      (List.replicate 244 (0 : Byte)).length + 6 ≤ (sending 9).cfg.txMaxLen := by decide +kernel

/-- Boundary ids on both sides of 0xFE; after the flush, the longest parameters. -/
theorem witness_WireInstructionsBeginTheirExchanges :
    (idle.port < idle.ports.length ∧ (List.replicate 244 (0 : Byte)).length + 6 ≤ idle.cfg.txMaxLen ∧
      idle.busy = false) ∧
    ([0xFD, 0xFE, 0xFF] : List Byte).map (fun id =>
      (next? (exec (.write id [0x28, 0x00]) idle)).map fun t => (t.xkind, t.reqId)) =
      [some (.unicast, 0xFD), some (.broadcast, 0xFE), some (.unicast, 0xFF)] := by decide +kernel

theorem witness_ShortWriteIsTxFailAndReleases :
    ((sending 8).xstate = .sending ∧ (sending 8).xowner = some 1 ∧
      (writeTx (sending 8)).1 ≠ (sending 8).txBuf.length) ∧
    ((sendingBroadcast 0).xstate = .sending ∧ (sendingBroadcast 0).xowner = some 1 ∧
      (writeTx (sendingBroadcast 0)).1 ≠ (sendingBroadcast 0).txBuf.length) := by decide +kernel

theorem witness_WriteTakesAPrefix :
    ({ sending 9 with lineOpen := false }).lineOpen = false ∧ (sending 9).lineOpen = true ∧
      (sending 9).env.writeDraws = [9] ∧ 9 ≤ (sending 9).txBuf.length := by decide

theorem witness_WrittenBroadcastSucceedsAtOnce :
    (sendingBroadcast 8).xstate = .sending ∧ (sendingBroadcast 8).xkind = .broadcast ∧
      (sendingBroadcast 8).xowner = some 1 ∧
      (writeTx (sendingBroadcast 8)).1 = (sendingBroadcast 8).txBuf.length := by decide +kernel

theorem witness_WrittenUnicastStartsTimerAndReceive :
    (sending 9).xstate = .sending ∧ (sending 9).xkind = .unicast ∧
      (writeTx (sending 9)).1 = (sending 9).txBuf.length := by decide +kernel

theorem witness_PullComesBeforeExpiry :
    let s := awaiting [0xFF, 0xFF, 0x01, 0x02, 0x00] [0xFC] 6 35
    s.xstate = .awaitingResponse ∧ s.rxBuf.length < s.want ∧ s.rxFifo = [0xFC] := by decide +kernel

theorem witness_ExpiryClassifiesByWhatWasBuffered :
    (∀ s ∈ [awaiting [] [] 6 (341 / 10), awaiting [] [] 6 35, awaiting [0xFF, 0xFF, 0x01, 0x02, 0x00] [] 6 35],
      s.xstate = .awaitingResponse ∧ s.xowner = some 1 ∧ s.rxBuf.length < s.want ∧ s.rxFifo = []) ∧
    (awaiting [] [] 6 (341 / 10)).now - (awaiting [] [] 6 (341 / 10)).tStart ≤ (awaiting [] [] 6 (341 / 10)).tDur ∧
    (awaiting [] [] 6 35).tDur < (awaiting [] [] 6 35).now - (awaiting [] [] 6 35).tStart := by decide +kernel

theorem witness_NoHeaderKeepsOnlyTheLastByte :
    ∀ now ∈ [(341 : Millis) / 10, 35],
      let s := awaiting [0x00, 0x11, 0x22, 0x33, 0x44, 0xFF] [] 6 now
      s.xstate = .awaitingResponse ∧ s.xowner = some 1 ∧ s.rxBuf = [0x00, 0x11, 0x22, 0x33, 0x44] ++ [0xFF] ∧
        s.want ≤ s.rxBuf.length ∧ findHeader s.rxBuf = none ∧
        (s.now - s.tStart ≤ s.tDur ∨ s.tDur < s.now - s.tStart) := by decide +kernel

theorem witness_LaterHeaderDiscardsWhatPrecedesIt :
    let s := awaiting [0x00, 0x11, 0x22, 0x33, 0xFF, 0xFF] [] 6 1
    s.xstate = .awaitingResponse ∧ s.want ≤ s.rxBuf.length ∧ 0 < 4 ∧ findHeader s.rxBuf = some 4 := by decide +kernel

theorem witness_HeaderAtZeroIsDroppedOrSetsTheLength :
    (∀ buf ∈ ([[0xFF, 0xFF, 0xFE, 0x02, 0x00, 0xFF], [0xFF, 0xFF, 0x01, 0xFB, 0x00, 0x00],
        [0xFF, 0xFF, 0xFD, 0xFA, 0x00, 0x00]] : List (List Byte)),
      (awaiting buf [] 6 1).xstate = .awaitingResponse ∧ (awaiting buf [] 6 1).want ≤ buf.length ∧
        findHeader buf = some 0) ∧
    (cfg.rxIdMax < (0xFE : Byte).toNat ∧ cfg.rxMaxLen < (0xFB : Byte).toNat) ∧
    ((0xFD : Byte).toNat ≤ cfg.rxIdMax ∧ (0xFA : Byte).toNat ≤ cfg.rxMaxLen ∧ 6 ≠ (0xFA : Byte).toNat + 4) := by
  decide +kernel

theorem witness_WholeFrameIsVerifiedAndMatched :
    (∀ s ∈ [awaiting ack [] 6 1, awaiting [0xFF, 0xFF, 0x01, 0x02, 0x00, 0xFD] [] 6 1,
        awaiting [0xFF, 0xFF, 0x02, 0x02, 0x00, 0xFB] [] 6 1, awaiting [0xFF, 0xFF, 0x01, 0x01, 0xFD, 0x77] [] 5 1],
      s.xstate = .awaitingResponse ∧ s.xowner = some 1 ∧ s.want ≤ s.rxBuf.length ∧ findHeader s.rxBuf = some 0 ∧
        (byteAt s.rxBuf 2).toNat ≤ s.cfg.rxIdMax ∧ (byteAt s.rxBuf 3).toNat ≤ s.cfg.rxMaxLen ∧
        s.want = (byteAt s.rxBuf 3).toNat + 4) ∧
    (byteAt ack 5 = checksum (memRead ack 2 3) ∧ byteAt ack 2 = 1 ∧ 6 ≤ 6) ∧
    (0xFD : Byte) ≠ checksum (memRead ack 2 3) ∧ (2 : Byte) ≠ 1 ∧ 5 < 6 := by decide +kernel

/-! Runs: what the frame statements say happens, evaluated. -/

/-- The run of `n` steps of the exchange, the Clock and the Line, with the bytes the Line delivers in it. -/
def lineRun : Nat → State → Option (List Byte × State)
  | 0, s => some ([], s)
  | n + 1, s =>
    match pickMove s, s.env.lineIn, next? (step s) with
    | some (.exchange, _), _, some u => lineRun n u
    | some (.clock, _), _, some u => lineRun n u
    | some (.line, _), b :: _, some u => (lineRun n u).map fun r => (b :: r.1, r.2)
    | _, _, _ => none

theorem step_of_next? {s t : State} (h : next? (step s) = some t) : step s = .next t := by
  cases hs : step s <;> rw [hs] at h <;> cases h
  rfl

theorem lineRun_sound {n : Nat} {s u : State} {d : List Byte} (h : lineRun n s = some (d, u)) : LineRun s d u := by
  induction n generalizing s d with
  | zero => cases h; exact .start _
  | succ n ih =>
    simp only [lineRun] at h
    split at h
    · rename_i hp hs
      exact LineRun.append (.quiet (.start s) hp (.inl rfl) (step_of_next? hs)) (ih h)
    · rename_i hp hs
      exact LineRun.append (.quiet (.start s) hp (.inr rfl) (step_of_next? hs)) (ih h)
    · rename_i hp hl hs
      obtain ⟨r, hr, he⟩ := Option.map_eq_some_iff.mp h
      obtain ⟨rfl, rfl⟩ := Prod.mk.inj he
      exact LineRun.append (.line (.start s) hp hl (step_of_next? hs)) (ih hr)
    · cases h

/-- A run that was evaluated and ends in a state with `P`. -/
theorem exists_lineRun (n : Nat) {s : State} {d : List Byte} {P : State → Prop} [DecidablePred P]
    (h : ((lineRun n s).map fun r => (r.1, decide (P r.2))) = some (d, true)) : ∃ u, LineRun s d u ∧ P u := by
  obtain ⟨⟨d', u⟩, hr, he⟩ := Option.map_eq_some_iff.mp h
  obtain ⟨rfl, hp⟩ := Prod.mk.inj he
  exact ⟨u, lineRun_sound hr, of_decide_eq_true hp⟩

/-- The Line will deliver `bytes`, and the Clock sets one of `times` after each; a FIFO of depth 1. -/
def delivering (s : State) (bytes : List Byte) (times : List Millis) : State :=
  { s with
    cfg := { cfg with rxFifoDepth := some 1 }
    env := { s.env with
      lineIn := bytes, clockIn := times, sched := (List.replicate bytes.length [Move.line, .clock]).flatten } }

/-- The receive of the frame statements: at its start, with `fifo` delivered and `bytes` to come, a hundredth of a
millisecond or more apart. -/
def receiving (fifo bytes : List Byte) : State :=
  delivering (awaiting [] fifo 6 1) bytes [101 / 100, 102 / 100, 2, 3, 4, 5, 6, 7, 8]

theorem receiving_start (fifo bytes : List Byte) :
    let s := receiving fifo bytes
    s.cfg.wf ∧ s.lineOpen = true ∧ s.xstate = .awaitingResponse ∧ s.xowner = some 1 ∧ s.rxBuf = [] ∧
      s.want = s.cfg.minFrame ∧ s.reqId = 1 ∧ s.cfg.rxFifoDepth = some 1 ∧ s.rxFifo = fifo ∧ s.tStart = 0 ∧
      s.tDur = 341 / 10 :=
  ⟨show Params.wf { cfg with rxFifoDepth := some 1 } by decide, rfl, rfl, rfl, rfl, rfl, rfl, rfl, rfl, rfl, rfl⟩

/-- V-RX-1's acknowledgement and one later byte, from an empty FIFO. -/
theorem witness_BuiltFrameIsReceivedAsItWasBuilt :
    (∃ t, LineRun (receiving [] (ack ++ [0xAA])) (ack ++ [0xAA]) t ∧ exchangeReady t = false ∧ t.now - 0 ≤ 341 / 10) ∧
    ack ++ [0xAA] = frameOf 1 0x00 [] ++ [0xAA] ∧ ([0xAA] : List Byte).length ≤ 1 ∧ (1 : Byte).toNat ≤ cfg.rxIdMax ∧
      cfg.minFrame ≤ ([] : List Byte).length + 6 ∧ (List.replicate 248 (0 : Byte)).length + 2 ≤ cfg.rxMaxLen :=
  ⟨exists_lineRun 20 (by decide +kernel), by decide +kernel⟩

/-- A byte changed at offset 4, at the last offset and in the id, delivered whole; and one cut short by expiry. -/
theorem witness_OneChangedByteIsRxCorrupt :
    let frame := frameOf 1 0x00 [0x00, 0x08]
    (∀ x ∈ ([(4, 0x01), (7, 0xF3), (2, 0xFD)] : List (Nat × Byte)),
      (4 ≤ x.1 ∧ x.1 < ([0x00, 0x08] : List Byte).length + 6 ∨ x.1 = 2 ∧ x.2.toNat ≤ cfg.rxIdMax) ∧
      byteAt frame x.1 ≠ x.2 ∧ frame.set x.1 x.2 = [0xFF] ++ (frame.set x.1 x.2).drop 1 ∧
      ∃ t, LineRun (receiving [0xFF] ((frame.set x.1 x.2).drop 1)) ((frame.set x.1 x.2).drop 1) t ∧
        exchangeReady t = false) ∧
    [0xFF] ++ [0xFF, 0x01, 0x04, 0x01] <+: frame.set 4 0x01 ∧
    ∃ t, LineRun (delivering (awaiting [] [0xFF] 6 1) [0xFF, 0x01, 0x04, 0x01] [2, 3, 4, 35])
        [0xFF, 0x01, 0x04, 0x01] t ∧ exchangeReady t = false ∧ 341 / 10 < t.now - 0 := by
  refine ⟨?_, by decide, exists_lineRun 14 (by decide +kernel)⟩
  simp only [List.mem_cons, List.not_mem_nil, or_false, forall_eq_or_imp, forall_eq]
  exact ⟨⟨by decide, by decide, by decide, exists_lineRun 24 (by decide +kernel)⟩,
    ⟨by decide, by decide, by decide, exists_lineRun 24 (by decide +kernel)⟩,
    by decide, by decide, by decide, exists_lineRun 24 (by decide +kernel)⟩

theorem witness_NoiseBeforeAFrameIsDiscarded :
    (∃ t, LineRun (receiving [] ([0x00, 0xFE, 0x01] ++ ack)) ([0x00, 0xFE, 0x01] ++ ack) t ∧ exchangeReady t = false ∧
      t.now - 0 ≤ 341 / 10) ∧
    [0x00, 0xFE, 0x01] ++ ack = [0x00, 0xFE, 0x01] ++ frameOf 1 0x00 [] ++ [] ∧
    ∀ b ∈ ([0x00, 0xFE, 0x01] : List Byte), b ≠ 0xFF :=
  ⟨exists_lineRun 28 (by decide +kernel), by decide +kernel⟩

/-- E1 and its acknowledgement, with one later byte. -/
theorem witness_AnsweredUnicastSucceedsEndToEnd :
    let s := delivering { idle with env := { Env.start with writeDraws := [9] } } (ack ++ [0xAA]) [6, 7, 8, 9, 10, 11, 39]
    (s.cfg.wf ∧ s.port < s.ports.length ∧ s.busy = false ∧ s.lineOpen = true ∧ (1 : Byte).toNat ≤ s.cfg.rxIdMax ∧
      ([0x2A, 0x00, 0x01] : List Byte).length + 6 ≤ s.cfg.txMaxLen ∧
      s.env.writeDraws = (([0x2A, 0x00, 0x01] : List Byte).length + 6) :: [] ∧
      s.cfg.minFrame ≤ ([] : List Byte).length + 6 ∧ ([] : List Byte).length + 2 ≤ s.cfg.rxMaxLen ∧
      s.cfg.rxFifoDepth = some 1 ∧ ack ++ [0xAA] = frameOf 1 0x00 [] ++ [0xAA]) ∧
    ∃ t, exec (.sendUnicast 1 0x03 [0x2A, 0x00, 0x01]) s = .next t ∧
      ∃ u, LineRun t (ack ++ [0xAA]) u ∧ exchangeReady u = false ∧
        u.now - s.now ≤ timeoutMs s (expectedLen s.cfg (frameOf 1 0x03 [0x2A, 0x00, 0x01])) :=
  ⟨by decide +kernel, _, rfl, exists_lineRun 22 (by decide +kernel)⟩

/-- Every awaited receive of these tests whose target is `P_MIN_FRAME` meets the invariant. -/
theorem awaiting_inv {buf fifo : List Byte} {now : Millis} (hb : buf.length ≤ 6) (hn : 0 ≤ now) :
    MachineInv (awaiting buf fifo 6 now) where
  params := show cfg.wf by decide
  ports := rfl
  portOk := by
    have hp : Port.reset.Ok := ⟨by decide, by decide, by decide⟩
    intro q hq
    simp only [awaiting, sending, List.mem_cons, List.not_mem_nil, or_false] at hq
    rcases hq with rfl | rfl
    · exact hp
    · exact ⟨hp.idsDistinct, hp.widths, hp.resLen⟩
  exchange :=
    { busy := by simp [awaiting, sending]
      owner := by simp [awaiting, sending]
      ownerPending := by
        intro q hq
        obtain rfl : 1 = q := by simpa [awaiting, sending] using hq
        exact ⟨Nat.lt_add_one 1, unicastE1, rfl, trivial⟩
      sending := by simp [awaiting]
      started := fun _ => hn }
  receive :=
    { buffer := by simpa [awaiting, sending, idle, closed, State.resetWith, cfg] using hb
      target := .inl rfl
      header := fun _ => .inl rfl
      fifo := by simp [awaiting, sending, idle, closed, State.resetWith, cfg] }

theorem witness_ReceiveEndsOrWaitsInBoundedSteps :
    MachineInv (awaiting [0xFF] ack 6 1) ∧ (awaiting [0xFF] ack 6 1).xstate = .awaitingResponse :=
  ⟨awaiting_inv (by decide) (by decide +kernel), rfl⟩

theorem witness_ExpiredReceiveEnds :
    let s := awaiting [0xFF] [] 6 35
    MachineInv s ∧ s.xstate = .awaitingResponse ∧ s.rxFifo = [] ∧ s.tDur < s.now - s.tStart :=
  ⟨awaiting_inv (by decide) (by decide +kernel), rfl, rfl, by decide +kernel⟩

/-- One for each of the three results. -/
theorem witness_ReceiveEndsOnlyInTheThreeResults :
    ∀ s ∈ [awaiting [] [] 6 35, awaiting [0xFF] [] 6 35, awaiting ack [] 6 1],
      MachineInv s ∧ s.xstate = .awaitingResponse ∧ s.xowner = some 1 ∧
        s.ports[1]? = some { Port.reset with pending := some unicastE1 } ∧ (exchangeStep s).xstate = .idle := by
  intro s hs
  simp only [List.mem_cons, List.not_mem_nil, or_false] at hs
  rcases hs with rfl | rfl | rfl <;>
    exact ⟨awaiting_inv (by decide) (by decide +kernel), rfl, rfl, rfl, by decide +kernel⟩

theorem witness_BufferStaysNonEmptyUntilTheEnd :
    let s := awaiting [0x00, 0x11, 0x22, 0x33, 0x44, 0x55] [] 6 1
    MachineInv s ∧ s.xstate = .awaitingResponse ∧ s.rxBuf ≠ [] :=
  ⟨awaiting_inv (by decide) (by decide +kernel), rfl, by decide⟩

theorem witness_GwbInitStartsAnEmptyBuffer : grouped.port < grouped.ports.length := by decide

theorem witness_GwbAddKeepsIdsDistinctAndWidthsEqual :
    (∀ s ∈ [closed, grouped], s.ports[s.port]? = some (portAt s 0)) ∧
    ((portAt grouped 0).gwbValid = true ∧ (∀ e ∈ (portAt grouped 0).gwbEntries, e.1 ≠ 8) ∧
      ([0x00, 0x00] : List Byte).length = (portAt grouped 0).gwbWidth.toNat) ∧
    (portAt closed 0).gwbValid = false ∧ (∃ e ∈ (portAt grouped 0).gwbEntries, e.1 = 9) ∧
    ([0x00] : List Byte).length ≠ (portAt grouped 0).gwbWidth.toNat := by decide +kernel

theorem witness_GwbPayloadIsTheEntriesInOrder : grouped.ports[grouped.port]? = some (portAt grouped 0) := by
  decide +kernel

theorem witness_EmptyGwbSendIsANoOpSuccess :
    (sending 9).ports[(sending 9).port]? = some Port.reset ∧ Port.reset.gwbEntries = [] := by decide +kernel

theorem witness_GwbSendBeginsOneSyncWrite :
    grouped.ports[grouped.port]? = some (portAt grouped 0) ∧ (portAt grouped 0).gwbEntries ≠ [] ∧
      grouped.busy = false ∧
      ({ grouped with busy := true, xowner := some 1, xstate := .awaitingResponse }).busy = true ∧
      (42 :: 2 :: ((portAt grouped 0).gwbEntries.map fun e => [e.1] ++ e.2).flatten).length + 6 ≤
        grouped.cfg.txMaxLen := by decide +kernel

/-- V-GW-12: 81 entries of width 2 are 243 bytes, one more than a frame can carry; V-GW-10: 121 of width 1 are 242. -/
theorem witness_OversizeGroupIsTxError :
    let tooMany : Port := { Port.reset with
      gwbValid := true, gwbAddr := 42, gwbWidth := 2, gwbEntries := (List.range 81).map fun k => (BitVec.ofNat 8 k, [0, 0]) }
    let most : Port := { Port.reset with
      gwbValid := true, gwbWidth := 1, gwbEntries := (List.range 121).map fun k => (BitVec.ofNat 8 k, [0]) }
    let s : State := { idle with ports := [tooMany] }
    let u : State := { idle with ports := [most] }
    (s.ports[s.port]? = some tooMany ∧ tooMany.Ok ∧ tooMany.gwbEntries ≠ [] ∧
      s.cfg.txMaxLen + 1 = tooMany.gwbEntries.length * (1 + tooMany.gwbWidth.toNat) + 8) ∧
    (u.ports[u.port]? = some most ∧ most.Ok ∧ most.gwbEntries ≠ [] ∧ u.busy = false ∧
      u.cfg.txMaxLen = most.gwbEntries.length * (1 + most.gwbWidth.toNat) + 8) :=
  ⟨⟨rfl, ⟨by decide +kernel, by decide +kernel, by decide⟩, by decide +kernel, by decide +kernel⟩,
    rfl, ⟨by decide +kernel, by decide +kernel, by decide⟩, by decide +kernel, rfl, by decide +kernel⟩

theorem witness_LineDeliveryQueuesOrDrops :
    let s : State := { idle with env := { Env.start with lineIn := [0xAA] } }
    let full : State := { s with cfg := { cfg with rxFifoDepth := some 1 }, rxFifo := [0x00] }
    (s.env.lineIn = [0xAA] ∧ s.lineOpen = true ∧ s.cfg.rxFifoDepth = none) ∧
      ({ s with lineOpen := false }).lineOpen = false ∧
      (full.env.lineIn = [0xAA] ∧ full.lineOpen = true ∧ full.cfg.rxFifoDepth = some 1 ∧
        1 ≤ full.rxFifo.length ∧ ({ full with rxFifo := [] }).rxFifo.length < 1) := by decide +kernel

/-- A command, and a message of OPEN with an operand byte too few. -/
theorem witness_HostIssuesOnePendingCommand :
    (∀ r ∈ [sendE1, .host [0x01, 0x00, 0x00, 0x00]],
      Move.issue 1 ∈ moves { closed with env := { Env.start with hostIn := [[], [r]] } }) ∧
    decode sendE1 = .command unicastE1 ∧ decode (.host [0x01, 0x00, 0x00, 0x00]) = .malformed (.badOperands 0x01) := by
  decide +kernel

/-- A state whose exchange is idle meets the invariant, whatever is pending, planned or recorded. -/
theorem waiting_inv {s : State} (hc : s = { closed with ports := s.ports, now := s.now, env := s.env })
    (hl : s.ports.length = 2) (hp : ∀ q ∈ s.ports, q.Ok) : MachineInv s where
  params := by rw [hc]; exact show cfg.wf by decide
  ports := by rw [hl, hc]; rfl
  portOk := hp
  exchange := by
    rw [hc]
    exact ⟨by simp [closed, State.resetWith], by simp [closed, State.resetWith], by simp [closed, State.resetWith],
      by simp [closed, State.resetWith], by simp [closed, State.resetWith]⟩
  receive := by
    rw [hc]
    exact ⟨by simp [closed, State.resetWith], .inl rfl, by simp [closed, State.resetWith],
      by simp [closed, State.resetWith, cfg]⟩

theorem reset_ok : Port.reset.Ok := ⟨by decide, by decide, by decide⟩

theorem witness_LineAndClockWaitForTheEngine :
    let s : State := { idle with env := { Env.start with
      lineIn := [0xAA], clockIn := [6], lastRx := some 4, sched := [.line] } }
    let reopening : State := { s with
      ports := [{ Port.reset with pending := some (.instr (.openLine 9600)) }, Port.reset]
      env := { s.env with openDraws := [true], sched := [.serve 0] } }
    (Move.line ∈ moves s ∧ Move.clock ∈ moves s ∧ s.lineOpen = true ∧ s.env.lastRx = some 4) ∧
      (exchangeReady s = false ∧ ∀ q ∈ s.ports, q.pending = none) ∧
      (next? (step s)).map (fun t => (t.lineOpen, t.env.lastRx)) = some (true, some 5) ∧
      (next? (step reopening)).map (fun t => (t.lineOpen, t.baud, t.env.lastRx)) = some (true, 9600, some 4) := by
  decide +kernel

theorem witness_StepRunsTheDecodedInstruction :
    let s : State := { sending 9 with
      ports := [{ Port.reset with pending := some (.instr .closeLine) }, { Port.reset with pending := some unicastE1 }]
      env := { Env.start with sched := [.serve 0] } }
    let u : State := { sending 9 with env := { Env.start with hostIn := [[.host [0x02]]], sched := [.issue 0, .serve 0] } }
    (s.cfg.wf ∧ s.env.sched = [.serve 0] ∧ s.ports[0]? = some { Port.reset with pending := some (.instr .closeLine) } ∧
      s.xowner ≠ some 0) ∧
    u.cfg.wf ∧ u.env.sched = [.issue 0, .serve 0] ∧ u.ports[0]? = some Port.reset ∧ u.xowner ≠ some 0 ∧
      u.env.hostIn[0]? = some [.host [0x02]] ∧ decode (.host [0x02]) = .command (.instr .closeLine) := by decide +kernel

theorem witness_StepRunsTheExchange :
    let s : State := { sending 9 with env := { Env.start with sched := [.exchange], writeDraws := [9] } }
    (s.cfg.wf ∧ s.env.sched = [.exchange] ∧ exchangeReady s = true) ∧
      s.xowner = some 1 ∧ (portAt s 0).pending = none ∧ s.ports.length = 2 := by decide +kernel

/-- A state that meets the invariant and steps: with one enabled move, the Engine's, it pulls a byte. -/
theorem witness_EveryStepKeepsTheInvariant :
    (MachineInv (awaiting [] ack 6 1) ∧ PendingOk (awaiting [] ack 6 1)) ∧
      step (awaiting [] ack 6 1) = .next (exchangeStep (awaiting [] ack 6 1)) :=
  ⟨⟨awaiting_inv (by decide) (by decide +kernel), by
    intro q hq c hc
    simp only [awaiting, sending, List.mem_cons, List.not_mem_nil, or_false] at hq
    rcases hq with rfl | rfl <;> cases hc
    trivial⟩, rfl⟩

/-- A step that goes on, and one that refuses: a message of no bytes is no command. -/
theorem witness_NoStepFaults :
    let s : State := { closed with
      env := { Env.start with hostIn := [[.host []]], sched := [.issue 0] } }
    MachineInv (awaiting [] ack 6 1) ∧ MachineInv s ∧ step s = .refused (.notIssuable .emptyMessage) := by
  refine ⟨awaiting_inv (by decide) (by decide +kernel), waiting_inv rfl rfl ?_, rfl⟩
  intro q hq
  simp only [closed, State.resetWith, List.mem_replicate] at hq
  exact hq.2 ▸ reset_ok

theorem witness_RxFailAndRxWaitingAreNeverProduced :
    (∀ q ∈ (awaiting ack [] 6 1).ports, q.resCode ≠ .rxFail ∧ q.resCode ≠ .rxWaiting ∧
      ∀ c ∈ q.completions, c.code ≠ some .rxFail ∧ c.code ≠ some .rxWaiting) ∧
    step (awaiting ack [] 6 1) = .next (exchangeStep (awaiting ack [] 6 1)) := ⟨by decide +kernel, rfl⟩

/-- Nothing planned, nothing pending: the Clock draws. -/
def resting (now : Millis) (draws : Nat) : State := { closed with now := now, env := { Env.start with draws := draws } }

theorem resting_inv (now : Millis) (draws : Nat) : MachineInv (resting now draws) := by
  refine waiting_inv rfl rfl fun q hq => ?_
  simp only [resting, closed, State.resetWith, List.mem_replicate] at hq
  exact hq.2 ▸ reset_ok

theorem resting_step (now : Millis) (draws : Nat) :
    step (resting now draws) = .next (resting (Config.clockTime now draws) (draws + 1)) := rfl

/-- Steps of the Engine and of the Clock; and a run without end. -/
theorem witness_OnlyTheClockAdvancesTime :
    (step (awaiting ack [] 6 1) = .next (exchangeStep (awaiting ack [] 6 1)) ∧
      step { idle with env := { Env.start with clockIn := [6] } } =
        .next (clockMove { idle with env := { Env.start with clockIn := [6] } })) ∧
    ∀ k, ∃ t, Host.Core.run Sys2Proof.core k (resting 5 0) = .next t ∧ MachineInv t := by
  refine ⟨⟨rfl, rfl⟩, fun k => ?_⟩
  suffices h : ∀ now draws, ∃ t, Host.Core.run Sys2Proof.core k (resting now draws) = .next t ∧ MachineInv t from h 5 0
  induction k with
  | zero => exact fun now draws => ⟨_, rfl, resting_inv now draws⟩
  | succ k ih =>
    intro now draws
    have h := run_succ_of_step Sys2Proof.core k (s := resting now draws) (resting_step now draws)
    exact h ▸ ih _ _

/-- The exchange that is about to write meets the invariant. -/
theorem sending_inv (n : Nat) : MachineInv (sending n) where
  params := show cfg.wf by decide
  ports := rfl
  portOk := (awaiting_inv (buf := []) (fifo := []) (now := 1) (by decide) (by decide +kernel)).portOk
  exchange :=
    { busy := by simp [sending]
      owner := by simp [sending]
      ownerPending :=
        (awaiting_inv (buf := []) (fifo := []) (now := 1) (by decide) (by decide +kernel)).exchange.ownerPending
      sending := fun _ => show 6 ≤ writeE1.length ∧ writeE1.length ≤ cfg.txMaxLen by decide
      started := by simp [sending] }
  receive :=
    { buffer := by simp [sending, idle, closed, State.resetWith]
      target := .inl rfl
      header := by simp [sending]
      fifo := by simp [sending, idle, closed, State.resetWith, cfg] }

/-- A step that emits nothing, a TX_DONE that emits a part of its frame, and a reset. -/
theorem witness_OnlyTxDoneEmitsBytes :
    (MachineInv (awaiting [] ack 6 1) ∧
      step (awaiting [] ack 6 1) = .next (exchangeStep (awaiting [] ack 6 1))) ∧
    (MachineInv (sending 3) ∧ Move.exchange ∈ moves (sending 3) ∧
      (next? (step (sending 3))).map (fun t => (t.lineOut, t.xstate)) = some ([0xFF, 0xFF, 0x01], .idle)) ∧
    let resetting : State := { closed with env := { Env.start with resets := 1, sched := [.reset] } }
    MachineInv resetting ∧ Move.reset ∈ moves resetting ∧
      (next? (step resetting)).map (fun t => (t.lineOut, t.env.resets)) = some ([], 0) := by
  refine ⟨⟨awaiting_inv (by decide) (by decide +kernel), rfl⟩, ⟨sending_inv 3, by decide +kernel, by decide +kernel⟩, ?_,
    by decide +kernel, by decide +kernel⟩
  refine waiting_inv rfl rfl fun q hq => ?_
  simp only [closed, State.resetWith, List.mem_replicate] at hq
  exact hq.2 ▸ reset_ok

/-- Port 0's SEND is pending beside port 1's exchange: it is begun first although the schedule asks for the exchange, and is
PortBusy (60_exceptions.md R255). -/
def beside : State :=
  { sending 9 with
    ports := [{ Port.reset with pending := some (.instr (.sendUnicast 2 0x01 [])) },
      { Port.reset with pending := some unicastE1 }]
    env := { Env.start with writeDraws := [9], sched := [.exchange] } }

theorem beside_inv : MachineInv beside where
  params := show cfg.wf by decide
  ports := rfl
  portOk := by
    intro q hq
    simp only [beside, List.mem_cons, List.not_mem_nil, or_false] at hq
    rcases hq with rfl | rfl <;> exact ⟨reset_ok.idsDistinct, reset_ok.widths, reset_ok.resLen⟩
  exchange :=
    ⟨(sending_inv 9).exchange.busy, (sending_inv 9).exchange.owner, by
      intro q hq
      obtain rfl : 1 = q := by simpa [beside, sending] using hq
      exact ⟨Nat.lt_add_one 1, unicastE1, rfl, trivial⟩,
      (sending_inv 9).exchange.sending, (sending_inv 9).exchange.started⟩
  receive := ⟨(sending_inv 9).receive.buffer, (sending_inv 9).receive.target, (sending_inv 9).receive.header,
    (sending_inv 9).receive.fifo⟩

theorem witness_CommandsDoNotDisturbTheOwner :
    (MachineInv beside ∧ beside.busy = true ∧ beside.xowner = some 1 ∧
      (portAt beside 0).pending = some (.instr (.sendUnicast 2 0x01 [])) ∧ Move.exchange ∉ moves beside ∧
      (next? (step beside)).map (fun t => (t.busy, t.xowner, (portAt t 0).resCode)) = some (true, some 1, .portBusy)) ∧
    (sending 9).busy = true ∧ (sending 9).xowner = some 1 ∧ (sending 9).port ≠ 1 ∧
      (next? (exec .gwbSend (sending 9))).isSome = true ∧
      (next? (exec (.openLine 9600) (sending 9))).isSome = true :=
  ⟨⟨beside_inv, by decide +kernel⟩, by decide +kernel⟩

theorem witness_PortsKeepTheirOwnRegisters :
    (next? (exec (.gwbInit 1 2) (sending 9))).isSome = true ∧
      [Port.reset, Port.reset].length = (sending 9).ports.length ∧
      [Port.reset, Port.reset][(sending 9).port]? = (sending 9).ports[(sending 9).port]? := by decide +kernel

theorem witness_FlagsHaveNoOtherWriters :
    (next? (exec (.openLine 1) closed)).map (fun t => (t.lineOpen, closed.lineOpen)) = some (true, false) ∧
      (next? (exec .closeLine idle)).map (fun t => (t.lineOpen, idle.lineOpen)) = some (false, true) ∧
      (next? (exec .gwbSend grouped)).map (fun t => (t.busy, grouped.busy)) = some (true, false) ∧
      (portAfter (exec (.gwbInit 1 2) idle) 0).map (fun q => (q.gwbValid, (portAt idle 0).gwbValid)) =
        some (true, false) := by decide +kernel

theorem witness_PackAndUnpackAgree : pack16 .big 0xFFFE = [0xFF, 0xFE] := by decide

theorem witness_SignMagnitudeRoundTrips :
    (-0x7FFF : Int).natAbs ≤ 0x7FFF ∧ (2047 : Int).natAbs ≤ 2047 := by decide

end Sys2Proof.Tests
end

