-- ==== Sys2Proof/Proofs/Scope.lean ====
section
/-!
The machine's step as one agent's move (00_scope.md R8, R9): a scheduled move that is enabled is the step, and an enabled move
goes on unless it would issue a request that is no command.
-/

namespace Sys2Proof.Machine

/-! Enabled moves, one law per agent. -/

theorem exchange_mem_moves_iff (s : State) : Move.exchange ∈ moves s ↔
    exchangeReady s = true ∧ ∀ p q, s.ports[p]? = some q → q.pending ≠ none → s.xowner = some p := by
  rw [← not_servable_iff]
  simp [mem_moves_iff, and_comm]

theorem serve_mem_moves {s : State} {p : Nat} {q : Port} {c : Command} (hq : s.ports[p]? = some q)
    (hc : q.pending = some c) (hx : s.xowner ≠ some p) : Move.serve p ∈ moves s := by
  obtain ⟨hp, -⟩ := List.getElem?_eq_some_iff.mp hq
  have hs : servable s p = true := (servable_iff s p).mpr ⟨⟨c, by rw [portAt_of_getElem? hq, hc]⟩, hx⟩
  simp [mem_moves_iff, hp, hs]

theorem issue_mem_moves {s : State} {p : Nat} {q : Port} {r : Request} {later : List Request}
    (hq : s.ports[p]? = some q) (hc : q.pending = none) (hr : s.env.hostIn[p]? = some (r :: later)) :
    Move.issue p ∈ moves s := by
  obtain ⟨hp, -⟩ := List.getElem?_eq_some_iff.mp hq
  have hi : issueReady s p = true := (issueReady_iff s p).mpr ⟨⟨r, later, hr⟩, by rw [portAt_of_getElem? hq, hc]⟩
  simp [mem_moves_iff, hp, hi]

/-! Scheduled moves. -/

theorem step_of_scheduled {s : State} {m : Move} {rest : List Move} (hw : s.cfg.wf) (hs : s.env.sched = m :: rest)
    (hm : m ∈ moves s) : step s = runMove m (rescheduled s rest s.env.draws) := by
  have hp : pickMove s = some (m, rescheduled s rest s.env.draws) := by simp [pickMove, hs, hm, rescheduled]
  simp [step, machineStep, hw, hp]

theorem serve_of_pending {s : State} {p : Nat} {q : Port} {c : Command} (hq : s.ports[p]? = some q)
    (hc : q.pending = some c) : serve p s = runCommand c { s with port := p } := by
  simp [serve, portAt_of_getElem? hq, hc]

theorem step_of_scheduled_serve {s : State} {p : Nat} {q : Port} {c : Command} {rest : List Move} (hw : s.cfg.wf)
    (hs : s.env.sched = .serve p :: rest) (hq : s.ports[p]? = some q) (hc : q.pending = some c)
    (hx : s.xowner ≠ some p) : step s = runCommand c { s with port := p, env := { s.env with sched := rest } } := by
  rw [step_of_scheduled hw hs (serve_mem_moves hq hc hx)]
  exact serve_of_pending (s := rescheduled s rest s.env.draws) hq hc

theorem hostIssue_of_command {s : State} {p : Nat} {q : Port} {r : Request} {c : Command} {later : List Request}
    (hq : s.ports[p]? = some q) (hr : s.env.hostIn[p]? = some (r :: later)) (hd : decode r = .command c) :
    hostIssue s p = .next { s with
      ports := s.ports.set p { q with pending := some c }
      env := { s.env with hostIn := s.env.hostIn.set p later } } := by
  simp [hostIssue_eq hr, hd, issueCommand, onPort, modify_eq_set hq]

theorem step_of_scheduled_issue {s : State} {p : Nat} {q : Port} {r : Request} {c : Command} {later : List Request}
    {rest : List Move} (hw : s.cfg.wf) (hs : s.env.sched = .issue p :: rest) (hq : s.ports[p]? = some q)
    (hn : q.pending = none) (hr : s.env.hostIn[p]? = some (r :: later)) (hd : decode r = .command c) :
    step s = .next { s with
      ports := s.ports.set p { q with pending := some c }
      env := { s.env with hostIn := s.env.hostIn.set p later, sched := rest } } := by
  rw [step_of_scheduled hw hs (issue_mem_moves hq hn hr)]
  exact hostIssue_of_command (s := rescheduled s rest s.env.draws) hq hr hd

/-! Safe moves. -/

/-- Beginning a command on a port that exists goes on: every failure of a command is a completion (60_exceptions.md R240). -/
theorem serve_goes_on {s : State} {p : Nat} (hp : p < s.ports.length) : ∃ t, serve p s = .next t := by
  unfold serve
  split
  · exact ⟨s, rfl⟩
  · exact runCommand_goes_on (s := { s with port := p }) _ hp

/-- An issue goes on with a command and refuses what is none (30_encoding.md R98). -/
theorem hostIssue_safe {s : State} {p : Nat} (hm : Move.issue p ∈ moves s) (hr : issueReady s p = true) :
    SafeStep s (hostIssue s p) := by
  obtain ⟨⟨r, rest, hin⟩, -⟩ := (issueReady_iff s p).mp hr
  rw [hostIssue_eq hin]
  cases hd : decode r with
  | command c => trivial
  | malformed e => exact ⟨p, r, rest, hm, hin, hd⟩

theorem runMove_safe {s : State} {m : Move} (hm : m ∈ moves s) : SafeStep s (runMove m s) := by
  rcases (mem_moves_iff s m).mp hm with
    ⟨rfl, -⟩ | ⟨p, rfl, hp, -⟩ | ⟨p, rfl, -, hr⟩ | ⟨rfl, -⟩ | ⟨rfl, -⟩ | ⟨rfl, -⟩
  · trivial
  · obtain ⟨t, ht⟩ := serve_goes_on hp
    simp only [runMove, ht]
    trivial
  · exact hostIssue_safe hm hr
  · trivial
  · trivial
  · trivial

/-- Which steps are safe does not depend on the scheduler's own data. -/
theorem safeStep_rescheduled_iff (s : State) (sched : List Move) (draws : Nat)
    (o : Host.Outcome State Fault Refusal) : SafeStep (rescheduled s sched draws) o ↔ SafeStep s o := Iff.rfl

/-! The obligations. -/

/-- Settles O52: under legal parameters a step is one enabled move, and each of those is safe. -/
theorem noStepFaults : Obligations.NoStepFaults := by
  intro s hinv
  obtain ⟨m, hm, sched, draws, -, hstep⟩ := step_eq hinv.params
  rw [hstep, ← safeStep_rescheduled_iff s sched draws]
  exact runMove_safe hm

/-- Settles O48: the issue of a decoded instruction leaves it pending, so the same law serves it in the step after. -/
theorem stepRunsTheDecodedInstruction : Obligations.StepRunsTheDecodedInstruction := by
  intro s p q rest hw hq hx
  refine ⟨fun c hs hc => ?_, fun r i later hs hn hr hd => ?_⟩
  · have hrun := step_of_scheduled_serve hw hs hq hc hx
    exact ⟨hrun, fun i hi => by rw [hrun, hi]; rfl⟩
  · intro issued
    obtain ⟨hp, -⟩ := List.getElem?_eq_some_iff.mp hq
    have hq' : issued.ports[p]? = some { q with pending := some (.instr i) } := List.getElem?_set_self hp
    exact ⟨step_of_scheduled_issue hw hs hq hn hr hd, step_of_scheduled_serve (s := issued) hw rfl hq' rfl hx⟩

/-- Settles O49: nothing servable is exactly that every pending command is the exchange in progress. -/
theorem stepRunsTheExchange : Obligations.StepRunsTheExchange := by
  intro s alone
  refine ⟨exchange_mem_moves_iff s, fun rest hw hs hready halone => ?_⟩
  exact step_of_scheduled hw hs ((exchange_mem_moves_iff s).mpr ⟨hready, halone⟩)

end Sys2Proof.Machine
end

/-!
The state of the block (10_state.md): the invariant of R51 at reset and along every step, time, the flags' writers, and
what the register view shows.
-/

namespace Sys2Proof.Machine

/-! What the invariant allows to change. -/

/-- The line's registers, the bytes sent, the served port's number and the environment are no part of the invariant. -/
theorem MachineInv.of_line_and_env {s : State} (h : MachineInv s) (lineOpen : Bool) (baud : BitVec 32)
    (msPerByte : Millis) (lineOut : List Byte) (port : Nat) (env : Env) :
    MachineInv { s with
      lineOpen := lineOpen, baud := baud, msPerByte := msPerByte, lineOut := lineOut, port := port, env := env } :=
  ⟨h.params, h.ports, h.portOk, { h.exchange with }, { h.receive with }⟩

/-- Time that does not go back leaves an exchange's start behind it. -/
theorem MachineInv.of_now_le {s : State} (h : MachineInv s) {now : Millis} (hle : s.now ≤ now) :
    MachineInv { s with now := now } :=
  ⟨h.params, h.ports, h.portOk, { h.exchange with started := fun ha => (h.exchange.started ha).trans hle },
    { h.receive with }⟩

theorem MachineInv.of_fifo_fits {s : State} (h : MachineInv s) {fifo : List Byte}
    (hfit : ∀ d, s.cfg.rxFifoDepth = some d → fifo.length ≤ d) : MachineInv { s with rxFifo := fifo } :=
  ⟨h.params, h.ports, h.portOk, { h.exchange with }, { h.receive with fifo := hfit }⟩

theorem MachineInv.fifoFlush {s : State} (h : MachineInv s) : MachineInv (fifoFlush s) :=
  h.of_fifo_fits fun d _ => Nat.zero_le d

/-- Rewriting the registers of a port keeps every port well kept, when the rewriting does. -/
theorem portOk_modify {ps : List Port} (h : ∀ q ∈ ps, q.Ok) (p : Nat) {f : Port → Port}
    (hf : ∀ q : Port, q.Ok → (f q).Ok) : ∀ q ∈ ps.modify p f, q.Ok := by
  intro q hq
  rcases mem_modify hq with hq | ⟨r, hr, rfl⟩
  · exact h q hq
  · exact hf r (h r hr)

/-- The exchange's owner is untouched by what another port's registers become. -/
theorem MachineInv.onPort {s : State} (h : MachineInv s) {p : Nat} (hp : s.xowner ≠ some p) {f : Port → Port}
    (hf : ∀ q : Port, q.Ok → (f q).Ok) : MachineInv (onPort s p f) where
  params := h.params
  ports := by simp [h.ports]
  portOk := portOk_modify h.portOk p hf
  exchange :=
    { busy := h.exchange.busy
      owner := h.exchange.owner
      ownerPending := fun q hq => by
        have hne : p ≠ q := fun e => hp (e ▸ hq)
        rw [portAt_onPort_ne hne]
        simpa using h.exchange.ownerPending q hq
      sending := h.exchange.sending
      started := h.exchange.started }
  receive := { h.receive with }

/-! The exchange. -/

/-- TX_START of a frame that fits, for a SEND that is pending (42_request_response.md R172). -/
theorem MachineInv.begun {s : State} (h : MachineInv s) {p : Nat} {c : Command} (hp : p < s.ports.length)
    (hc : (portAt s p).pending = some c) (hsend : IsSend c) (kind : XKind) (id code : Byte) {params : List Byte}
    (hfit : params.length + 6 ≤ s.cfg.txMaxLen) : MachineInv (begun s p kind id (frameOf id code params)) where
  params := h.params
  ports := h.ports
  portOk := h.portOk
  exchange :=
    { busy := by simp [Machine.begun]
      owner := by simp [Machine.begun]
      ownerPending := fun q hq => by
        obtain rfl : p = q := by simpa [Machine.begun] using hq
        exact ⟨hp, c, hc, hsend⟩
      sending := fun _ => by simpa [Machine.begun] using hfit
      started := by simp [Machine.begun] }
  receive := ⟨h.receive.buffer, h.receive.target, by simp [Machine.begun], by simp [Machine.begun]⟩

/-- An exchange that ends releases the port, and its receive buffer may be emptied with it (42_request_response.md R176,
41_frame_codec.md R148). -/
theorem MachineInv.ended {s : State} (h : MachineInv s) (q : Nat) {f : Port → Port}
    (hf : ∀ x : Port, x.Ok → (f x).Ok) {buf : List Byte} (hbuf : buf.length ≤ s.rxBuf.length) :
    MachineInv (ended { s with rxBuf := buf } q f) where
  params := h.params
  ports := (List.length_modify ..).trans h.ports
  portOk := portOk_modify h.portOk q hf
  exchange := ⟨by simp, by simp, by simp, by simp, by simp⟩
  receive := ⟨hbuf.trans h.receive.buffer, h.receive.target, by simp, h.receive.fifo⟩

theorem MachineInv.ended_keeping_buffer {s : State} (h : MachineInv s) (q : Nat) {f : Port → Port}
    (hf : ∀ x : Port, x.Ok → (f x).Ok) : MachineInv (Machine.ended s q f) :=
  h.ended q hf le_rfl

theorem MachineInv.writeTx {s : State} (h : MachineInv s) : MachineInv (writeTx s).2 := by
  rw [writeTx_eq]
  exact h.of_line_and_env ..

/-- PARSE_START with its timer begins a receive with nothing held (41_frame_codec.md R143, 40_transport.md R128). -/
theorem MachineInv.parseStart {s : State} (h : MachineInv s) (hs : s.xstate = .sending) (n : Nat) :
    MachineInv (parseStart (startTimer s n)) where
  params := h.params
  ports := h.ports
  portOk := h.portOk
  exchange :=
    { busy := by simp [h.exchange.busy, hs]
      owner := h.exchange.owner
      ownerPending := h.exchange.ownerPending
      sending := by simp
      started := by simp }
  receive := ⟨by simp, .inl rfl, fun _ => .inl rfl, h.receive.fifo⟩

/-- An exchange in progress has an owner. -/
theorem MachineInv.owned {s : State} (h : MachineInv s) (hx : s.xstate ≠ .idle) : ∃ q, s.xowner = some q :=
  Option.ne_none_iff_exists'.mp (h.exchange.owner.mp (h.exchange.busy.mpr hx))

theorem MachineInv.txDone {s : State} (h : MachineInv s) (hs : s.xstate = .sending) : MachineInv (txDone s) := by
  obtain ⟨q, hq⟩ := h.owned (by simp [hs])
  rcases txDone_cases hq with ⟨-, -, e⟩ | ⟨-, -, e⟩ | ⟨-, -, e⟩ | ⟨-, -, e⟩ <;> rw [e]
  · exact h.writeTx.ended_keeping_buffer q fun _ hx => hx.completeCode _
  · exact h.writeTx.ended_keeping_buffer q fun _ hx => hx.completeCode _
  · exact h.writeTx.ended_keeping_buffer q fun _ hx => hx.completeUnicast _ _ (by simp)
  · exact h.writeTx.parseStart (by simpa using hs) _

/-! The receive. -/

/-- A receive whose target is still `P_MIN_FRAME` may drop bytes from its buffer. -/
theorem MachineInv.drop_rxBuf {s : State} (h : MachineInv s) (hw : s.want = s.cfg.minFrame) (k : Nat) :
    MachineInv { s with rxBuf := s.rxBuf.drop k } where
  params := h.params
  ports := h.ports
  portOk := h.portOk
  exchange := { h.exchange with }
  receive := ⟨(by simp : (s.rxBuf.drop k).length ≤ _).trans h.receive.buffer, h.receive.target, fun _ => .inl hw,
    h.receive.fifo⟩

/-- PARSE_PULL stays within the target and keeps an accepted header (41_frame_codec.md R145). -/
theorem MachineInv.pull {s : State} (h : MachineInv s) {b : Byte} {rest : List Byte}
    (hlt : s.rxBuf.length < s.want) (hf : s.rxFifo = b :: rest) :
    MachineInv { s with rxFifo := rest, rxBuf := s.rxBuf ++ [b] } where
  params := h.params
  ports := h.ports
  portOk := h.portOk
  exchange := { h.exchange with }
  receive :=
    { buffer := by
        rw [List.length_append, List.length_singleton]
        exact le_max_of_le_left hlt
      target := h.receive.target
      header := fun ha => (h.receive.header ha).imp_right fun hs => hs.append h.params [b]
      fifo := fun d hd => by
        have := h.receive.fifo d hd
        simp only [hf, List.length_cons] at this ⊢
        omega }

/-- The length field of an accepted header sets the target, once (41_frame_codec.md R152). -/
theorem MachineInv.setLength {s : State} (h : MachineInv s) (hw : s.want = s.cfg.minFrame)
    (hle : s.want ≤ s.rxBuf.length) (hh : findHeader s.rxBuf = some 0) (hi : (byteAt s.rxBuf 2).toNat ≤ s.cfg.rxIdMax)
    (hl : (byteAt s.rxBuf 3).toNat ≤ s.cfg.rxMaxLen) :
    MachineInv { s with want := (byteAt s.rxBuf 3).toNat + 4 } where
  params := h.params
  ports := h.ports
  portOk := h.portOk
  exchange := { h.exchange with }
  receive :=
    { buffer := by
        have := h.receive.buffer
        change s.rxBuf.length ≤ max _ s.cfg.minFrame
        omega
      target := .inr ⟨by simp, by simpa using hl⟩
      header := fun _ => .inr ⟨(findHeader_eq_zero_iff _).mp hh, hi, hl, rfl, hw ▸ hle⟩
      fifo := h.receive.fifo }

theorem MachineInv.verifyFrame {s : State} (h : MachineInv s) {q : Nat} (hq : s.xowner = some q)
    (hw : s.want = (byteAt s.rxBuf 3).toNat + 4) : MachineInv (verifyFrame s) := by
  have hlen : (s.rxBuf.take s.want).length ≤ 65536 := by
    have := (byteAt s.rxBuf 3).isLt
    simp only [List.length_take]
    omega
  rcases verifyFrame_cases hq with ⟨e, -⟩ | e <;> rw [e]
  · exact h.ended q (fun _ hx => hx.completeUnicast _ _ hlen) (by simp)
  · exact h.ended q (fun _ hx => hx.completeUnicast _ _ (by simp)) (by simp)

/-- While the buffer does not show an acceptable header whose length is the target, the target is still `P_MIN_FRAME`. -/
theorem MachineInv.want_eq_minFrame {s : State} (h : MachineInv s) (ha : s.xstate = .awaitingResponse)
    (hn : ¬ HeaderSet s.cfg s.rxBuf s.want) : s.want = s.cfg.minFrame :=
  (h.receive.header ha).resolve_right hn

theorem MachineInv.receiveStep {s : State} (h : MachineInv s) (ha : s.xstate = .awaitingResponse) :
    MachineInv (receiveStep s) := by
  obtain ⟨q, hq⟩ := h.owned (by simp [ha])
  have fails : ∀ c : CommResult,
      MachineInv (Machine.ended { s with rxBuf := [] } q fun x => x.completeUnicast c 0 []) := fun c =>
    h.ended q (fun _ hx => hx.completeUnicast _ _ (by simp)) (by simp)
  have hc := receiveStep_cases hq
  generalize Machine.receiveStep s = t at hc
  cases hc with
  | wait => exact h
  | pull b rest hlt hf => exact h.pull hlt hf
  | expireEmpty => exact fails _
  | expirePartial => exact fails _
  | noHeaderExpired => exact fails _
  | noHeader hle hh he =>
    exact h.drop_rxBuf (h.want_eq_minFrame ha fun hs => by simp [hs.findHeader_eq] at hh) _
  | later i hle hh =>
    exact h.drop_rxBuf (h.want_eq_minFrame ha fun hs => by simp [hs.findHeader_eq] at hh) _
  | spurious hle hh hs =>
    refine h.drop_rxBuf (h.want_eq_minFrame ha fun hset => ?_) _
    have hid := hset.id
    have hlen := hset.length
    omega
  | setLength hle hh hi hl hw =>
    exact h.setLength (h.want_eq_minFrame ha fun hs => hw hs.target) hle hh hi hl
  | verify hle hh hi hl hw => exact h.verifyFrame hq hw

theorem MachineInv.exchangeStep {s : State} (h : MachineInv s) : MachineInv (exchangeStep s) := by
  cases hx : s.xstate with
  | idle => simpa [Machine.exchangeStep, hx] using h
  | sending => exact exchangeStep_sending hx ▸ h.txDone hx
  | awaitingResponse => exact exchangeStep_awaiting hx ▸ h.receiveStep hx

/-! Commands. -/

theorem Begins.isSend {c : Command} (h : Begins c) : IsSend c := by
  cases h <;> trivial

theorem MachineInv.drawOpen {s : State} (h : MachineInv s) : MachineInv (drawOpen s).2 := by
  rw [drawOpen_eq]
  exact h.of_line_and_env ..

/-- A command that is pending on a port, and is not the exchange in progress, keeps the invariant. -/
theorem CommandCase.machineInv {c : Command} {s t : State} (hc : CommandCase c s t) (h : MachineInv s)
    (hp : s.port < s.ports.length) (hpend : (portAt s s.port).pending = some c) (hx : s.xowner ≠ some s.port) :
    MachineInv t := by
  cases hc with
  | atOnce g hg => exact h.onPort hx fun q hq => (hg q).ok hq
  | openRefused => exact h.drawOpen.onPort (by simpa using hx) fun q hq => hq.completeBool _
  | opened => exact (h.drawOpen.fifoFlush.of_line_and_env ..).onPort (by simpa using hx) fun q hq => hq.completeBool _
  | closed => exact (h.fifoFlush.of_line_and_env ..).onPort hx fun q hq => hq.complete _
  | began kind id code params hf _ hfit => exact h.begun hp hpend hf.isSend kind id code hfit

theorem MachineInv.serve {s t : State} (h : MachineInv s) {p : Nat} (hs : servable s p = true)
    (ht : serve p s = .next t) : MachineInv t := by
  obtain ⟨⟨c, hpend⟩, hx⟩ := (servable_iff s p).mp hs
  simp only [Machine.serve, hpend] at ht
  obtain ⟨hp, hc⟩ := runCommand_cases ht
  exact hc.machineInv (h.of_line_and_env s.lineOpen s.baud s.msPerByte s.lineOut p s.env) hp hpend hx

/-! The agents around the Engine. -/

/-- A host issues on a port with nothing pending, which is not the owner's. -/
theorem MachineInv.issueCommand {s : State} (h : MachineInv s) {p : Nat} (hn : (portAt s p).pending = none)
    (c : Command) (rest : List Request) : MachineInv (issueCommand s p c rest) := by
  have hx : s.xowner ≠ some p := by
    intro ho
    obtain ⟨-, c', hc', -⟩ := h.exchange.ownerPending p ho
    simp [hn] at hc'
  exact (h.onPort hx (f := fun q => { q with pending := some c }) fun q hq =>
    ⟨hq.idsDistinct, hq.widths, hq.resLen⟩).of_line_and_env ..

/-- A bounded FIFO takes a byte only when it has room (40_transport.md R131, R134). -/
theorem MachineInv.lineDeliver {s : State} (h : MachineInv s) (b : Byte) : MachineInv (lineDeliver s b) := by
  unfold Machine.lineDeliver
  split
  · have hfit : ∀ d, s.cfg.rxFifoDepth = some d →
        (if fifoFull s then s.rxFifo else s.rxFifo ++ [b]).length ≤ d := by
      intro d hd
      cases hfull : fifoFull s with
      | true => exact h.receive.fifo d hd
      | false => simpa using (fifoFull_eq_false_iff s).mp hfull d hd
    exact (h.of_fifo_fits hfit).of_line_and_env ..
  · exact h

theorem MachineInv.lineMove {s : State} (h : MachineInv s) : MachineInv (lineMove s) := by
  unfold Machine.lineMove
  split
  · exact h
  · exact (h.of_line_and_env ..).lineDeliver _

theorem MachineInv.clockMove {s : State} (h : MachineInv s) : MachineInv (clockMove s) := by
  rw [clockMove_eq]
  exact (h.of_now_le (drawTime_gt s).le).of_line_and_env ..

theorem portOk_reset : Port.reset.Ok :=
  ⟨by simp [Port.reset, Port.gwbIds], by simp [Port.reset], by simp [Port.reset, Port.resLen]⟩

/-- The reset values meet the invariant, for all legal parameters (10_state.md R50, R51). -/
theorem machineInv_resetWith {cfg : Params} (hw : cfg.wf) (now : Millis) (env : Env) :
    MachineInv (State.resetWith cfg now env) where
  params := hw
  ports := by simp [State.resetWith]
  portOk := fun q hq => List.eq_of_mem_replicate hq ▸ portOk_reset
  exchange := ⟨by simp [State.resetWith], by simp [State.resetWith], by simp [State.resetWith],
    by simp [State.resetWith], by simp [State.resetWith]⟩
  receive := ⟨by simp [State.resetWith], .inl rfl, by simp [State.resetWith], by simp [State.resetWith]⟩

/-- Every enabled move keeps the invariant. -/
theorem MachineInv.runMove {s t : State} (h : MachineInv s) {m : Move} (hm : m ∈ moves s)
    (ht : runMove m s = .next t) : MachineInv t := by
  rcases (mem_moves_iff s m).mp hm with
    ⟨rfl, -⟩ | ⟨p, rfl, -, hs⟩ | ⟨p, rfl, -, hr⟩ | ⟨rfl, -⟩ | ⟨rfl, -⟩ | ⟨rfl, -⟩
  case inr.inl => exact h.serve hs ht
  case inr.inr.inl =>
    obtain ⟨⟨r, rest, hin⟩, hn⟩ := (issueReady_iff s p).mp hr
    obtain ⟨c, -, rfl⟩ := (hostIssue_eq_next_iff hin).mp ht
    exact h.issueCommand hn c rest
  all_goals
    simp only [Machine.runMove, Host.Outcome.next.injEq] at ht
    subst ht
  · exact h.exchangeStep
  · exact h.lineMove
  · exact h.clockMove
  · exact machineInv_resetWith h.params _ _

/-! Pending commands. -/

/-- Every port of `t` is one of `s`, or has nothing pending. -/
def OnlyCompletes (s t : State) : Prop := ∀ q ∈ t.ports, q ∈ s.ports ∨ q.pending = none

theorem PendingOk.of_onlyCompletes {s t : State} (h : PendingOk s) (hc : OnlyCompletes s t) : PendingOk t := by
  intro q hq c hpend
  rcases hc q hq with hold | hnone
  · exact h q hold c hpend
  · simp [hnone] at hpend

theorem onlyCompletes_of_ports_eq {s t : State} (h : t.ports = s.ports) : OnlyCompletes s t :=
  fun _ hq => .inl (h ▸ hq)

theorem onlyCompletes_of_ports_modify {s t : State} {p : Nat} {f : Port → Port} (h : t.ports = s.ports.modify p f)
    (hf : ∀ q, (f q).pending = none) : OnlyCompletes s t := by
  intro q hq
  rcases mem_modify (h ▸ hq) with hq | ⟨r, -, rfl⟩
  · exact .inl hq
  · exact .inr (hf r)

/-- A command leaves the ports, or does to its own port what a command that completes at once does. -/
theorem CommandCase.ports {c : Command} {s t : State} (hc : CommandCase c s t) :
    t.ports = s.ports ∨ ∃ g, (∀ q, PortEffect c q (g q)) ∧ t.ports = s.ports.modify s.port g := by
  cases hc with
  | atOnce g hg => exact .inr ⟨g, hg, rfl⟩
  | openRefused => exact .inr ⟨_, fun _ => .bool false, by simp⟩
  | opened => exact .inr ⟨_, fun _ => .bool true, by simp⟩
  | closed => exact .inr ⟨_, fun _ => .done, rfl⟩
  | began => exact .inl rfl

theorem CommandCase.onlyCompletes {c : Command} {s t : State} (hc : CommandCase c s t) : OnlyCompletes s t := by
  rcases hc.ports with e | ⟨g, hg, e⟩
  · exact onlyCompletes_of_ports_eq e
  · exact onlyCompletes_of_ports_modify e fun q => (hg q).pending

theorem completeUnicastExchange_onlyCompletes (s : State) (c : CommResult) :
    OnlyCompletes s (completeUnicastExchange s c) := by
  unfold completeUnicastExchange
  split
  · exact onlyCompletes_of_ports_modify rfl fun _ => rfl
  · exact onlyCompletes_of_ports_eq rfl

theorem completeOk_onlyCompletes (s : State) (f : List Byte) : OnlyCompletes s (completeOk s f) := by
  unfold completeOk
  split
  · exact onlyCompletes_of_ports_modify rfl fun _ => rfl
  · exact onlyCompletes_of_ports_eq rfl

theorem completeBroadcast_onlyCompletes (s : State) (c : CommResult) :
    OnlyCompletes s (completeBroadcast s c) := by
  unfold completeBroadcast
  split
  · exact onlyCompletes_of_ports_modify rfl fun _ => rfl
  · exact onlyCompletes_of_ports_eq rfl

theorem txDone_onlyCompletes (s : State) : OnlyCompletes s (txDone s) := by
  have written : ∀ t, OnlyCompletes (writeTx s).2 t → OnlyCompletes s t := by simp [OnlyCompletes]
  apply written
  unfold txDone
  dsimp only
  split <;> split
  · exact completeBroadcast_onlyCompletes _ _
  · exact completeUnicastExchange_onlyCompletes _ _
  · exact completeBroadcast_onlyCompletes _ _
  · exact onlyCompletes_of_ports_eq rfl

theorem finishFail_onlyCompletes (s : State) (c : CommResult) : OnlyCompletes s (finishFail s c) :=
  completeUnicastExchange_onlyCompletes { s with rxBuf := [] } c

theorem finishOk_onlyCompletes (s : State) (f : List Byte) : OnlyCompletes s (finishOk s f) := by
  unfold finishOk postReceive
  split
  · exact completeUnicastExchange_onlyCompletes { s with rxBuf := [] } _
  · exact completeOk_onlyCompletes { s with rxBuf := [] } _

theorem verifyFrame_onlyCompletes (s : State) : OnlyCompletes s (verifyFrame s) := by
  unfold verifyFrame
  dsimp only
  split
  · exact finishOk_onlyCompletes _ _
  · exact finishFail_onlyCompletes _ _

theorem parseEval_onlyCompletes (s : State) : OnlyCompletes s (parseEval s) := by
  unfold parseEval
  split
  · unfold headerNotFound
    split
    · exact finishFail_onlyCompletes _ _
    · exact onlyCompletes_of_ports_eq rfl
  · unfold headerAtZero
    split
    · exact onlyCompletes_of_ports_eq rfl
    · split
      · exact onlyCompletes_of_ports_eq rfl
      · exact verifyFrame_onlyCompletes s
  · exact onlyCompletes_of_ports_eq rfl

theorem receiveStep_onlyCompletes (s : State) : OnlyCompletes s (receiveStep s) := by
  unfold receiveStep
  split
  · split
    · unfold parsePull
      split <;> exact onlyCompletes_of_ports_eq rfl
    · split
      · unfold parseExpire
        split <;> exact finishFail_onlyCompletes _ _
      · exact onlyCompletes_of_ports_eq rfl
  · exact parseEval_onlyCompletes s

theorem exchangeStep_onlyCompletes (s : State) : OnlyCompletes s (exchangeStep s) := by
  unfold exchangeStep
  split
  · exact onlyCompletes_of_ports_eq rfl
  · exact txDone_onlyCompletes s
  · exact receiveStep_onlyCompletes s

theorem serve_onlyCompletes {s t : State} {p : Nat} (ht : serve p s = .next t) : OnlyCompletes s t := by
  unfold serve at ht
  split at ht
  · cases ht
    exact onlyCompletes_of_ports_eq rfl
  · exact (runCommand_cases ht).2.onlyCompletes

theorem lineMove_ports (s : State) : (lineMove s).ports = s.ports := by
  unfold lineMove lineDeliver
  split
  · rfl
  · split <;> rfl

/-! Only well-formed commands are decoded (30_encoding.md R98). -/

/-- What was decoded is a well-formed command, or none. -/
def DecodesWell : Decoded → Prop
  | .command c => c.WellFormed
  | .malformed _ => True

theorem decodesWell_decodeU32 (op : Byte) {k : BitVec 32 → Instr} (hk : ∀ v, (k v).WellFormed) (bytes : List Byte) :
    DecodesWell (decodeU32 op k bytes) := by
  unfold decodeU32
  split
  · exact hk _
  · trivial

theorem decodesWell_decodeNone (op : Byte) {i : Instr} (hi : i.WellFormed) (bytes : List Byte) :
    DecodesWell (decodeNone op i bytes) := by
  unfold decodeNone
  split
  · exact hi
  · trivial

theorem decodesWell_decodeUnicast (op : Byte) (bytes : List Byte) : DecodesWell (decodeUnicast op bytes) := by
  unfold decodeUnicast
  split <;> trivial

theorem decodesWell_decodeBroadcast (op : Byte) (bytes : List Byte) : DecodesWell (decodeBroadcast op bytes) := by
  unfold decodeBroadcast
  split <;> trivial

theorem decodesWell_decodeGwbInit (op : Byte) (bytes : List Byte) : DecodesWell (decodeGwbInit op bytes) := by
  unfold decodeGwbInit
  split <;> trivial

theorem decodesWell_decodeGwbAdd (op : Byte) (bytes : List Byte) : DecodesWell (decodeGwbAdd op bytes) := by
  unfold decodeGwbAdd
  split <;> trivial

/-- An opcode that is none of the table's is unassigned (30_encoding.md R103). -/
theorem decodesWell_decodeCommand (op : Byte) (bytes : List Byte) : DecodesWell (decodeCommand op bytes) := by
  unfold decodeCommand
  split_ifs with h01 h02 h03 h10 h11 h20 h21 h22 h23
  · exact decodesWell_decodeU32 op (fun _ => trivial) bytes
  · exact decodesWell_decodeNone op trivial bytes
  · exact decodesWell_decodeU32 op (fun _ => trivial) bytes
  · exact decodesWell_decodeUnicast op bytes
  · exact decodesWell_decodeBroadcast op bytes
  · exact decodesWell_decodeGwbInit op bytes
  · exact decodesWell_decodeGwbAdd op bytes
  · exact decodesWell_decodeNone op trivial bytes
  · exact decodesWell_decodeNone op trivial bytes
  · change op ∉ assignedOpcodes
    simp only [assignedOpcodes, List.mem_cons, List.not_mem_nil, not_or]
    exact ⟨h01, h02, h03, h10, h11, h20, h21, h22, h23, not_false⟩

theorem decodesWell_wireInstr (id code : Byte) {params : List Byte} (hfit : frameParamsFit params) :
    DecodesWell (wireInstr id code params) := by
  unfold wireInstr
  split_ifs with h01 h02 h03 h83
  · exact hfit
  · exact hfit
  · exact hfit
  · exact hfit
  · refine ⟨?_, hfit⟩
    simp only [namedCodes, List.mem_cons, List.not_mem_nil, not_or]
    exact ⟨h01, h02, h03, h83, not_false⟩

/-- A frame's length byte bounds its params (30_encoding.md R84). -/
theorem decodesWell_decodeFrame (frame : List Byte) : DecodesWell (decodeFrame frame) := by
  unfold decodeFrame
  split
  · rename_i h0 h1 id len code rest
    split_ifs with hheader hlen
    · trivial
    · trivial
    · split
      · trivial
      · split_ifs with hchk
        · trivial
        · apply decodesWell_wireInstr
          have hbyte := len.isLt
          simp only [frameParamsFit, List.length_dropLast]
          omega
  · trivial

theorem decodesWell_decode (r : Request) : DecodesWell (decode r) := by
  cases r with
  | host message =>
    cases message with
    | nil => trivial
    | cons op operands => exact decodesWell_decodeCommand op operands
  | wire frame => exact decodesWell_decodeFrame frame

theorem wellFormed_of_decode {r : Request} {c : Command} (h : decode r = .command c) : c.WellFormed := by
  have hw := decodesWell_decode r
  rw [h] at hw
  exact hw

theorem PendingOk.issueCommand {s : State} (h : PendingOk s) {c : Command} (hc : c.WellFormed) (p : Nat)
    (rest : List Request) : PendingOk (issueCommand s p c rest) := by
  intro q hq c' hpend
  rcases mem_modify hq with hq | ⟨r, -, rfl⟩
  · exact h q hq c' hpend
  · obtain rfl : c = c' := by simpa using hpend
    exact hc

theorem pendingOk_resetWith (cfg : Params) (now : Millis) (env : Env) : PendingOk (State.resetWith cfg now env) := by
  intro q hq c hpend
  obtain rfl : q = Port.reset := List.eq_of_mem_replicate hq
  simp [Port.reset] at hpend

/-- Every enabled move leaves only commands pending that a host can issue. -/
theorem PendingOk.runMove {s t : State} (h : PendingOk s) {m : Move} (hm : m ∈ moves s)
    (ht : runMove m s = .next t) : PendingOk t := by
  rcases (mem_moves_iff s m).mp hm with
    ⟨rfl, -⟩ | ⟨p, rfl, -⟩ | ⟨p, rfl, -, hr⟩ | ⟨rfl, -⟩ | ⟨rfl, -⟩ | ⟨rfl, -⟩
  case inr.inl => exact h.of_onlyCompletes (serve_onlyCompletes ht)
  case inr.inr.inl =>
    obtain ⟨⟨r, rest, hin⟩, -⟩ := (issueReady_iff s p).mp hr
    obtain ⟨c, hd, rfl⟩ := (hostIssue_eq_next_iff hin).mp ht
    exact h.issueCommand (wellFormed_of_decode hd) p rest
  all_goals
    simp only [Machine.runMove, Host.Outcome.next.injEq] at ht
    subst ht
  · exact h.of_onlyCompletes (exchangeStep_onlyCompletes s)
  · exact h.of_onlyCompletes (onlyCompletes_of_ports_eq (lineMove_ports s))
  · exact h.of_onlyCompletes (onlyCompletes_of_ports_eq (by rw [clockMove_eq]))
  · exact pendingOk_resetWith _ _ _

/-! Time. -/

theorem CommandCase.now {c : Command} {s t : State} (hc : CommandCase c s t) : t.now = s.now := by
  cases hc with
  | atOnce => rfl
  | openRefused => simp
  | opened => simp
  | closed => rfl
  | began => rfl

theorem serve_now {s t : State} {p : Nat} (ht : serve p s = .next t) : t.now = s.now := by
  unfold serve at ht
  split at ht
  · cases ht
    rfl
  · exact (runCommand_cases ht).2.now

theorem hostIssue_now {s t : State} {p : Nat} (ht : hostIssue s p = .next t) : t.now = s.now := by
  unfold hostIssue at ht
  split at ht
  · cases ht
    rfl
  · split at ht <;> cases ht
    rfl

/-- Every agent but the Clock leaves time alone (10_state.md R36). -/
theorem runMove_now {s t : State} {m : Move} (hm : m ≠ .clock) (ht : runMove m s = .next t) : t.now = s.now := by
  cases m with
  | serve p => exact serve_now ht
  | issue p => exact hostIssue_now ht
  | clock => exact absurd rfl hm
  | exchange => cases ht; exact exchangeStep_now s
  | line => cases ht; exact lineMove_now s
  | reset => cases ht; rfl

/-- The Clock draws from its recorded times and the counter, and changes nothing else of the environment. -/
theorem drawTime_env (s : State) : (drawTime s).2.env =
    { s.env with clockIn := (drawTime s).2.env.clockIn, draws := (drawTime s).2.env.draws } := by
  rcases drawTime_cases s with ⟨t, rest, -, -, e⟩ | ⟨-, e⟩ <;> rw [e]

/-- A free draw of the Clock reads the counter and advances it. -/
theorem clockMove_of_no_recorded {s : State} (h : s.env.clockIn = []) :
    (clockMove s).now = Config.clockTime s.now s.env.draws ∧ (clockMove s).env.draws = s.env.draws + 1 := by
  simp [clockMove, drawTime, h]

/-- `s` runs for ever, through states that meet the invariant. -/
def RunsForever (s : State) : Prop := ∀ k, ∃ t, Host.Core.run Sys2Proof.core k s = .next t ∧ MachineInv t

theorem RunsForever.machineInv {s : State} (h : RunsForever s) : MachineInv s := by
  obtain ⟨t, ht, hinv⟩ := h 0
  cases ht
  exact hinv

theorem RunsForever.step {s : State} (h : RunsForever s) : ∃ t, step s = .next t ∧ RunsForever t := by
  obtain ⟨t, ht, -⟩ := h 1
  have hs := step_of_run_one Sys2Proof.core ht
  refine ⟨t, hs, fun k => ?_⟩
  rw [← run_succ_of_step Sys2Proof.core k hs]
  exact h (k + 1)

/-- The run from `s` comes to a time above `bound`. -/
def Passes (bound : Millis) (s : State) : Prop :=
  ∃ k t, Host.Core.run Sys2Proof.core k s = .next t ∧ bound < t.now

theorem Passes.of_step {bound : Millis} {s t : State} (hs : step s = .next t) (h : Passes bound t) :
    Passes bound s := by
  obtain ⟨k, u, hu, hb⟩ := h
  exact ⟨k + 1, u, (run_succ_of_step Sys2Proof.core k hs).trans hu, hb⟩

/-- What a run has before it until the Clock passes the time that draw `N` reaches: its work, and the draws up to `N`. -/
def drawsLeft (N : Nat) (s : State) : (Nat ×ₗ Nat ×ₗ Nat ×ₗ Nat) ×ₗ Nat := toLex (workLeft s, N - s.env.draws)

/-- A step leaves fewer draws before `N`, or is a draw of the Clock at `N` or later. -/
theorem step_drawsLeft_lt {s t : State} (h : MachineInv s) (hs : step s = .next t) (N : Nat) :
    drawsLeft N t < drawsLeft N s ∨ ∃ now k, N ≤ k ∧ t.now = Config.clockTime now k := by
  rcases step_progress h hs with hlt | ⟨heq, hin, sched, draws, hd, rfl⟩
  · exact .inl (Prod.Lex.toLex_lt_toLex.mpr (.inl hlt))
  · obtain ⟨hnow, hnext⟩ := clockMove_of_no_recorded (s := rescheduled s sched draws) hin
    by_cases hN : N ≤ draws
    · exact .inr ⟨s.now, draws, hN, hnow⟩
    · refine .inl (Prod.Lex.toLex_lt_toLex.mpr (.inr ⟨heq, ?_⟩))
      have hdraws : (rescheduled s sched draws).env.draws = draws := rfl
      rw [hnext, hdraws]
      omega

/-- Time passes every bound: the work runs out, and then the Clock's draws reach it (40_transport.md R135). -/
theorem RunsForever.passes {s : State} (h : RunsForever s) (bound : Millis) : Passes bound s := by
  obtain ⟨n, hn⟩ := exists_nat_gt bound
  induction hm : drawsLeft (max n (Config.clockReach n)) s using WellFoundedLT.induction generalizing s with
  | ind m ih =>
    obtain ⟨t, hs, ht⟩ := h.step
    rcases step_drawsLeft_lt h.machineInv hs (max n (Config.clockReach n)) with hlt | ⟨now, k, hk, hnow⟩
    · exact .of_step hs (ih _ (hm ▸ hlt) ht rfl)
    · have hreach : (n : Millis) ≤ Config.clockTime now k :=
        le_clockTime now (le_of_max_le_left hk) (le_of_max_le_right hk)
      exact .of_step hs ⟨0, t, rfl, hn.trans_le (hnow ▸ hreach)⟩

/-! The flags' writers. -/

/-- The line is opened by OPEN and closed by CLOSE alone (10_state.md R45). -/
theorem CommandCase.lineOpen {c : Command} {s t : State} (hc : CommandCase c s t) : t.lineOpen = s.lineOpen ∨
    (t.lineOpen = true ∧ ∃ b, c = .instr (.openLine b)) ∨ (t.lineOpen = false ∧ c = .instr .closeLine) := by
  cases hc with
  | atOnce => exact .inl rfl
  | openRefused => exact .inl (by simp)
  | opened b hf => exact .inr (.inl ⟨rfl, b, hf⟩)
  | closed hf => exact .inr (.inr ⟨rfl, hf⟩)
  | began => exact .inl rfl

/-- The port is acquired by the commands that begin an exchange alone (10_state.md R45). -/
theorem CommandCase.busy {c : Command} {s t : State} (hc : CommandCase c s t) :
    t.busy = s.busy ∨ (t.busy = true ∧ Begins c) := by
  cases hc with
  | atOnce => exact .inl rfl
  | openRefused => exact .inl (by simp)
  | opened => exact .inl (by simp)
  | closed => exact .inl rfl
  | began _ _ _ _ hf => exact .inr ⟨rfl, hf⟩

theorem begins_instr_iff (i : Instr) : Begins (.instr i) ↔
    (∃ a b c, i = .sendUnicast a b c) ∨ (∃ a b, i = .sendBroadcast a b) ∨ i = .gwbSend ∨ (∃ a b, i = .ping a b) ∨
      (∃ a b, i = .read a b) ∨ (∃ a b, i = .write a b) ∨ ∃ a b, i = .syncWrite a b := by
  constructor
  · intro h
    cases h <;> simp
  · rintro (⟨a, b, c, rfl⟩ | ⟨a, b, rfl⟩ | rfl | ⟨a, b, rfl⟩ | ⟨a, b, rfl⟩ | ⟨a, b, rfl⟩ | ⟨a, b, rfl⟩) <;> constructor

/-- A group write buffer becomes valid by GWB_INIT alone (10_state.md R45). -/
theorem PortEffect.gwbValid {c : Command} {q q' : Port} (h : PortEffect c q q') :
    q'.gwbValid = q.gwbValid ∨ (q'.gwbValid = true ∧ ∃ a b, c = .instr (.gwbInit a b)) := by
  cases h with
  | gwbInit a b hf => exact .inr ⟨rfl, a, b, hf⟩
  | gwbAdd id data => exact .inl (by unfold Port.gwbAdd; split <;> rfl)
  | _ => exact .inl rfl

theorem CommandCase.gwbValid {c : Command} {s t : State} (hc : CommandCase c s t) {p : Nat} {q q' : Port}
    (hq : s.ports[p]? = some q) (hq' : t.ports[p]? = some q') : q'.gwbValid = q.gwbValid ∨
      (q'.gwbValid = true ∧ p = s.port ∧ ∃ a b, c = .instr (.gwbInit a b)) := by
  rcases hc.ports with e | ⟨g, hg, e⟩ <;> rw [e] at hq'
  · rw [hq] at hq'
    cases hq'
    exact .inl rfl
  · rw [List.getElem?_modify, hq] at hq'
    by_cases hp : s.port = p
    · obtain rfl : g q = q' := by simpa [hp] using hq'
      exact (hg q).gwbValid.imp_right fun ⟨hv, hc⟩ => ⟨hv, hp.symm, hc⟩
    · obtain rfl : q = q' := by simpa [hp] using hq'
      exact .inl rfl

/-! The register view (10_state.md R46 to R48). -/

/-- A register shows a number that fits it (10_state.md R46). -/
theorem viewField_toNat {bits n : Nat} (hb : bits ≤ 32) (hn : n < 2 ^ bits) : (viewField bits n).toNat = n := by
  have h32 : n < 2 ^ 32 := hn.trans_le (Nat.pow_le_pow_right (by omega) hb)
  simp only [viewField, if_pos hn, BitVec.toNat_ofNat]
  exact Nat.mod_eq_of_lt h32

/-- Past `RES_LEN[p]` the data registers read 0 (10_state.md R46). -/
theorem resDataAt_eq (q : Port) (k : Nat) : resDataAt q k = q.resData[k]?.getD 0 := by
  unfold resDataAt Port.resLen byteAt
  split
  · simp [List.getD]
  · rename_i hk
    simp [List.getElem?_eq_none (not_lt.mp hk)]

section
variable (s : State) (p : Nat)

theorem regView_status : regView s p 0x00 = (statusByte s p).setWidth 32 := rfl
theorem regView_baud : regView s p 0x01 = s.baud := rfl
theorem regView_resCode : regView s p 0x02 = (portAt s p).resCode.code.setWidth 32 := rfl
theorem regView_resBool : regView s p 0x03 = (BitVec.ofBool (portAt s p).resBool).setWidth 32 := rfl
theorem regView_resErr : regView s p 0x04 = (portAt s p).resErr.setWidth 32 := rfl
theorem regView_resLen : regView s p 0x05 = viewField 17 (portAt s p).resLen := rfl
theorem regView_gwbAddr : regView s p 0x06 = (portAt s p).gwbAddr.setWidth 32 := rfl
theorem regView_gwbWidth : regView s p 0x07 = (portAt s p).gwbWidth.setWidth 32 := rfl
theorem regView_gwbCount : regView s p 0x08 = viewField 9 (portAt s p).gwbIds.length := rfl
theorem regView_rxCount : regView s p 0x09 = viewField 32 s.rxFifo.length := rfl

theorem regView_resData {reg : BitVec 32} (hlo : 0x10000 ≤ reg.toNat) (hhi : reg.toNat < 0x20000) :
    regView s p reg = (resDataAt (portAt s p) (reg.toNat - 0x10000)).setWidth 32 := by
  have small : ∀ m < 0x10000, reg.toNat ≠ m := fun m hm => by omega
  simp [regView, small, hlo, hhi]

theorem regView_unassigned {reg : BitVec 32} (hlo : 0x09 < reg.toNat)
    (hout : reg.toNat < 0x10000 ∨ 0x20000 ≤ reg.toNat) : regView s p reg = 0 := by
  have fixed : ∀ m ≤ 0x09, reg.toNat ≠ m := fun m hm => by omega
  have data : ¬(0x10000 ≤ reg.toNat ∧ reg.toNat < 0x20000) := by omega
  simp [regView, fixed, data]
end

theorem statusByte_fields (s : State) (p : Nat) :
    let v := (statusByte s p).setWidth 32
    v.getLsbD 0 = s.lineOpen ∧ v.getLsbD 1 = s.busy ∧ v.extractLsb' 2 2 = s.xstate.code ∧
      v.getLsbD 4 = (portAt s p).gwbValid ∧ v.getLsbD 5 = statusKind s ∧ v.toNat < 64 := by
  unfold statusByte
  generalize s.lineOpen = lineOpen, s.busy = busy, s.xstate.code = code, (portAt s p).gwbValid = valid,
    statusKind s = kind
  revert lineOpen busy code valid kind
  decide

theorem portAt_resetBlock (s : State) (p : Nat) : portAt (resetBlock s) p = Port.reset := by
  simp only [portAt, List.getD, resetBlock_ports, List.getElem?_replicate]
  split <;> rfl

theorem regView_status_resetBlock (s : State) (p : Nat) : regView (resetBlock s) p 0x00 = 0 := by
  rw [regView_status]
  have hkind : statusKind (resetBlock s) = false := by simp [statusKind]
  rw [statusByte, hkind, portAt_resetBlock, resetBlock_xstate, resetBlock_busy, resetBlock_lineOpen]
  decide

/-! The obligations. -/

/-- Settles O51: a step is one enabled move, and each agent's move keeps both. -/
theorem everyStepKeepsTheInvariant : Obligations.EveryStepKeepsTheInvariant := by
  intro s t hstep
  obtain ⟨-, m, hm, sched, draws, -, hrun⟩ := step_eq_next hstep
  rw [← moves_rescheduled s sched draws] at hm
  refine ⟨fun hinv => (hinv.rescheduled sched draws).runMove hm hrun, fun hpend => ?_⟩
  have hpend' : PendingOk (rescheduled s sched draws) := hpend
  exact hpend'.runMove hm hrun

/-- Settles O12, register by register. -/
theorem registerViewShowsTheState : Obligations.RegisterViewShowsTheState := by
  intro s p q hq
  obtain rfl := portAt_of_getElem? hq
  refine ⟨regView_baud s p, ?_, ?_, ?_, ?_, ?_, ?_, ?_, ?_, ?_, fun reg => regView_unassigned s p⟩
  · rw [regView_resCode]
    cases (portAt s p).resCode <;> rfl
  · rw [regView_resBool]
    cases (portAt s p).resBool <;> rfl
  · rw [regView_resErr]
    exact BitVec.toNat_setWidth_of_le (by omega)
  · intro h
    rw [regView_resLen]
    exact viewField_toNat (by omega) h
  · rw [regView_gwbAddr]
    exact BitVec.toNat_setWidth_of_le (by omega)
  · rw [regView_gwbWidth]
    exact BitVec.toNat_setWidth_of_le (by omega)
  · intro h
    have hids : (portAt s p).gwbIds.length = (portAt s p).gwbEntries.length := List.length_map _
    rw [regView_gwbCount, hids, viewField_toNat (by omega) h]
  · intro h
    rw [regView_rxCount, viewField_toNat le_rfl h]
  · intro k hk
    have hn : (BitVec.ofNat 32 (0x10000 + k)).toNat = 0x10000 + k := by
      rw [BitVec.toNat_ofNat]; omega
    rw [regView_resData s p (by omega) (by omega), hn, Nat.add_sub_cancel_left, resDataAt_eq]
    exact BitVec.toNat_setWidth_of_le (by omega)

/-- Settles O54: only the Clock's move writes `NOW`, and no run can put its draws off for ever. -/
theorem onlyTheClockAdvancesTime : Obligations.OnlyTheClockAdvancesTime := by
  refine ⟨fun s t hstep => ?_, fun s => ⟨drawTime_gt s, ?_⟩, fun s hrun bound => RunsForever.passes hrun bound⟩
  · obtain ⟨-, m, hm, sched, draws, -, hrun⟩ := step_eq_next hstep
    by_cases hc : m = .clock
    · subst hc
      cases hrun
      exact .inr ⟨drawTime_gt (rescheduled s sched draws), hm, sched, draws, rfl⟩
    · exact .inl (runMove_now (s := rescheduled s sched draws) hc hrun)
  · have henv : (clockMove s).env = (drawTime s).2.env := by rw [clockMove_eq]
    rw [henv, ← drawTime_env]
    exact clockMove_eq s

/-- Settles O58: what a command can do, read for each flag. -/
theorem flagsHaveNoOtherWriters : Obligations.FlagsHaveNoOtherWriters := by
  intro i s t hexec
  obtain ⟨-, hc⟩ := runCommand_cases (f := .instr i) hexec
  refine ⟨fun hne => ?_, fun hne => ?_, fun p q q' hq hq' hne => ?_⟩
  · simpa using hc.lineOpen.resolve_left hne
  · obtain ⟨hb, hbegins⟩ := hc.busy.resolve_left hne
    exact ⟨hb, (begins_instr_iff i).mp hbegins⟩
  · simpa using (hc.gwbValid hq hq').resolve_left hne

/-- Settles O13, from the bits of the status byte. -/
theorem statusFieldsAreTheFlags : Obligations.StatusFieldsAreTheFlags := by
  intro s p q hq
  obtain rfl := portAt_of_getElem? hq
  dsimp only
  rw [regView_status]
  obtain ⟨hopen, hbusy, hcode, hvalid, hkind, hlt⟩ := statusByte_fields s p
  refine ⟨hopen, hbusy, ?_, hvalid, hkind, hlt, regView_status_resetBlock s p⟩
  rw [hcode]
  cases s.xstate <;> rfl

/-- Settles O50: the default parameters are legal, and the reset values meet the invariant for all legal ones. -/
theorem resetStateMeetsTheInvariant : Obligations.ResetStateMeetsTheInvariant :=
  ⟨machineInv_resetWith (by simp [Params.wf, Params.default]) _ _, pendingOk_resetWith _ _ _⟩

end Sys2Proof.Machine

/-!
The block's memory (20_memory.md): 16-bit words in params (R62), and the line, on which only TX_DONE puts bytes (R71).
-/

namespace Sys2Proof.Machine

/-! Words (20_memory.md R62). -/

theorem lowByte_toNat (v : BitVec 16) : (v.extractLsb' 0 8).toNat = v.toNat % 256 := by
  rw [BitVec.extractLsb'_toNat, Nat.shiftRight_zero]

theorem highByte_toNat (v : BitVec 16) : (v.extractLsb' 8 8).toNat = v.toNat / 256 := by
  have hv := v.isLt
  rw [BitVec.extractLsb'_toNat, Nat.shiftRight_eq_div_pow]
  omega

theorem highByte_append_lowByte (v : BitVec 16) : v.extractLsb' 8 8 ++ v.extractLsb' 0 8 = v :=
  (BitVec.extractLsb'_append_extractLsb'_eq_extractLsb' rfl).trans BitVec.extractLsb'_eq_self

/-! What leaves the bytes on the line as they are (20_memory.md R71). -/

theorem CommandCase.lineOut {c : Command} {s t : State} (hc : CommandCase c s t) : t.lineOut = s.lineOut := by
  cases hc with
  | atOnce => rfl
  | openRefused => simp
  | opened => simp
  | closed => rfl
  | began => rfl

theorem serve_lineOut {s t : State} {p : Nat} (ht : serve p s = .next t) : t.lineOut = s.lineOut := by
  unfold serve at ht
  split at ht
  · cases ht
    rfl
  · exact (runCommand_cases ht).2.lineOut

theorem hostIssue_lineOut {s t : State} {p : Nat} (ht : hostIssue s p = .next t) : t.lineOut = s.lineOut := by
  unfold hostIssue at ht
  split at ht
  · cases ht
    rfl
  · split at ht <;> cases ht
    rfl

theorem lineMove_lineOut (s : State) : (lineMove s).lineOut = s.lineOut := by
  unfold lineMove lineDeliver
  split
  · rfl
  · split <;> rfl

theorem clockMove_lineOut (s : State) : (clockMove s).lineOut = s.lineOut := by
  rw [clockMove_eq]

theorem exchangeStep_lineOut_of_ne_sending {s : State} (h : s.xstate ≠ .sending) :
    (exchangeStep s).lineOut = s.lineOut := by
  cases hx : s.xstate with
  | idle => simp [exchangeStep, hx]
  | sending => exact absurd hx h
  | awaitingResponse => rw [exchangeStep_awaiting hx, receiveStep_lineOut]

/-- A move other than the exchange's and reset leaves the bytes on the line. -/
theorem runMove_lineOut {s t : State} {m : Move} (hx : m ≠ .exchange) (hr : m ≠ .reset)
    (ht : runMove m s = .next t) : t.lineOut = s.lineOut := by
  cases m with
  | exchange => exact absurd rfl hx
  | serve p => exact serve_lineOut ht
  | issue p => exact hostIssue_lineOut ht
  | line => cases ht; exact lineMove_lineOut s
  | clock => cases ht; exact clockMove_lineOut s
  | reset => exact absurd rfl hr

/-! TX_DONE. -/

/-- TX_DONE ends the exchange or waits for its response (42_request_response.md R173). -/
theorem MachineInv.txDone_xstate_ne_sending {s : State} (h : MachineInv s) (hs : s.xstate = .sending) :
    (Machine.txDone s).xstate ≠ .sending := by
  obtain ⟨q, hq⟩ := h.owned (by simp [hs])
  rcases txDone_cases hq with ⟨-, -, e⟩ | ⟨-, -, e⟩ | ⟨-, -, e⟩ | ⟨-, -, e⟩ <;> simp [e]

/-! The obligations. -/

/-- Settles O55: of the moves only the exchange's, while it is sending, and reset write to the line. -/
theorem onlyTxDoneEmitsBytes : Obligations.OnlyTxDoneEmitsBytes := by
  intro s t hinv hstep
  obtain ⟨-, m, hm, sched, draws, -, hrun⟩ := step_eq_next hstep
  by_cases hx : m = .exchange
  · subst hx
    cases hrun
    by_cases hs : s.xstate = .sending
    · have hdone := exchangeStep_sending (s := rescheduled s sched draws) hs
      refine .inr (.inl ⟨hinv.exchange.busy.mpr (by simp [hs]), hs, hm, sched, draws, rfl, ?_, ?_⟩)
      · rw [hdone]
        exact (hinv.rescheduled sched draws).txDone_xstate_ne_sending hs
      · rw [hdone]
        exact txDone_lineOut _
    · exact .inl (exchangeStep_lineOut_of_ne_sending (s := rescheduled s sched draws) hs)
  · by_cases hr : m = .reset
    · subst hr
      cases hrun
      have hleft : 0 < s.env.resets := by simpa [mem_moves_iff] using hm
      exact .inr (.inr ⟨rfl, hm, Nat.sub_add_cancel hleft⟩)
    · exact .inl (runMove_lineOut (s := rescheduled s sched draws) hx hr hrun)

/-- Settles O59: each order lists the word's low and high byte, and joining the two gives the word. -/
theorem packAndUnpackAgree : Obligations.PackAndUnpackAgree := by
  refine fun v => ⟨?_, ?_, fun e b0 b1 h => ?_⟩
  · simp only [pack16, List.map_cons, List.map_nil, lowByte_toNat, highByte_toNat]
  · simp only [pack16, List.map_cons, List.map_nil, lowByte_toNat, highByte_toNat]
  · cases e <;> cases h <;> exact highByte_append_lowByte v

end Sys2Proof.Machine

/-!
The encodings (30_encoding.md): encode and decode are inverse to each other on host commands (R98, R99) and on request
frames (R82, R84, R86), an unassigned opcode completes at once (R103), and a host issues one command at a time (R100).
-/

namespace Sys2Proof.Machine

/-! 32-bit operands: four bytes and a word are the same thing (log 5). -/

theorem u32Bytes_u32 (b0 b1 b2 b3 : Byte) : u32Bytes (u32 b0 b1 b2 b3) = [b0, b1, b2, b3] := by
  have h0 := b0.isLt
  have h1 := b1.isLt
  have h2 := b2.isLt
  have h3 := b3.isLt
  simp only [u32Bytes, u32, List.cons.injEq, and_true, BitVec.toNat_ofNat]
  refine ⟨?_, ?_, ?_, ?_⟩ <;> (apply BitVec.eq_of_toNat_eq; rw [BitVec.toNat_ofNat]; omega)

theorem decodeU32_u32Bytes (op : Byte) (k : BitVec 32 → Instr) (v : BitVec 32) :
    decodeU32 op k (u32Bytes v) = .command (.instr (k v)) := by
  have hv := v.isLt
  simp only [u32Bytes, decodeU32, Decoded.command.injEq, Command.instr.injEq]
  congr 1
  apply BitVec.eq_of_toNat_eq
  simp only [u32, BitVec.toNat_ofNat]
  omega

/-! Request frames: exactly the frames of params that fit are accepted, each as its own instruction. -/

/-- A frame whose length fits its byte passes the three checks (30_encoding.md R82, R84, R86). -/
theorem decodeFrame_frameOf (id code : Byte) {params : List Byte} (hfit : frameParamsFit params) :
    decodeFrame (frameOf id code params) = wireInstr id code params := by
  have hlen : (lenByte (params.length + 2)).toNat = params.length + 2 := lenByte_toNat (Nat.lt_succ_of_le hfit)
  simp [frameOf, frameBody, decodeFrame, hlen]

/-- What passes the checks is a frame: R84 fixes its length byte and R86 its last byte (30_encoding.md). -/
theorem exists_frameOf_of_decodeFrame {frame : List Byte} {c : Command} (h : decodeFrame frame = .command c) :
    ∃ id code params, frame = frameOf id code params ∧ wireInstr id code params = .command c := by
  unfold decodeFrame at h
  split at h
  case h_2 => cases h
  case h_1 h0 h1 id len code rest =>
    split_ifs at h with hheader hlen
    split at h
    case h_1 => cases h
    case h_2 chk hlast =>
      split_ifs at h with hchk
      obtain ⟨params, rfl⟩ := List.getLast?_eq_some_iff.mp hlast
      simp only [not_or, not_not, List.dropLast_concat, List.length_append, List.length_singleton] at h hheader hlen hchk
      obtain ⟨rfl, rfl⟩ := hheader
      have hbyte : lenByte (params.length + 2) = len := by
        have hlt := len.isLt
        exact BitVec.eq_of_toNat_eq (by rw [lenByte_toNat (by omega), ← hlen])
      refine ⟨id, code, params, ?_, h⟩
      simp only [frameOf, frameBody, hbyte, ← hchk, List.cons_append]

/-! An instruction is decoded from nothing but its own encoding. -/

/-- What was decoded from `r` is no instruction, or one whose encoding is `r`. -/
def DecodedFromEncoding (r : Request) : Decoded → Prop
  | .command (.instr i) => encode i = r
  | .command (.unassigned _) => True
  | .command (.otherWire _ _ _) => True
  | .malformed _ => True

theorem decodedFromEncoding_decodeU32 {op : Byte} {k : BitVec 32 → Instr}
    (hk : ∀ v, encode (k v) = .host (op :: u32Bytes v)) (bytes : List Byte) :
    DecodedFromEncoding (.host (op :: bytes)) (decodeU32 op k bytes) := by
  unfold decodeU32
  split
  · exact (hk _).trans (by rw [u32Bytes_u32])
  · trivial

theorem decodedFromEncoding_decodeNone {op : Byte} {i : Instr} (hi : encode i = .host [op]) (bytes : List Byte) :
    DecodedFromEncoding (.host (op :: bytes)) (decodeNone op i bytes) := by
  unfold decodeNone
  split
  · exact hi
  · trivial

theorem decodedFromEncoding_decodeUnicast (bytes : List Byte) :
    DecodedFromEncoding (.host (0x10 :: bytes)) (decodeUnicast 0x10 bytes) := by
  unfold decodeUnicast
  split
  · rfl
  · trivial

theorem decodedFromEncoding_decodeBroadcast (bytes : List Byte) :
    DecodedFromEncoding (.host (0x11 :: bytes)) (decodeBroadcast 0x11 bytes) := by
  unfold decodeBroadcast
  split
  · rfl
  · trivial

theorem decodedFromEncoding_decodeGwbInit (bytes : List Byte) :
    DecodedFromEncoding (.host (0x20 :: bytes)) (decodeGwbInit 0x20 bytes) := by
  unfold decodeGwbInit
  split
  · rfl
  · trivial

theorem decodedFromEncoding_decodeGwbAdd (bytes : List Byte) :
    DecodedFromEncoding (.host (0x21 :: bytes)) (decodeGwbAdd 0x21 bytes) := by
  unfold decodeGwbAdd
  split
  · rfl
  · trivial

theorem decodedFromEncoding_decodeCommand (op : Byte) (bytes : List Byte) :
    DecodedFromEncoding (.host (op :: bytes)) (decodeCommand op bytes) := by
  unfold decodeCommand
  split_ifs with h01 h02 h03 h10 h11 h20 h21 h22 h23
  · exact decodedFromEncoding_decodeU32 (fun _ => by rw [h01]; rfl) bytes
  · exact decodedFromEncoding_decodeNone (by rw [h02]; rfl) bytes
  · exact decodedFromEncoding_decodeU32 (fun _ => by rw [h03]; rfl) bytes
  · exact h10 ▸ decodedFromEncoding_decodeUnicast bytes
  · exact h11 ▸ decodedFromEncoding_decodeBroadcast bytes
  · exact h20 ▸ decodedFromEncoding_decodeGwbInit bytes
  · exact h21 ▸ decodedFromEncoding_decodeGwbAdd bytes
  · exact decodedFromEncoding_decodeNone (by rw [h22]; rfl) bytes
  · exact decodedFromEncoding_decodeNone (by rw [h23]; rfl) bytes
  · trivial

theorem decodedFromEncoding_wireInstr (id code : Byte) (params : List Byte) :
    DecodedFromEncoding (.wire (frameOf id code params)) (wireInstr id code params) := by
  unfold wireInstr
  split_ifs with h01 h02 h03 h83
  · rw [h01]; rfl
  · rw [h02]; rfl
  · rw [h03]; rfl
  · rw [h83]; rfl
  · trivial

/-- No two requests decode to the same instruction (30_encoding.md R82, R98). -/
theorem encode_of_decode_eq_instr {r : Request} {i : Instr} (h : decode r = .command (.instr i)) : encode i = r := by
  suffices hd : DecodedFromEncoding r (decode r) by rwa [h] at hd
  match r with
  | .host [] => trivial
  | .host (op :: operands) => exact decodedFromEncoding_decodeCommand op operands
  | .wire frame =>
    obtain ⟨id, code, params, rfl, hw⟩ := exists_frameOf_of_decodeFrame h
    rw [h, ← hw]
    exact decodedFromEncoding_wireInstr id code params

/-! Unassigned opcodes. -/

/-- Any bytes may follow an opcode that is not assigned (30_encoding.md R103; log 5). -/
theorem decodeCommand_of_not_assigned {op : Byte} (h : op ∉ assignedOpcodes) (operands : List Byte) :
    decodeCommand op operands = .command (.unassigned op) := by
  simp only [assignedOpcodes, List.mem_cons, List.not_mem_nil, not_or] at h
  obtain ⟨h01, h02, h03, h10, h11, h20, h21, h22, h23, -⟩ := h
  rw [decodeCommand, if_neg h01, if_neg h02, if_neg h03, if_neg h10, if_neg h11, if_neg h20, if_neg h21, if_neg h22,
    if_neg h23]

theorem execUnassigned_of_port {s : State} (hp : s.port < s.ports.length) :
    execUnassigned s = .next (onPort s s.port fun q => q.completeCode .notAvailable) :=
  command_of_port hp _

/-! The Host. -/

theorem hostIssue_of_malformed {s : State} {p : Nat} {r : Request} {later : List Request} {e : DecodeError}
    (hr : s.env.hostIn[p]? = some (r :: later)) (hd : decode r = .malformed e) :
    hostIssue s p = .refused (.notIssuable e) := by
  rw [hostIssue_eq hr, hd]

/-! The obligations. -/

/-- Settles O1: a host message begins with the opcode its operands are decoded for, and a frame of params that fit passes
every check. -/
theorem decodeOfEncodeIsTheInstruction : Obligations.DecodeOfEncodeIsTheInstruction := by
  intro i hi
  cases i with
  | openLine baud => exact decodeU32_u32Bytes 0x01 .openLine baud
  | closeLine => rfl
  | readReg reg => exact decodeU32_u32Bytes 0x03 .readReg reg
  | sendUnicast id code params => rfl
  | sendBroadcast code params => rfl
  | gwbInit addr width => rfl
  | gwbAdd id data => rfl
  | gwbPayload => rfl
  | gwbSend => rfl
  | ping id params => exact decodeFrame_frameOf id 0x01 hi
  | read id params => exact decodeFrame_frameOf id 0x02 hi
  | write id params => exact decodeFrame_frameOf id 0x03 hi
  | syncWrite id params => exact decodeFrame_frameOf id 0x83 hi

/-- Settles O2: every decoder of operands, and the frame's, accepts only what the encoder writes. -/
theorem decodedRequestIsItsEncoding : Obligations.DecodedRequestIsItsEncoding :=
  ⟨fun _ _ h => ⟨encode_of_decode_eq_instr h, wellFormed_of_decode h⟩, fun _ _ h => wellFormed_of_decode h⟩

/-- Settles O3: the decoder runs on each word. -/
theorem wordsWrittenOutDecode : Obligations.WordsWrittenOutDecode := by
  unfold Obligations.WordsWrittenOutDecode
  decide

/-- Settles O4: the decoder tries the table's opcodes only, and the command is one completion of its own port. -/
theorem unassignedOpcodeCompletesNotAvailable : Obligations.UnassignedOpcodeCompletesNotAvailable :=
  fun _ _ rest hp hop => ⟨decodeCommand_of_not_assigned hop rest, execUnassigned_of_port hp⟩

/-- Settles O45: an enabled issue has a request to hand over and a port with nothing pending. -/
theorem hostIssuesOnePendingCommand : Obligations.HostIssuesOnePendingCommand := by
  intro s p hm
  obtain ⟨hp, hready⟩ : p < s.ports.length ∧ issueReady s p = true := by simpa [mem_moves_iff] using hm
  obtain ⟨⟨r, later, hr⟩, hn⟩ := (issueReady_iff s p).mp hready
  exact ⟨portAt s p, r, later, getElem?_portAt hp, hn, hr, fun _ hd => hostIssue_of_command (getElem?_portAt hp) hr hd,
    fun _ hd => hostIssue_of_malformed hr hd⟩

end Sys2Proof.Machine

/-!
The transport (40_transport.md): its three host commands (R120 to R122), the exclusivity of the busy flag (R123), and what
the line takes from a write and delivers to the FIFO (R129, R131, R134).
-/

namespace Sys2Proof.Machine

/-! OPEN (40_transport.md R120). -/

theorem exec_openLine_of_port {s : State} (hp : s.port < s.ports.length) (baud : BitVec 32) :
    exec (.openLine baud) s = .next (openCommand baud s.port s) :=
  command_of_port hp _

theorem openCommand_of_busy {s : State} (hb : s.busy = true) (baud : BitVec 32) (p : Nat) :
    openCommand baud p s = onPort s p fun q => q.completeBool false := by
  simp [openCommand, hb]

theorem openCommand_zero (p : Nat) (s : State) :
    openCommand 0 p s = onPort s p fun q => q.completeBool false := by
  simp [openCommand]

section
variable {s : State} {baud : BitVec 32} (hb : s.busy = false) (hbaud : baud ≠ 0)
include hb hbaud

theorem openCommand_of_accepts (hd : (drawOpen s).1 = true) (p : Nat) :
    openCommand baud p s = openAccepted (drawOpen s).2 p baud := by
  rw [openCommand, if_neg (by simp [hb]), if_neg hbaud]
  simp [hd]

theorem openCommand_of_refuses (hd : (drawOpen s).1 = false) (p : Nat) :
    openCommand baud p s = onPort (drawOpen s).2 p fun q => q.completeBool false := by
  rw [openCommand, if_neg (by simp [hb]), if_neg hbaud]
  simp [hd]
end

/-- A draw of OPEN leaves the record of the last delivery (log 14). -/
theorem drawOpen_lastRx (s : State) : (drawOpen s).2.env.lastRx = s.env.lastRx := by
  unfold drawOpen
  split <;> rfl

/-- A refused draw writes the environment and the port's own registers only. -/
theorem onPort_drawOpen (s : State) (p : Nat) (f : Port → Port) :
    onPort (drawOpen s).2 p f = { s with env := (drawOpen s).2.env, ports := s.ports.modify p f } :=
  congrArg (onPort · p f) (drawOpen_eq s)

/-- An accepted draw writes the line, the environment and the port's own registers (40_transport.md R120, R125, R133). -/
theorem openAccepted_drawOpen (s : State) (p : Nat) (baud : BitVec 32) :
    openAccepted (drawOpen s).2 p baud = { s with
      lineOpen := true
      baud := baud
      msPerByte := lineTime s.cfg baud
      rxFifo := []
      env := { (drawOpen s).2.env with lastRx := if s.lineOpen then s.env.lastRx else none }
      ports := s.ports.modify p fun q => q.completeBool true } := by
  apply State.ext <;> simp [drawOpen_lastRx]

/-! CLOSE (40_transport.md R121). -/

theorem exec_closeLine_of_port {s : State} (hp : s.port < s.ports.length) :
    exec .closeLine s = .next (closeCommand s.port s) :=
  command_of_port hp _

theorem closeCommand_of_free {s : State} (hb : s.busy = false) (p : Nat) :
    closeCommand p s = onPort { fifoFlush s with lineOpen := false } p fun q => q.complete {} := by
  simp [closeCommand, hb]

theorem closeCommand_of_busy {s : State} (hb : s.busy = true) (p : Nat) :
    closeCommand p s = onPort s p fun q => q.complete {} := by
  simp [closeCommand, hb]

/-! Exclusivity of the busy flag (40_transport.md R123). -/

/-- While an exchange holds the port, a command writes its own port's registers and the environment only. -/
theorem CommandCase.eq_of_busy {c : Command} {s t : State} (hc : CommandCase c s t) (hb : s.busy = true) :
    ∃ g env, t = { s with ports := s.ports.modify s.port g, env := env } := by
  cases hc with
  | atOnce g => exact ⟨g, s.env, rfl⟩
  | openRefused => exact ⟨_, _, onPort_drawOpen s s.port _⟩
  | opened _ _ h => simp [hb] at h
  | closed _ h => simp [hb] at h
  | began _ _ _ _ _ h => simp [hb] at h

/-- What pends beside the exchange keeps the exchange, the Line and the Clock waiting: then a move begins a command, issues
one, or is a reset (60_exceptions.md R255; log 29). -/
theorem moves_of_servable {s : State} {p : Nat} (hp : p < s.ports.length) (hs : servable s p = true) {m : Move}
    (hm : m ∈ moves s) :
    (∃ r, m = .serve r) ∨ (∃ r, m = .issue r ∧ issueReady s r = true) ∨ (m = .reset ∧ 0 < s.env.resets) := by
  have hbegins : ¬ ∀ r < s.ports.length, servable s r = false := fun h => by simp [h p hp] at hs
  have hurgent : engineIdle s ≠ true := fun h => hbegins ((engineIdle_iff s).mp h).2
  rcases (mem_moves_iff s m).mp hm with
    ⟨-, h, -⟩ | ⟨r, rfl, -⟩ | ⟨r, rfl, -, hr⟩ | ⟨-, h, -⟩ | ⟨-, h⟩ | ⟨rfl, hr⟩
  · exact absurd h hbegins
  · exact .inl ⟨r, rfl⟩
  · exact .inr (.inl ⟨r, rfl, hr⟩)
  · exact absurd h hurgent
  · exact absurd h hurgent
  · exact .inr (.inr ⟨rfl, hr⟩)

/-- Beginning a command on one port leaves the exchange in progress and every other port (40_transport.md R123). -/
theorem serve_keeps_exchange {s t : State} {r p : Nat} (ht : serve r s = .next t) (hb : s.busy = true) (hr : r ≠ p) :
    t.busy = true ∧ t.xowner = s.xowner ∧ t.xstate = s.xstate ∧ t.ports[p]? = s.ports[p]? := by
  unfold serve at ht
  split at ht
  · cases ht
    exact ⟨hb, rfl, rfl, rfl⟩
  · exact (runCommand_cases ht).2.keeps_exchange hb hr

/-- An issue leaves the exchange in progress and every other port (30_encoding.md R100). -/
theorem hostIssue_keeps_exchange {s t : State} {r p : Nat} (ht : hostIssue s r = .next t) (hr : r ≠ p) :
    t.busy = s.busy ∧ t.xowner = s.xowner ∧ t.xstate = s.xstate ∧ t.ports[p]? = s.ports[p]? := by
  unfold hostIssue at ht
  split at ht
  · cases ht
    exact ⟨rfl, rfl, rfl, rfl⟩
  · split at ht <;> cases ht
    exact ⟨rfl, rfl, rfl, by simp [issueCommand, hr]⟩

/-- While an exchange holds the port and another port has a command pending, a move leaves both, begins that command and leaves
the exchange, or is a reset (40_transport.md R123, 60_exceptions.md R255). -/
theorem runMove_beside_exchange {s t : State} {o p : Nat} {q : Port} {c : Command} {m : Move} (hb : s.busy = true)
    (ho : s.xowner = some o) (hne : p ≠ o) (hq : s.ports[p]? = some q) (hpend : q.pending = some c) (hm : m ∈ moves s)
    (hrun : runMove m s = .next t) :
    (t.busy = true ∧ t.xowner = some o ∧ t.xstate = s.xstate ∧ t.ports[p]? = some q) ∨
    (t.busy = true ∧ t.xowner = some o ∧ t.xstate = s.xstate ∧ runCommand c { s with port := p } = .next t) ∨
    (m = .reset ∧ t.env.resets + 1 = s.env.resets) := by
  have hx : s.xowner ≠ some p := by simpa [ho] using hne.symm
  have hs : servable s p = true := (servable_iff s p).mpr ⟨⟨c, by rw [portAt_of_getElem? hq, hpend]⟩, hx⟩
  obtain ⟨hp, -⟩ := List.getElem?_eq_some_iff.mp hq
  rcases moves_of_servable hp hs hm with ⟨r, rfl⟩ | ⟨r, rfl, hready⟩ | ⟨rfl, hleft⟩
  · by_cases hr : r = p
    · subst hr
      obtain ⟨hbusy, howner, hstate, -⟩ := serve_keeps_exchange hrun hb hne
      exact .inr (.inl ⟨hbusy, howner.trans ho, hstate, (serve_of_pending hq hpend).symm.trans hrun⟩)
    · obtain ⟨hbusy, howner, hstate, hport⟩ := serve_keeps_exchange hrun hb hr
      exact .inl ⟨hbusy, howner.trans ho, hstate, hport.trans hq⟩
  · have hr : r ≠ p := by
      rintro rfl
      obtain ⟨-, hnone⟩ := (issueReady_iff s r).mp hready
      simp [portAt_of_getElem? hq, hpend] at hnone
    obtain ⟨hbusy, howner, hstate, hport⟩ := hostIssue_keeps_exchange hrun hr
    exact .inl ⟨hbusy.trans hb, howner.trans ho, hstate, hport.trans hq⟩
  · cases hrun
    exact .inr (.inr ⟨rfl, Nat.sub_add_cancel hleft⟩)

/-! Write (40_transport.md R129). -/

theorem writeTx_of_closed {s : State} (h : s.lineOpen = false) : writeTx s = (0, s) := by
  simp [writeTx, h]

/-- The draw of an open line is the next recorded choice, cut to the frame (log 2). -/
theorem writeTx_of_recorded {s : State} {n : Nat} {rest : List Nat} (ho : s.lineOpen = true)
    (hn : s.env.writeDraws = n :: rest) : (writeTx s).1 = min n s.txBuf.length := by
  simp [writeTx, ho, drawWrite, hn]

/-! The Line (40_transport.md R131, R134). -/

theorem fifoFull_iff (s : State) : fifoFull s = true ↔ ∃ d, s.cfg.rxFifoDepth = some d ∧ d ≤ s.rxFifo.length := by
  unfold fifoFull
  split <;> simp_all

theorem lineMove_cons {s : State} {b : Byte} {rest : List Byte} (hb : s.env.lineIn = b :: rest) :
    lineMove s = lineDeliver { s with env := { s.env with lineIn := rest } } b := by
  rw [lineMove, hb]

theorem lineMove_of_closed {s : State} {b : Byte} {rest : List Byte} (hb : s.env.lineIn = b :: rest)
    (hc : s.lineOpen = false) : lineMove s = { s with env := { s.env with lineIn := rest } } := by
  simp [lineMove_cons hb, lineDeliver, hc]

theorem lineDeliver_of_full {s : State} (ho : s.lineOpen = true) (hf : fifoFull s = true) (b : Byte) :
    lineDeliver s b = { s with env := { s.env with lastRx := some s.now } } := by
  simp [lineDeliver, ho, hf]

/-- The Line's delivery to an open line whose FIFO is full (40_transport.md R134). -/
theorem lineMove_of_full {s : State} {b : Byte} {rest : List Byte} (hb : s.env.lineIn = b :: rest)
    (ho : s.lineOpen = true) (hf : fifoFull s = true) :
    lineMove s = { s with env := { s.env with lineIn := rest, lastRx := some s.now } } := by
  rw [lineMove_cons hb]
  exact lineDeliver_of_full (s := { s with env := { s.env with lineIn := rest } }) ho hf b

/-! The obligations. -/

/-- Settles O56: a command that can be begun bars the exchange, the Line and the Clock, and a command begun while busy
writes its own port's registers and the environment only. -/
theorem commandsDoNotDisturbTheOwner : Obligations.CommandsDoNotDisturbTheOwner := by
  refine ⟨fun s t o p q c _ hb ho hne hq hpend hstep => ?_, fun i s t o hb _ hne hexec => ?_⟩
  · obtain ⟨-, m, hm, sched, draws, -, hrun⟩ := step_eq_next hstep
    rcases runMove_beside_exchange (s := rescheduled s sched draws) hb ho hne hq hpend hm hrun with
      h | ⟨hbusy, howner, hstate, hcmd⟩ | ⟨rfl, hleft⟩
    · exact .inl h
    · exact .inr (.inl ⟨hbusy, howner, hstate, sched, draws, hcmd⟩)
    · exact .inr (.inr ⟨hm, hleft⟩)
  · obtain ⟨-, hc⟩ := runCommand_cases (f := .instr i) hexec
    obtain ⟨g, env, rfl⟩ := hc.eq_of_busy hb
    simp [hb, hne]

/-- Settles O8: the accepted branch of OPEN. -/
theorem openAcceptedOpensAndFlushes : Obligations.OpenAcceptedOpensAndFlushes := by
  intro s baud hp hb hbaud hd
  rw [exec_openLine_of_port hp, openCommand_of_accepts hb hbaud hd, openAccepted_drawOpen]
  rfl

/-- Settles O9: the three refusing branches of OPEN. -/
theorem openRefusedChangesNothing : Obligations.OpenRefusedChangesNothing := by
  intro s baud hp
  rw [exec_openLine_of_port hp]
  refine ⟨?_, fun hb hbaud hd => ?_⟩
  · rintro (hb | rfl)
    · rw [openCommand_of_busy hb]
      rfl
    · rw [openCommand_zero]
      rfl
  · rw [openCommand_of_refuses hb hbaud hd, onPort_drawOpen]
    rfl

/-- Settles O10: the two branches of CLOSE. -/
theorem closeFlushesUnlessBusy : Obligations.CloseFlushesUnlessBusy := by
  intro s hp
  rw [exec_closeLine_of_port hp]
  refine ⟨fun hb => ?_, fun hb => ?_⟩
  · rw [closeCommand_of_free hb]
    rfl
  · rw [closeCommand_of_busy hb]
    rfl

/-- Settles O11: READ_REG is one completion of its own port, with the view's value. -/
theorem readRegReturnsTheViewOnly : Obligations.ReadRegReturnsTheViewOnly :=
  fun _ reg hp => command_of_port hp (readRegCommand reg)

/-- Settles O21: Write's draw is cut to the frame, and only an open line draws. -/
theorem writeTakesAPrefix : Obligations.WriteTakesAPrefix := by
  refine fun s => ⟨writeTx_le s, writeTx_lineOut s, writeTx_of_closed, fun n rest ho hn hle => ?_⟩
  rw [writeTx_of_recorded ho hn, Nat.min_eq_left hle]

/-- Settles O44: a delivery to a closed line, to an open one with room, and to an open one with a full FIFO. -/
theorem lineDeliveryQueuesOrDrops : Obligations.LineDeliveryQueuesOrDrops := by
  intro s b rest hb
  refine ⟨lineMove_of_closed hb, fun ho hroom => ?_, fun ho hfull => lineMove_of_full hb ho ((fifoFull_iff s).mpr hfull)⟩
  have hf : fifoFull s = false := by
    rw [fifoFull_eq_false_iff]
    intro d hd
    rcases hroom with hnone | ⟨d', hd', hlt⟩
    · simp [hnone] at hd
    · obtain rfl : d' = d := Option.some.inj (hd'.symm.trans hd)
      exact hlt
  exact lineMove_of_room hb ho hf

end Sys2Proof.Machine

/-!
The frame codec (41_frame_codec.md): the checksum, the frame's layout and the header scan (R140 to R142, R147), the receive
state machine branch by branch (R144 to R153), how far it can go (R154, R155, R159), and what a receive makes of the bytes
that the Line delivers to it (R156 to R158).
-/

namespace Sys2Proof.Machine

/-! The checksum (41_frame_codec.md R140). -/

theorem checksum_append_cons_ne (before after : List Byte) {a b : Byte} (h : a ≠ b) :
    checksum (before ++ a :: after) ≠ checksum (before ++ b :: after) := by
  rw [Ne, checksum_eq_iff, byteSum_append, byteSum_append]
  intro hsum
  have hne : a.toNat ≠ b.toNat := fun e => h (BitVec.eq_of_toNat_eq e)
  have ha := a.isLt
  have hb := b.isLt
  simp only [byteSum] at hsum
  omega

theorem checksum_set_ne {s : List Byte} {k : Nat} {b : Byte} (hk : k < s.length) (hb : byteAt s k ≠ b) :
    checksum (s.set k b) ≠ checksum s := by
  have hs := eq_take_byteAt_drop hk
  rw [List.set_eq_take_append_cons_drop, if_pos hk]
  conv_rhs => rw [hs]
  exact checksum_append_cons_ne _ _ hb.symm

/-! The frame layout (30_encoding.md R82, R84, R86). -/

theorem memRead_set {s : List Byte} {i k : Nat} (h : i ≤ k) (n : Nat) (b : Byte) :
    memRead (s.set k b) i n = (memRead s i n).set (k - i) b := by
  rw [memRead, memRead, List.drop_set, if_neg (by omega), List.take_set]

/-- The last byte of a frame is the checksum of the bytes from offset 2 up to it (41_frame_codec.md R153). -/
def ChecksumHolds (f : List Byte) : Prop := byteAt f (f.length - 1) = checksum (memRead f 2 (f.length - 3))

theorem frameOf_checksumHolds (id code : Byte) (params : List Byte) : ChecksumHolds (frameOf id code params) := by
  rw [ChecksumHolds, frameOf_length]
  exact (frameOf_byteAt_checksum id code params).trans (congrArg _ (memRead_frameOf_body id code params).symm)

/-- Another byte at any one offset from the id on breaks the checksum (41_frame_codec.md R157). -/
theorem not_checksumHolds_set {f : List Byte} {k : Nat} {b : Byte} (hf : ChecksumHolds f) (h2 : 2 ≤ k)
    (hk : k < f.length) (hb : byteAt f k ≠ b) : ¬ ChecksumHolds (f.set k b) := by
  rw [ChecksumHolds, List.length_set, memRead_set h2]
  by_cases hlast : k = f.length - 1
  · rw [← hlast, byteAt_set_self b hk, List.set_eq_of_length_le (by simp [memRead]; omega), ← hf, ← hlast]
    exact hb.symm
  · rw [byteAt_set_ne b hlast, hf]
    have hat : byteAt (memRead f 2 (f.length - 3)) (k - 2) = byteAt f k := by
      rw [memRead, byteAt_take (by omega), byteAt, byteAt, List.getD, List.getD, List.getElem?_drop]
      congr 2
      omega
    exact (checksum_set_ne (by simp [memRead]; omega) (hat ▸ hb)).symm

/-! The header scan (41_frame_codec.md R147). -/

/-- `FF FF` stands at offset `k`. Past the buffer's end a byte reads 0, so the pair lies inside. -/
def HeaderAt (buf : List Byte) (k : Nat) : Prop := byteAt buf k = headerByte ∧ byteAt buf (k + 1) = headerByte

theorem headerAt_cons_succ (a : Byte) (s : List Byte) (k : Nat) : HeaderAt (a :: s) (k + 1) ↔ HeaderAt s k := Iff.rfl

theorem not_headerAt_nil (k : Nat) : ¬ HeaderAt [] k := by
  simp [HeaderAt, headerByte]

theorem HeaderAt.add_two_le {buf : List Byte} {k : Nat} (h : HeaderAt buf k) : k + 2 ≤ buf.length := by
  by_contra hlt
  have h0 : byteAt buf (k + 1) = 0 := by simp [byteAt, List.getD, List.getElem?_eq_none (by omega : buf.length ≤ k + 1)]
  exact absurd (h0.symm.trans h.2) (by decide)

theorem findHeader_cons_of_headerAt {a : Byte} {s : List Byte} (h : HeaderAt (a :: s) 0) : findHeader (a :: s) = some 0 := by
  cases s with
  | nil => simpa using h.add_two_le
  | cons b s => exact if_pos h

theorem findHeader_cons_of_not_headerAt {a : Byte} {s : List Byte} (h : ¬ HeaderAt (a :: s) 0) :
    findHeader (a :: s) = (findHeader s).map (· + 1) := by
  cases s with
  | nil => rfl
  | cons b s => exact if_neg h

theorem findHeader_eq_some_iff (buf : List Byte) (k : Nat) :
    findHeader buf = some k ↔ HeaderAt buf k ∧ ∀ j < k, ¬ HeaderAt buf j := by
  induction buf generalizing k with
  | nil => simp [findHeader, not_headerAt_nil]
  | cons a s ih =>
    by_cases h : HeaderAt (a :: s) 0
    · rw [findHeader_cons_of_headerAt h]
      constructor
      · rintro ⟨⟩
        exact ⟨h, by simp⟩
      · rintro ⟨-, hleast⟩
        obtain rfl : k = 0 := by
          by_contra hk
          exact hleast 0 (by omega) h
        rfl
    · rw [findHeader_cons_of_not_headerAt h]
      cases k with
      | zero => simp [h]
      | succ k =>
        rw [Nat.forall_lt_succ_left]
        simp [ih, headerAt_cons_succ, h]

theorem findHeader_eq_none_iff (buf : List Byte) : findHeader buf = none ↔ ∀ j, ¬ HeaderAt buf j := by
  constructor
  · intro hnone j hj
    classical
    have hex : ∃ k, HeaderAt buf k := ⟨j, hj⟩
    have hfind := (findHeader_eq_some_iff buf _).mpr ⟨Nat.find_spec hex, fun _ => Nat.find_min hex⟩
    simp [hnone] at hfind
  · intro h
    cases hf : findHeader buf with
    | none => rfl
    | some k => exact absurd ((findHeader_eq_some_iff buf k).mp hf).1 (h k)

/-- In the first bytes of noise followed by a header, the scan finds that header once its two bytes are there
(41_frame_codec.md R158). -/
theorem findHeader_of_noise {buf more noise tail : List Byte} (hnoise : ∀ b ∈ noise, b ≠ headerByte)
    (htail : tail.take 2 = [headerByte, headerByte]) (h : buf ++ more = noise ++ tail) :
    findHeader buf = if noise.length + 2 ≤ buf.length then some noise.length else none := by
  rcases List.append_eq_append_iff.mp h with ⟨x, rfl, -⟩ | ⟨g, rfl, rfl⟩
  · have hskip := findHeader_append_of_ne (noise := buf) (fun b hb => hnoise b (by simp [hb])) []
    rw [if_neg (by simp; omega)]
    simpa [findHeader] using hskip
  · rw [findHeader_append_of_ne hnoise]
    match g with
    | [] => simp [findHeader]
    | [a] => simp [findHeader]
    | a :: b :: g =>
      have hz : findHeader (a :: b :: g) = some 0 := (findHeader_eq_zero_iff _).mpr (by simpa using htail)
      simp [hz]

/-! The receive step, branch by branch (41_frame_codec.md R144 to R152). -/

section
variable {s : State}

theorem receiveStep_of_pull {b : Byte} {rest : List Byte} (hlt : s.rxBuf.length < s.want) (hf : s.rxFifo = b :: rest) :
    receiveStep s = { s with rxBuf := s.rxBuf ++ [b], rxFifo := rest } := by
  simp [receiveStep, hlt, hf, parsePull]

theorem receiveStep_of_waiting (hlt : s.rxBuf.length < s.want) (hf : s.rxFifo = []) (he : expired s = false) :
    receiveStep s = s := by
  simp [receiveStep, hlt, hf, he]

theorem receiveStep_of_expired (hlt : s.rxBuf.length < s.want) (hf : s.rxFifo = []) (he : expired s = true) :
    receiveStep s = finishFail s (if s.rxBuf = [] then .rxTimeout else .rxCorrupt) := by
  rw [receiveStep, if_pos hlt, if_neg (by simp [hf]), if_pos he, apply_ite (finishFail s)]
  rfl

theorem receiveStep_of_enough (hle : s.want ≤ s.rxBuf.length) : receiveStep s = parseEval s := by
  simp [receiveStep, Nat.not_lt.mpr hle]

theorem receiveStep_of_noHeader (hle : s.want ≤ s.rxBuf.length) (hh : findHeader s.rxBuf = none) :
    receiveStep s = headerNotFound s := by
  simp [receiveStep_of_enough hle, parseEval, hh]

theorem receiveStep_of_laterHeader {i : Nat} (hle : s.want ≤ s.rxBuf.length) (hi : 0 < i)
    (hh : findHeader s.rxBuf = some i) : receiveStep s = { s with rxBuf := s.rxBuf.drop i } := by
  obtain ⟨j, rfl⟩ := Nat.exists_eq_succ_of_ne_zero hi.ne'
  simp [receiveStep_of_enough hle, parseEval, hh, headerLater]

theorem receiveStep_of_headerAtZero (hle : s.want ≤ s.rxBuf.length) (hh : findHeader s.rxBuf = some 0) :
    receiveStep s = headerAtZero s := by
  simp [receiveStep_of_enough hle, parseEval, hh]

theorem headerAtZero_of_spurious
    (h : s.cfg.rxIdMax < (byteAt s.rxBuf 2).toNat ∨ s.cfg.rxMaxLen < (byteAt s.rxBuf 3).toNat) :
    headerAtZero s = { s with rxBuf := s.rxBuf.drop 1 } := if_pos h

section
variable (hi : (byteAt s.rxBuf 2).toNat ≤ s.cfg.rxIdMax) (hl : (byteAt s.rxBuf 3).toNat ≤ s.cfg.rxMaxLen)
include hi hl

theorem headerAtZero_of_otherTarget (hw : s.want ≠ (byteAt s.rxBuf 3).toNat + 4) :
    headerAtZero s = { s with want := (byteAt s.rxBuf 3).toNat + 4 } := by
  rw [headerAtZero, if_neg (by omega), if_pos hw]

theorem headerAtZero_of_target (hw : s.want = (byteAt s.rxBuf 3).toNat + 4) : headerAtZero s = verifyFrame s := by
  rw [headerAtZero, if_neg (by omega), if_neg (not_not_intro hw)]

end

end

/-- The frame passes the checksum verify and the post-receive check (41_frame_codec.md R153, 42_request_response.md R175). -/
def FrameAnswers (cfg : Params) (reqId : Byte) (f : List Byte) : Prop :=
  ChecksumHolds f ∧ byteAt f 2 = reqId ∧ cfg.minFrame ≤ f.length

section
variable {s : State} {q : Nat} (hq : s.xowner = some q) (hle : s.want ≤ s.rxBuf.length)
include hq hle

theorem verifyFrame_of_answers (h : FrameAnswers s.cfg s.reqId (s.rxBuf.take s.want)) :
    verifyFrame s = ended { s with rxBuf := [] } q fun x =>
      x.completeUnicast .success (byteAt (s.rxBuf.take s.want) 4) (s.rxBuf.take s.want) := by
  obtain ⟨hc, hid, hmin⟩ := h
  rw [ChecksumHolds, List.length_take_of_le hle] at hc
  rw [verifyFrame, memRead, List.drop_zero]
  exact (if_pos hc).trans (finishOk_of_match hq hid hmin)

theorem verifyFrame_of_not_answers (h : ¬ FrameAnswers s.cfg s.reqId (s.rxBuf.take s.want)) :
    verifyFrame s = ended { s with rxBuf := [] } q fun x => x.completeUnicast .rxCorrupt 0 [] := by
  rw [verifyFrame, memRead, List.drop_zero]
  by_cases hc : ChecksumHolds (s.rxBuf.take s.want)
  · have hbad : byteAt (s.rxBuf.take s.want) 2 ≠ s.reqId ∨ (s.rxBuf.take s.want).length < s.cfg.minFrame := by
      by_contra hgood
      push Not at hgood
      exact h ⟨hc, hgood⟩
    rw [ChecksumHolds, List.length_take_of_le hle] at hc
    exact (if_pos hc).trans (finishOk_of_mismatch hq hbad)
  · rw [ChecksumHolds, List.length_take_of_le hle] at hc
    exact (if_neg hc).trans (finishFail_of_owner hq _)

end

/-- What a whole frame does to the registers of the receive's owner (42_request_response.md R175, R176). -/
inductive FrameVerdict (cfg : Params) (reqId : Byte) (f : List Byte) : (Port → Port) → Prop where
  | success (h : FrameAnswers cfg reqId f) :
      FrameVerdict cfg reqId f fun x => x.completeUnicast .success (byteAt f 4) f
  | corrupt (h : ¬ FrameAnswers cfg reqId f) : FrameVerdict cfg reqId f fun x => x.completeUnicast .rxCorrupt 0 []

theorem verifyFrame_verdict {s : State} {q : Nat} (hq : s.xowner = some q) (hle : s.want ≤ s.rxBuf.length) :
    ∃ g, FrameVerdict s.cfg s.reqId (s.rxBuf.take s.want) g ∧ verifyFrame s = ended { s with rxBuf := [] } q g := by
  by_cases h : FrameAnswers s.cfg s.reqId (s.rxBuf.take s.want)
  · exact ⟨_, .success h, verifyFrame_of_answers hq hle h⟩
  · exact ⟨_, .corrupt h, verifyFrame_of_not_answers hq hle h⟩

/-! What an exchange keeps while it receives. -/

/-- Nothing of the block moved but the receive's buffers and target; time and the environment may have. -/
def SameExchange (s u : State) : Prop :=
  u = { s with now := u.now, env := u.env, rxFifo := u.rxFifo, rxBuf := u.rxBuf, want := u.want }

theorem SameExchange.rewrite {s u : State} (h : SameExchange s u) (now : Millis) (env : Env) (fifo buf : List Byte)
    (want : Nat) : SameExchange s { u with now := now, env := env, rxFifo := fifo, rxBuf := buf, want := want } := by
  unfold SameExchange
  exact congrArg (fun v : State => { v with now := now, env := env, rxFifo := fifo, rxBuf := buf, want := want }) h

/-- Ending a receive whose buffers and target moved is ending it as it began, but for these. -/
theorem SameExchange.ended {s u : State} (h : SameExchange s u) (q : Nat) (f : Port → Port) :
    SameExchange (ended s q f) (ended { u with rxBuf := [] } q f) :=
  congrArg (fun v : State => Machine.ended { v with rxBuf := [] } q f) h

/-! How far a receive can go (41_frame_codec.md R154; 70_reset_and_hazards.md R284). -/

/-- Upper bound of the steps that a receive takes before its last one: a pull moves a byte from the FIFO to the buffer, a
discard shortens the buffer, and the target is set once. -/
noncomputable def stepsLeft (s : State) : Nat :=
  open Classical in
  2 * s.rxFifo.length + s.rxBuf.length + if HeaderSet s.cfg s.rxBuf s.want then 0 else 1

theorem stepsLeft_of_headerSet {s : State} (h : HeaderSet s.cfg s.rxBuf s.want) :
    stepsLeft s = 2 * s.rxFifo.length + s.rxBuf.length := by
  simp [stepsLeft, h]

theorem stepsLeft_of_not_headerSet {s : State} (h : ¬ HeaderSet s.cfg s.rxBuf s.want) :
    stepsLeft s = 2 * s.rxFifo.length + s.rxBuf.length + 1 := by
  simp [stepsLeft, h]

theorem stepsLeft_le (s : State) : stepsLeft s ≤ 2 * s.rxFifo.length + s.rxBuf.length + 1 := by
  by_cases h : HeaderSet s.cfg s.rxBuf s.want
  · rw [stepsLeft_of_headerSet h]; omega
  · rw [stepsLeft_of_not_headerSet h]

theorem stepsLeft_drop_lt {s : State} {k : Nat} (h : ¬ HeaderSet s.cfg s.rxBuf s.want) (hk : 0 < k)
    (hlen : 0 < s.rxBuf.length) : stepsLeft { s with rxBuf := s.rxBuf.drop k } < stepsLeft s := by
  have hle := stepsLeft_le { s with rxBuf := s.rxBuf.drop k }
  rw [stepsLeft_of_not_headerSet h]
  simp only [List.length_drop] at hle
  omega

theorem stepsLeft_pull_lt {s : State} (hw : s.cfg.wf) {b : Byte} {rest : List Byte} (hf : s.rxFifo = b :: rest) :
    stepsLeft { s with rxFifo := rest, rxBuf := s.rxBuf ++ [b] } < stepsLeft s := by
  by_cases h : HeaderSet s.cfg s.rxBuf s.want
  · rw [stepsLeft_of_headerSet h, stepsLeft_of_headerSet (h.append hw [b])]
    simp [hf]
    omega
  · have hle := stepsLeft_le { s with rxFifo := rest, rxBuf := s.rxBuf ++ [b] }
    rw [stepsLeft_of_not_headerSet h]
    simp only [hf, List.length_append, List.length_cons, List.length_nil] at hle ⊢
    omega

/-- A step of the receive from `s` to `t` does not end it: the buffer does not become empty, and where the Engine had a step,
fewer are left. -/
structure ReceiveGoesOn (s t : State) : Prop where
  same : SameExchange s t
  fifo : s.rxFifo = [] → t.rxFifo = []
  buffer : s.rxBuf ≠ [] → t.rxBuf ≠ []
  steps : exchangeReady s = true → stepsLeft t < stepsLeft s

theorem receiveGoesOn_discard {s : State} {k : Nat} (hn : ¬ HeaderSet s.cfg s.rxBuf s.want) (hk : 0 < k)
    (hlt : k < s.rxBuf.length) : ReceiveGoesOn s { s with rxBuf := s.rxBuf.drop k } :=
  ⟨rfl, id, fun _ => by simpa using hlt, fun _ => stepsLeft_drop_lt hn hk (by omega)⟩

/-- An accepted header sets the target once (41_frame_codec.md R152). -/
theorem Receiving.goesOn_setLength {s : State} (h : Receiving s) (hle : s.want ≤ s.rxBuf.length)
    (hh : findHeader s.rxBuf = some 0) (hi : (byteAt s.rxBuf 2).toNat ≤ s.cfg.rxIdMax)
    (hl : (byteAt s.rxBuf 3).toNat ≤ s.cfg.rxMaxLen) (hw : s.want ≠ (byteAt s.rxBuf 3).toNat + 4) :
    ReceiveGoesOn s { s with want := (byteAt s.rxBuf 3).toNat + 4 } := by
  refine ⟨rfl, id, id, fun _ => ?_⟩
  have hn : ¬ HeaderSet s.cfg s.rxBuf s.want := fun hs => hw hs.target
  have hset : HeaderSet s.cfg s.rxBuf ((byteAt s.rxBuf 3).toNat + 4) :=
    ⟨(findHeader_eq_zero_iff _).mp hh, hi, hl, rfl, h.target.resolve_right hn ▸ hle⟩
  rw [stepsLeft_of_not_headerSet hn, stepsLeft_of_headerSet (s := { s with want := _ }) hset]
  exact Nat.lt_succ_self _

/-- Every step of a receive ends it or goes on with it (41_frame_codec.md R154, R159). -/
theorem Receiving.step {s : State} (h : Receiving s) :
    (receiveStep s).xstate = .idle ∨ ReceiveGoesOn s (receiveStep s) := by
  obtain ⟨q, hq⟩ := h.owned
  have hc := receiveStep_cases hq
  generalize receiveStep s = t at hc
  cases hc with
  | wait hlt hf he =>
    have hwaits : exchangeReady s = false := by simp [exchangeReady, h.awaiting, hf, he, hlt]
    exact .inr ⟨rfl, id, id, by simp [hwaits]⟩
  | pull b rest hlt hf => exact .inr ⟨rfl, by simp [hf], by simp, fun _ => stepsLeft_pull_lt h.wf hf⟩
  | expireEmpty => exact .inl rfl
  | expirePartial => exact .inl rfl
  | noHeaderExpired => exact .inl rfl
  | noHeader hle hh he =>
    have h6 := h.six_le hle
    exact .inr (receiveGoesOn_discard (fun hs => by simp [hs.findHeader_eq] at hh) (by omega) (by omega))
  | later i hle hh =>
    have hin := findHeader_lt hh
    exact .inr (receiveGoesOn_discard (fun hs => by simp [hs.findHeader_eq] at hh) (by omega) (by omega))
  | spurious hle hh hbad =>
    have h6 := h.six_le hle
    have hn : ¬ HeaderSet s.cfg s.rxBuf s.want := fun hs => by
      have hid := hs.id
      have hlen := hs.length
      omega
    exact .inr (receiveGoesOn_discard hn (by omega) (by omega))
  | setLength hle hh hi hl hw => exact .inr (h.goesOn_setLength hle hh hi hl hw)
  | verify => exact .inl (verifyFrame_idle hq).1

/-- The receive ends, or waits for a byte, within the steps that are left and one more (41_frame_codec.md R154). -/
theorem MachineInv.receive_ends_or_waits {s : State} (h : MachineInv s) (ha : s.xstate = .awaitingResponse) :
    ∃ n ≤ stepsLeft s + 1, (exchangeRun n s).xstate = .idle ∨ exchangeReady (exchangeRun n s) = false := by
  induction hk : stepsLeft s using Nat.strong_induction_on generalizing s with
  | _ k ih =>
    cases hr : exchangeReady s with
    | false => exact ⟨0, by omega, .inr hr⟩
    | true =>
      have hstep := exchangeStep_awaiting ha
      rcases (h.receiving ha).step with hidle | hon
      · exact ⟨1, by omega, .inl (by simpa only [exchangeRun, hstep] using hidle)⟩
      · have ha' : (Machine.receiveStep s).xstate = .awaitingResponse := by rw [hon.same]; exact ha
        have hlt := hon.steps hr
        obtain ⟨n, hn, hend⟩ := ih _ (hk ▸ hlt) (h.receiveStep ha) ha' rfl
        exact ⟨n + 1, by omega, by simpa only [exchangeRun, hstep] using hend⟩

/-- Nothing is left to receive and the time is up. -/
structure ExpiredReceive (s : State) : Prop where
  inv : MachineInv s
  awaiting : s.xstate = .awaitingResponse
  fifo : s.rxFifo = []
  expired : expired s = true

theorem ExpiredReceive.exchangeReady {s : State} (h : ExpiredReceive s) : exchangeReady s = true := by
  simp [Machine.exchangeReady, h.awaiting, h.expired]

theorem ExpiredReceive.step {s : State} (h : ExpiredReceive s) :
    (exchangeStep s).xstate = .idle ∨ ExpiredReceive (exchangeStep s) := by
  rw [exchangeStep_awaiting h.awaiting]
  rcases (h.inv.receiving h.awaiting).step with hidle | hon
  · exact .inl hidle
  · refine .inr ⟨h.inv.receiveStep h.awaiting, by rw [hon.same]; exact h.awaiting, hon.fifo h.fifo, ?_⟩
    have he := h.expired
    rw [expired_iff] at he ⊢
    rw [receiveStep_now, hon.same]
    exact he

theorem exchangeRun_of_idle {s : State} (h : s.xstate = .idle) (n : Nat) : exchangeRun n s = s := by
  induction n with
  | zero => rfl
  | succ n ih => rwa [exchangeRun, show exchangeStep s = s by simp [exchangeStep, h]]

theorem ExpiredReceive.run {s : State} (h : ExpiredReceive s) (n : Nat) :
    (exchangeRun n s).xstate = .idle ∨ ExpiredReceive (exchangeRun n s) := by
  induction n generalizing s with
  | zero => exact .inr h
  | succ n ih =>
    rcases h.step with hidle | hstill
    · exact .inl (by rw [exchangeRun, exchangeRun_of_idle hidle]; exact hidle)
    · exact ih hstill

theorem MachineInv.exchangeRun {s : State} (h : MachineInv s) (n : Nat) : MachineInv (exchangeRun n s) := by
  induction n generalizing s with
  | zero => exact h
  | succ n ih => exact ih h.exchangeStep

theorem MachineInv.busy_eq_false {s : State} (h : MachineInv s) (hx : s.xstate = .idle) : s.busy = false := by
  by_contra hb
  exact h.exchange.busy.mp (by simpa using hb) hx

/-! What a receive makes of a frame that is delivered to it (41_frame_codec.md R156 to R158). -/

/-- A receive of port `q` on an open line that has pulled nothing yet (41_frame_codec.md R143). -/
structure FreshReceive (s : State) (q : Nat) : Prop where
  wf : s.cfg.wf
  lineOpen : s.lineOpen = true
  awaiting : s.xstate = .awaitingResponse
  owner : s.xowner = some q
  buffer : s.rxBuf = []
  target : s.want = s.cfg.minFrame
  depth : s.cfg.rxFifoDepth ≠ some 0

/-- The bytes pass the parser's header scan and are as many as their length byte says (41_frame_codec.md R151, R152). -/
structure PlausibleFrame (cfg : Params) (f : List Byte) : Prop where
  header : f.take 2 = [headerByte, headerByte]
  id : (byteAt f 2).toNat ≤ cfg.rxIdMax
  length : (byteAt f 3).toNat ≤ cfg.rxMaxLen
  size : f.length = (byteAt f 3).toNat + 4
  held : cfg.minFrame ≤ f.length

theorem plausibleFrame_frameOf {cfg : Params} (hw : cfg.wf) {id : Byte} (code : Byte) {params : List Byte}
    (hid : id.toNat ≤ cfg.rxIdMax) (hmin : cfg.minFrame ≤ params.length + 6)
    (hmax : params.length + 2 ≤ cfg.rxMaxLen) : PlausibleFrame cfg (frameOf id code params) := by
  obtain ⟨-, -, h251, -, -⟩ := hw
  have hlen : (byteAt (frameOf id code params) 3).toNat = params.length + 2 := by
    rw [frameOf_byteAt_len, lenByte_toNat (by omega)]
  exact ⟨rfl, hid, hlen ▸ hmax, by rw [hlen, frameOf_length], by rwa [frameOf_length]⟩

/-- Another byte from offset 4 on, or another acceptable id, leaves a plausible frame (41_frame_codec.md R157). -/
theorem PlausibleFrame.set {cfg : Params} {f : List Byte} (hw : cfg.wf) (h : PlausibleFrame cfg f) {k : Nat} {b : Byte}
    (hk : 4 ≤ k ∨ k = 2 ∧ b.toNat ≤ cfg.rxIdMax) : PlausibleFrame cfg (f.set k b) := by
  have h6 := hw.1
  have hheld := h.held
  have h3 : byteAt (f.set k b) 3 = byteAt f 3 := byteAt_set_ne b (by omega)
  refine ⟨?_, ?_, h3 ▸ h.length, ?_, ?_⟩
  · rw [List.take_set, List.set_eq_of_length_le (by rw [List.length_take]; omega)]
    exact h.header
  · rcases hk with hk | ⟨rfl, hb⟩
    · rw [byteAt_set_ne b (by omega)]
      exact h.id
    · rwa [byteAt_set_self b (by omega)]
  · rw [List.length_set, h3]
    exact h.size
  · rwa [List.length_set]

theorem byteAt_of_append_eq {a b c d : List Byte} (h : a ++ b = c ++ d) {i : Nat} (ha : i < a.length)
    (hc : i < c.length) : byteAt a i = byteAt c i := by
  rw [← byteAt_append_left (t := b) ha, h, byteAt_append_left hc]

/-- Where the target stands while the rest of `noise` and then the frame `G` are received: at `P_MIN_FRAME`, or, once the
header was accepted, at the frame's length (41_frame_codec.md R152). -/
def TargetFor (minFrame : Nat) (noise G buf : List Byte) (want : Nat) : Prop :=
  want = minFrame ∧ buf.length ≤ minFrame ∨ noise = [] ∧ want = G.length ∧ buf.length ≤ G.length

theorem TargetFor.snoc {minFrame want : Nat} {noise G buf : List Byte} (h : TargetFor minFrame noise G buf want)
    (hlt : buf.length < want) (b : Byte) : TargetFor minFrame noise G (buf ++ [b]) want := by
  have hlen : (buf ++ [b]).length = buf.length + 1 := by simp
  rcases h with ⟨hw, -⟩ | ⟨h0, hw, -⟩
  · exact .inl ⟨hw, by omega⟩
  · exact .inr ⟨h0, hw, by omega⟩

/-- Where noise is held, the target is `P_MIN_FRAME`, whatever is discarded of the noise. -/
theorem TargetFor.discard {minFrame want : Nat} {noise G buf : List Byte} (h : TargetFor minFrame noise G buf want)
    (hn : noise ≠ []) (rest : List Byte) (k : Nat) : TargetFor minFrame rest G (buf.drop k) want := by
  obtain ⟨hw, hle⟩ := h.resolve_right fun h => hn h.1
  exact .inl ⟨hw, by rw [List.length_drop]; omega⟩

/-- The receive begun in `s` is still in progress: of a stream of noise without header bytes, the frame `G` and `rest`, the
Line has still to deliver `coming`, and what was discarded is noise. -/
structure Hearing (s : State) (G rest coming : List Byte) (u : State) : Prop where
  same : SameExchange s u
  heard : s.rxFifo ≠ [] → u.rxBuf ++ u.rxFifo ≠ []
  stream : ∃ noise, (∀ b ∈ noise, b ≠ headerByte) ∧ u.rxBuf ++ (u.rxFifo ++ coming) = noise ++ (G ++ rest) ∧
    TargetFor s.cfg.minFrame noise G u.rxBuf u.want

/-- The receive begun in `s` for port `q` is over: it expired, with RxCorrupt if a byte stood in the FIFO at its begin, or it
ended with the verdict on `G`, and then a FIFO that has room for `rest` holds what was delivered of it. -/
structure ReceiveOver (s : State) (q : Nat) (G rest coming : List Byte) (u : State) : Prop where
  buffer : u.rxBuf = []
  outcome : (∃ c, SameExchange (ended s q fun x => x.completeUnicast c 0 []) u ∧ s.tDur < u.now - s.tStart ∧
      (s.rxFifo ≠ [] → c = .rxCorrupt)) ∨
    ∃ g, SameExchange (ended s q g) u ∧ FrameVerdict s.cfg s.reqId G g ∧ u.want = G.length ∧
      ((∀ d, s.cfg.rxFifoDepth = some d → rest.length ≤ d) → u.rxFifo ++ coming = rest)

section
variable {s u : State} {q : Nat} {G rest coming : List Byte}

theorem SameExchange.receiving (h : SameExchange s u) (hs : FreshReceive s q) :
    u.xstate = .awaitingResponse ∧ u.xowner = some q ∧ u.lineOpen = true ∧ u.cfg = s.cfg ∧ u.reqId = s.reqId ∧
      u.tStart = s.tStart ∧ u.tDur = s.tDur := by
  rw [h]
  exact ⟨hs.awaiting, hs.owner, hs.lineOpen, rfl, rfl, rfl, rfl⟩

theorem Hearing.start {noise : List Byte} (hs : FreshReceive s q) (hn : ∀ b ∈ noise, b ≠ headerByte)
    (hst : s.rxFifo ++ coming = noise ++ (G ++ rest)) : Hearing s G rest coming s :=
  ⟨rfl, by simp [hs.buffer], noise, hn, by simpa [hs.buffer] using hst, .inl ⟨hs.target, by simp [hs.buffer]⟩⟩

theorem Hearing.of_now_env (h : Hearing s G rest coming u) (now : Millis) (env : Env) :
    Hearing s G rest coming { u with now := now, env := env } :=
  ⟨h.same.rewrite now env u.rxFifo u.rxBuf u.want, h.heard, h.stream⟩

/-- A delivery into the FIFO of a receive (40_transport.md R131). -/
theorem Hearing.deliver {b : Byte} (h : Hearing s G rest (b :: coming) u) (env : Env) :
    Hearing s G rest coming { u with rxFifo := u.rxFifo ++ [b], env := env } := by
  obtain ⟨noise, hn, hst, ht⟩ := h.stream
  exact ⟨h.same.rewrite u.now env (u.rxFifo ++ [b]) u.rxBuf u.want, by simp, noise, hn, by simpa using hst, ht⟩

theorem Hearing.pull {b : Byte} {fifo : List Byte} (h : Hearing s G rest coming u) (hlt : u.rxBuf.length < u.want)
    (hf : u.rxFifo = b :: fifo) : Hearing s G rest coming { u with rxFifo := fifo, rxBuf := u.rxBuf ++ [b] } := by
  obtain ⟨noise, hn, hst, ht⟩ := h.stream
  exact ⟨h.same.rewrite u.now u.env fifo (u.rxBuf ++ [b]) u.want, by simp, noise, hn, by simpa [hf] using hst,
    ht.snoc hlt b⟩

/-- What a full buffer shows of the stream: all of the header scan turns on how much noise it holds. -/
theorem Hearing.scan (h : Hearing s G rest coming u) (hG : PlausibleFrame s.cfg G) :
    ∃ noise, (∀ b ∈ noise, b ≠ headerByte) ∧ u.rxBuf ++ (u.rxFifo ++ coming) = noise ++ (G ++ rest) ∧
      TargetFor s.cfg.minFrame noise G u.rxBuf u.want ∧
      findHeader u.rxBuf = if noise.length + 2 ≤ u.rxBuf.length then some noise.length else none := by
  obtain ⟨noise, hn, hst, ht⟩ := h.stream
  have h2 : 2 ≤ G.length := by have := hG.size; omega
  have htail : (G ++ rest).take 2 = [headerByte, headerByte] := by
    rw [List.take_append_of_le_length h2, hG.header]
  exact ⟨noise, hn, hst, ht, findHeader_of_noise hn htail hst⟩

/-- Discarding bytes that are all noise, and not the whole buffer (41_frame_codec.md R149, R150). -/
theorem Hearing.discard (h : Hearing s G rest coming u) {noise : List Byte} (hn : ∀ b ∈ noise, b ≠ headerByte)
    (hst : u.rxBuf ++ (u.rxFifo ++ coming) = noise ++ (G ++ rest)) (ht : TargetFor s.cfg.minFrame noise G u.rxBuf u.want)
    {k : Nat} (h0 : 0 < k) (hk : k ≤ noise.length) (hlt : k < u.rxBuf.length) :
    Hearing s G rest coming { u with rxBuf := u.rxBuf.drop k } := by
  have hne : u.rxBuf.drop k ≠ [] := by simpa using hlt
  refine ⟨h.same.rewrite u.now u.env u.rxFifo (u.rxBuf.drop k) u.want, by simp [hne], noise.drop k,
    fun b hb => hn b (List.mem_of_mem_drop hb), ?_, ht.discard (List.ne_nil_of_length_pos (by omega)) _ k⟩
  rw [← List.drop_append_of_le_length hk, ← hst, List.drop_append_of_le_length hlt.le]

/-- With the header at offset 0 no noise is left, and the buffer shows the id and the length of `G`. -/
theorem Hearing.at_header (hs : FreshReceive s q) (h : Hearing s G rest coming u) (hG : PlausibleFrame s.cfg G)
    (hle : u.want ≤ u.rxBuf.length) (hh : findHeader u.rxBuf = some 0) :
    u.rxBuf ++ (u.rxFifo ++ coming) = G ++ rest ∧ u.rxBuf.length ≤ G.length ∧
      byteAt u.rxBuf 2 = byteAt G 2 ∧ byteAt u.rxBuf 3 = byteAt G 3 := by
  obtain ⟨noise, -, hst, ht, hscan⟩ := h.scan hG
  have h6 := hs.wf.1
  have hheld := hG.held
  obtain rfl : noise = [] := by
    rw [hh] at hscan
    split at hscan
    · exact List.length_eq_zero_iff.mp (Option.some.inj hscan).symm
    · cases hscan
  rw [List.nil_append] at hst
  have hlen : u.rxBuf.length ≤ G.length ∧ s.cfg.minFrame ≤ u.rxBuf.length := by
    rcases ht with ⟨hw, hmax⟩ | ⟨-, hw, hmax⟩ <;> omega
  exact ⟨hst, hlen.1, byteAt_of_append_eq hst (by omega) (by omega), byteAt_of_append_eq hst (by omega) (by omega)⟩

/-- A step of the receive goes on with it, or ends it: after expiry, or with the verdict on exactly `G`
(41_frame_codec.md R156 to R158). -/
theorem Hearing.step (hs : FreshReceive s q) (hG : PlausibleFrame s.cfg G) (h : Hearing s G rest coming u) :
    Hearing s G rest coming (receiveStep u) ∨ ReceiveOver s q G rest coming (receiveStep u) := by
  obtain ⟨-, ho, -, hcfg, hid, htS, htD⟩ := h.same.receiving hs
  have h6 := hs.wf.1
  have fails : ∀ c : CommResult, Machine.expired u = true → (s.rxFifo ≠ [] → c = .rxCorrupt) →
      ReceiveOver s q G rest coming (ended { u with rxBuf := [] } q fun x => x.completeUnicast c 0 []) := by
    intro c he hc
    rw [expired_iff, htS, htD] at he
    exact ⟨rfl, .inl ⟨c, h.same.ended q _, he, hc⟩⟩
  have hsix : u.want ≤ u.rxBuf.length → 6 ≤ u.rxBuf.length := by
    have hheld := hG.held
    obtain ⟨noise, -, -, ⟨hw, -⟩ | ⟨-, hw, -⟩⟩ := h.stream <;> omega
  have hc := receiveStep_cases ho
  generalize receiveStep u = t at hc
  cases hc with
  | wait => exact .inl h
  | pull b fifo hlt hf => exact .inl (h.pull hlt hf)
  | expireEmpty hlt hf he hb => exact .inr (fails _ he fun hne => absurd (by simp [hb, hf]) (h.heard hne))
  | expirePartial hlt hf he hb => exact .inr (fails _ he fun _ => rfl)
  | noHeaderExpired hle hh he => exact .inr (fails _ he fun _ => rfl)
  | noHeader hle hh he =>
    obtain ⟨noise, hn, hst, ht, hscan⟩ := h.scan hG
    have hlen := hsix hle
    have hnoise : ¬ noise.length + 2 ≤ u.rxBuf.length := fun hlong => by simp [hh, hlong] at hscan
    exact .inl (h.discard hn hst ht (by omega) (by omega) (by omega))
  | later i hle hh =>
    obtain ⟨noise, hn, hst, ht, hscan⟩ := h.scan hG
    have hin := findHeader_lt hh
    have hi : i + 1 = noise.length := by
      rw [hh] at hscan
      split at hscan
      · exact Option.some.inj hscan
      · cases hscan
    exact .inl (h.discard hn hst ht (by omega) (by omega) (by omega))
  | spurious hle hh hbad =>
    obtain ⟨-, -, h2, h3⟩ := h.at_header hs hG hle hh
    rw [hcfg, h2, h3] at hbad
    have hok := hG.id
    have hlen := hG.length
    omega
  | setLength hle hh hi hl hw =>
    obtain ⟨hst, hmax, -, h3⟩ := h.at_header hs hG hle hh
    rw [h3, ← hG.size]
    exact .inl ⟨h.same.rewrite u.now u.env u.rxFifo u.rxBuf G.length, h.heard, [], by simp, hst, .inr ⟨rfl, rfl, hmax⟩⟩
  | verify hle hh hi hl hw =>
    obtain ⟨hst, hmax, -, h3⟩ := h.at_header hs hG hle hh
    rw [h3, ← hG.size] at hw
    obtain ⟨hbuf, hrest⟩ := List.append_inj hst (by omega)
    obtain ⟨g, hg, e⟩ := verifyFrame_verdict ho hle
    rw [hbuf, hw, List.take_length, hcfg, hid] at hg
    rw [e]
    exact .inr ⟨rfl, .inr ⟨g, h.same.ended q g, hg, hw, fun _ => hrest⟩⟩

/-- A receive that waits was delivered too little, and is in time (41_frame_codec.md R144). -/
theorem Hearing.of_not_ready (hs : FreshReceive s q) (hG : PlausibleFrame s.cfg G) (h : Hearing s G rest coming u)
    (hr : exchangeReady u = false) : coming ≠ [] ∧ u.now - s.tStart ≤ s.tDur := by
  obtain ⟨ha, -, -, -, -, htS, htD⟩ := h.same.receiving hs
  obtain ⟨hf, hlt, he⟩ := waiting_of_not_ready ha hr
  rw [not_expired_iff, htS, htD] at he
  refine ⟨fun hnil => ?_, he⟩
  obtain ⟨noise, -, hst, ht⟩ := h.stream
  have hlen := congrArg List.length hst
  have hheld := hG.held
  simp only [hf, hnil, List.append_nil, List.length_append] at hlen
  rcases ht with ⟨hw, -⟩ | ⟨-, hw, -⟩ <;> omega

/-- Nothing of the Engine's is left of a receive that is over. -/
theorem ReceiveOver.released (h : ReceiveOver s q G rest coming u) :
    u.xstate = .idle ∧ u.lineOpen = s.lineOpen ∧ u.cfg = s.cfg := by
  rcases h.outcome with ⟨c, hsame, -⟩ | ⟨g, hsame, -⟩ <;> rw [hsame] <;> exact ⟨rfl, rfl, rfl⟩

theorem ReceiveOver.of_later (h : ReceiveOver s q G rest coming u) {now : Millis} (hle : u.now ≤ now) (env : Env) :
    ReceiveOver s q G rest coming { u with now := now, env := env } := by
  refine ⟨h.buffer, ?_⟩
  rcases h.outcome with ⟨c, hsame, hlate, hc⟩ | ⟨g, hsame, hout⟩
  · exact .inl ⟨c, hsame.rewrite now env u.rxFifo u.rxBuf u.want, hlate.trans_le (sub_le_sub_right hle _), hc⟩
  · exact .inr ⟨g, hsame.rewrite now env u.rxFifo u.rxBuf u.want, hout⟩

/-- What is delivered after the receive stays in the FIFO, where that has room (40_transport.md R131, R134). -/
theorem ReceiveOver.deliver {b : Byte} (h : ReceiveOver s q G rest (b :: coming) u) {fifo : List Byte} (env : Env)
    (hroom : fifoFull u = false → fifo = u.rxFifo ++ [b]) :
    ReceiveOver s q G rest coming { u with rxFifo := fifo, env := env } := by
  obtain ⟨-, -, hcfg⟩ := h.released
  refine ⟨h.buffer, ?_⟩
  rcases h.outcome with ⟨c, hsame, hlate⟩ | ⟨g, hsame, hg, hw, hrest⟩
  · exact .inl ⟨c, hsame.rewrite u.now env fifo u.rxBuf u.want, hlate⟩
  · refine .inr ⟨g, hsame.rewrite u.now env fifo u.rxBuf u.want, hg, hw, fun hdepth => ?_⟩
    have hfits := hrest hdepth
    have hfree : fifoFull u = false := by
      rw [fifoFull_eq_false_iff, hcfg]
      intro d hd
      have hlen := hdepth d hd
      simp only [← hfits, List.length_append, List.length_cons] at hlen
      omega
    simpa [hroom hfree] using hfits

end

/-- A delivery to an open line writes the FIFO and the environment only (40_transport.md R131, R134). -/
theorem lineMove_of_open {s : State} {b : Byte} {rest : List Byte} (hb : s.env.lineIn = b :: rest)
    (ho : s.lineOpen = true) : ∃ fifo env, lineMove s = { s with rxFifo := fifo, env := env } ∧
      (fifoFull s = false → fifo = s.rxFifo ++ [b]) := by
  cases hf : fifoFull s with
  | true => exact ⟨s.rxFifo, _, lineMove_of_full hb ho hf, by simp⟩
  | false => exact ⟨_, _, lineMove_of_room hb ho hf, fun _ => rfl⟩

/-- Where what was delivered begins the stream of noise, the frame and `rest`, the receive is in progress or over. -/
def Receives (s : State) (q : Nat) (noise G rest delivered : List Byte) (u : State) : Prop :=
  ∀ coming, s.rxFifo ++ delivered ++ coming = noise ++ (G ++ rest) →
    Hearing s G rest coming u ∨ ReceiveOver s q G rest coming u

/-- The Engine, the Clock and the Line keep the receive in progress until it is over. -/
theorem LineRun.receives {s t : State} {q : Nat} {noise G delivered : List Byte} (hs : FreshReceive s q)
    (hG : PlausibleFrame s.cfg G) (hn : ∀ b ∈ noise, b ≠ headerByte) (rest : List Byte)
    (run : LineRun s delivered t) : Receives s q noise G rest delivered t := by
  refine run.keeps (P := Receives s q noise G rest) ?start ?schedule ?exchange ?clock ?line
  case start => exact fun coming hst => .inl (.start hs hn (by simpa using hst))
  case schedule =>
    intro bs u sched draws hu coming hst
    exact (hu coming hst).imp (·.of_now_env u.now _) (·.of_later le_rfl _)
  case exchange =>
    intro bs u hu hready coming hst
    rcases hu coming hst with h | h
    · rw [exchangeStep_awaiting (h.same.receiving hs).1]
      exact h.step hs hG
    · simp [exchangeReady, h.released.1] at hready
  case clock =>
    intro bs u hu _ coming hst
    rw [clockMove_eq]
    exact (hu coming hst).imp (·.of_now_env _ _) (·.of_later (drawTime_gt u).le _)
  case line =>
    intro bs u b more hu hidle _ hb coming hst
    rcases hu (b :: coming) (by simpa using hst) with h | h
    · obtain ⟨ha, -, ho, hcfg, -⟩ := h.same.receiving hs
      have hempty := (waiting_of_not_ready ha ((engineIdle_iff u).mp hidle).1).1
      have hfree : fifoFull u = false := by
        rw [fifoFull_eq_false_iff, hcfg, hempty]
        intro d hd
        exact Nat.pos_of_ne_zero fun h0 => hs.depth (h0 ▸ hd)
      rw [lineMove_of_room hb ho hfree]
      exact .inl (h.deliver _)
    · obtain ⟨fifo, env, e, hroom⟩ := lineMove_of_open hb (h.released.2.1.trans hs.lineOpen)
      rw [e]
      exact .inr (h.deliver env hroom)

/-- When the Engine has no step any more, after expiry or once the whole frame was delivered, the receive is over. -/
theorem LineRun.receive_over {s t : State} {q : Nat} {noise G rest coming delivered : List Byte} (hs : FreshReceive s q)
    (hG : PlausibleFrame s.cfg G) (hn : ∀ b ∈ noise, b ≠ headerByte) (run : LineRun s delivered t)
    (hr : exchangeReady t = false) (hst : s.rxFifo ++ delivered ++ coming = noise ++ (G ++ rest))
    (hend : coming = [] ∨ s.tDur < t.now - s.tStart) : ReceiveOver s q G rest coming t := by
  rcases run.receives hs hG hn rest coming hst with h | h
  · obtain ⟨hmore, hintime⟩ := h.of_not_ready hs hG hr
    exact absurd hend (not_or_intro hmore (not_lt.mpr hintime))
  · exact h

theorem frameOf_answers (cfg : Params) (id code : Byte) {params : List Byte} (hmin : cfg.minFrame ≤ params.length + 6) :
    FrameAnswers cfg id (frameOf id code params) :=
  ⟨frameOf_checksumHolds id code params, rfl, by rwa [frameOf_length]⟩

/-! The obligations. -/

/-- Settles O32: a frame the block built is plausible, so once all of it was delivered the receive is over; in time, that is
with the verdict on the frame, which answers the request. -/
theorem noiseBeforeAFrameIsDiscarded : Obligations.NoiseBeforeAFrameIsDiscarded := by
  intro s t q noise id code params delivered rest hw ho ha hq hb hwant hdepth run hr hin hn hst hreq hid hmin hmax
  have hs : FreshReceive s q := ⟨hw, ho, ha, hq, hb, hwant, fun h0 => by simpa using (hdepth 0 h0).1⟩
  have hover := run.receive_over hs (plausibleFrame_frameOf hw code hid hmin hmax) hn hr (rest := rest) (coming := [])
    (by simpa using hst) (.inl rfl)
  rcases hover.outcome with ⟨c, -, hlate, -⟩ | ⟨g, hsame, hg, hwt, hrest⟩
  · exact absurd hlate (not_lt.mpr hin)
  · have hfifo : t.rxFifo = rest := by simpa using hrest fun d hd => (hdepth d hd).2
    cases hg with
    | corrupt hnot => exact absurd (hreq ▸ frameOf_answers s.cfg id code hmin) hnot
    | success =>
      rw [SameExchange, hover.buffer.trans hb.symm, hfifo, hwt, frameOf_length] at hsame
      exact hsame

/-- Settles O30: it is the case of no noise. -/
theorem builtFrameIsReceivedAsItWasBuilt : Obligations.BuiltFrameIsReceivedAsItWasBuilt := by
  intro s t q id code params delivered rest hw ho ha hq hb hwant hdepth run hr hin hst hreq hid hmin hmax
  exact ⟨frameParams_frameOf id code params, noiseBeforeAFrameIsDiscarded s t q [] id code params delivered rest hw ho ha
    hq hb hwant hdepth run hr hin (by simp) hst hreq hid hmin hmax⟩

/-- Settles O31: the changed frame is still plausible, so the receive comes to be over, and its checksum fails. -/
theorem oneChangedByteIsRxCorrupt : Obligations.OneChangedByteIsRxCorrupt := by
  intro s t q id code params delivered later k b hw ho ha hq hb hwant hdepth hne run hr hid hmin hmax hk hbyte changed hst
  have hs : FreshReceive s q := ⟨hw, ho, ha, hq, hb, hwant, hdepth⟩
  have hplausible : PlausibleFrame s.cfg changed :=
    (plausibleFrame_frameOf hw code hid hmin hmax).set hw (hk.imp_left And.left)
  have hbad : ¬ ChecksumHolds changed :=
    not_checksumHolds_set (frameOf_checksumHolds id code params) (by omega) (by rw [frameOf_length]; omega) hbyte
  obtain ⟨rest, coming, hstream, hend⟩ : ∃ rest coming, s.rxFifo ++ delivered ++ coming = [] ++ (changed ++ rest) ∧
      (coming = [] ∨ s.tDur < t.now - s.tStart) := by
    rcases hst with hall | ⟨⟨coming, hpart⟩, hlate⟩
    · exact ⟨later, [], by simpa using hall, .inl rfl⟩
    · exact ⟨[], coming, by simpa using hpart, .inr hlate⟩
  have hover := run.receive_over hs hplausible (by simp) hr hstream hend
  have hsame : SameExchange (ended s q fun x => x.completeUnicast .rxCorrupt 0 []) t := by
    rcases hover.outcome with ⟨c, hsame, -, hc⟩ | ⟨g, hsame, hg, -⟩
    · rwa [hc hne] at hsame
    · cases hg with
      | success hans => exact absurd hans.1 hbad
      | corrupt => exact hsame
  rw [SameExchange, hover.buffer.trans hb.symm] at hsame
  exact hsame

/-- Settles O5: only the sum mod 256 counts, and two different bytes differ mod 256. -/
theorem checksumDetectsEverySingleByteChange : Obligations.ChecksumDetectsEverySingleByteChange :=
  ⟨checksum_toNat, fun before after _ _ h => checksum_append_cons_ne before after h⟩

/-- Settles O6, field by field. -/
theorem buildFrameLayoutAndLimit : Obligations.BuildFrameLayoutAndLimit := by
  refine fun cfg id code params => ⟨buildFrame_eq_none_iff cfg id code params, fun f hf => ?_⟩
  obtain ⟨-, rfl⟩ := (buildFrame_eq_some_iff cfg id code params f).mp hf
  refine ⟨frameOf_length .., rfl, frameOf_byteAt_code .., frameParams_frameOf .., frameOf_checksumHolds id code params,
    fun hlen => ?_⟩
  rw [frameOf_byteAt_len, lenByte_toNat (by omega)]

/-- Settles O7: a pair of header bytes lies inside the buffer, so its offset needs no bound. -/
theorem headerScanFindsTheLeastOffset : Obligations.HeaderScanFindsTheLeastOffset := by
  refine fun buf k => ⟨?_, ?_⟩
  · rw [findHeader_eq_some_iff]
    exact ⟨fun ⟨hk, hleast⟩ => ⟨⟨hk.add_two_le, hk⟩, hleast⟩, fun ⟨⟨_, hk⟩, hleast⟩ => ⟨hk, hleast⟩⟩
  · rw [findHeader_eq_none_iff]
    exact ⟨fun h j _ => h j, fun h j hj => h j (HeaderAt.add_two_le hj) hj⟩

/-- Settles O34: the receive ends or waits before its steps are used up. -/
theorem receiveEndsOrWaitsInBoundedSteps : Obligations.ReceiveEndsOrWaitsInBoundedSteps := by
  intro s hinv ha
  obtain ⟨n, hn, hend⟩ := hinv.receive_ends_or_waits ha
  have hle := stepsLeft_le s
  exact ⟨n, by omega, hend⟩

/-- Settles O35: it ends or waits within the bound, and an expired receive does not wait. -/
theorem expiredReceiveEnds : Obligations.ExpiredReceiveEnds := by
  intro s hinv ha hf he
  obtain ⟨n, hn, hend⟩ := hinv.receive_ends_or_waits ha
  have hle := stepsLeft_le s
  have hidle : (exchangeRun n s).xstate = .idle := by
    rcases ExpiredReceive.run ⟨hinv, ha, hf, (expired_iff s).mpr he⟩ n with hidle | hstill
    · exact hidle
    · exact hend.resolve_right (by simp [hstill.exchangeReady])
  exact ⟨n, by simp [hf] at hle; omega, hidle, (hinv.exchangeRun n).busy_eq_false hidle⟩

/-- Settles O36: the receive step's cases that end the receive, and the verdict on a whole frame. -/
theorem receiveEndsOnlyInTheThreeResults : Obligations.ReceiveEndsOnlyInTheThreeResults := by
  intro s q x hinv ha hq hx hidle
  rw [exchangeStep_awaiting ha] at hidle ⊢
  have hrec := hinv.receiving ha
  have completed : ∀ f : Port → Port, (ended { s with rxBuf := [] } q f).ports[q]? = some (f x) := fun f => by
    simp [hx]
  have hheld : s.want ≤ s.rxBuf.length → s.rxBuf ≠ [] := fun hle h0 => by
    have h6 := hrec.six_le hle
    simp [h0] at h6
  have hc := receiveStep_cases hq
  generalize receiveStep s = t at hc hidle
  cases hc with
  | wait => simp [ha] at hidle
  | pull => simp [ha] at hidle
  | expireEmpty hlt hf he hb => exact ⟨_, completed _, rfl, .inl ⟨rfl, hb, hf⟩⟩
  | expirePartial hlt hf he hb => exact ⟨_, completed _, rfl, .inr (.inl ⟨rfl, hb⟩)⟩
  | noHeaderExpired hle => exact ⟨_, completed _, rfl, .inr (.inl ⟨rfl, hheld hle⟩)⟩
  | noHeader => simp [ha] at hidle
  | later => simp [ha] at hidle
  | spurious => simp [ha] at hidle
  | setLength => simp [ha] at hidle
  | verify hle hh hi hl hw =>
    obtain ⟨g, hg, e⟩ := verifyFrame_verdict hq hle
    rw [e]
    refine ⟨_, completed g, ?_⟩
    cases hg with
    | corrupt => exact ⟨rfl, .inr (.inl ⟨rfl, hheld hle⟩)⟩
    | success hans =>
      obtain ⟨hsum, hid, hmin⟩ := hans
      have htake : (s.rxBuf.take s.want).take 2 = [0xFF, 0xFF] := by
        rw [List.take_take, Nat.min_eq_left (by omega)]
        exact (findHeader_eq_zero_iff _).mp hh
      have h2 : byteAt (s.rxBuf.take s.want) 2 = byteAt s.rxBuf 2 := byteAt_take (by omega)
      have h3 : byteAt (s.rxBuf.take s.want) 3 = byteAt s.rxBuf 3 := byteAt_take (by omega)
      exact ⟨rfl, .inr (.inr ⟨rfl, rfl, hid, htake, h2 ▸ hi, h3 ▸ hl,
        (List.length_take_of_le hle).trans (h3 ▸ hw), hmin, hsum⟩)⟩

/-- Settles O37: no step that goes on empties the buffer. -/
theorem bufferStaysNonEmptyUntilTheEnd : Obligations.BufferStaysNonEmptyUntilTheEnd := by
  intro s hinv ha hb
  rw [exchangeStep_awaiting ha]
  rcases (hinv.receiving ha).step with hidle | hon
  · exact .inl hidle
  · exact .inr ⟨by rw [hon.same]; exact ha, hon.buffer hb⟩

/-- Settles O24: the pull is the first branch of the receive step. -/
theorem pullComesBeforeExpiry : Obligations.PullComesBeforeExpiry := by
  intro s b rest ha hlt hf
  exact ⟨by simp [exchangeReady, ha, hf], by rw [exchangeStep_awaiting ha, receiveStep_of_pull hlt hf]⟩

/-- Settles O25: the two branches of the receive step that an empty FIFO and too few bytes leave. -/
theorem expiryClassifiesByWhatWasBuffered : Obligations.ExpiryClassifiesByWhatWasBuffered := by
  intro s q ha hq hlt hf
  rw [exchangeStep_awaiting ha]
  refine ⟨fun hle => ?_, fun hgt => ?_⟩
  · have he := (not_expired_iff s).mpr hle
    exact ⟨receiveStep_of_waiting hlt hf he, by simp [exchangeReady, ha, hf, he, hlt]⟩
  · have he := (expired_iff s).mpr hgt
    refine ⟨by simp [exchangeReady, ha, he], ?_⟩
    rw [receiveStep_of_expired hlt hf he, finishFail_of_owner hq]
    rfl

/-- Settles O26: the two branches of HeaderNotFound. -/
theorem noHeaderKeepsOnlyTheLastByte : Obligations.NoHeaderKeepsOnlyTheLastByte := by
  intro s buf b q ha hq hbuf hle hh
  rw [exchangeStep_awaiting ha, receiveStep_of_noHeader hle hh, headerNotFound]
  refine ⟨fun hin => ?_, fun hlate => ?_⟩
  · have hlast : s.rxBuf.drop (s.rxBuf.length - 1) = [b] := by simp [hbuf]
    rw [(not_expired_iff s).mpr hin, hlast]
    rfl
  · rw [if_pos ((expired_iff s).mpr hlate), finishFail_of_owner hq]
    rfl

/-- Settles O27: the branch HeaderLater. -/
theorem laterHeaderDiscardsWhatPrecedesIt : Obligations.LaterHeaderDiscardsWhatPrecedesIt := by
  intro s i ha hle hi hh
  rw [exchangeStep_awaiting ha, receiveStep_of_laterHeader hle hi hh]

/-- Settles O28: the first two branches of HeaderAtZero. -/
theorem headerAtZeroIsDroppedOrSetsTheLength : Obligations.HeaderAtZeroIsDroppedOrSetsTheLength := by
  intro s ha hle hh
  rw [exchangeStep_awaiting ha, receiveStep_of_headerAtZero hle hh]
  exact ⟨headerAtZero_of_spurious, headerAtZero_of_otherTarget⟩

/-- Settles O29: the third branch of HeaderAtZero, and the verdict on the frame. -/
theorem wholeFrameIsVerifiedAndMatched : Obligations.WholeFrameIsVerifiedAndMatched := by
  intro s q ha hq hle hh hi hl hw f result
  have hlen : f.length = s.want := List.length_take_of_le hle
  rw [exchangeStep_awaiting ha, receiveStep_of_headerAtZero hle hh, headerAtZero_of_target hi hl hw]
  refine ⟨fun ⟨hsum, hid, hmin⟩ => ?_, fun hbad => ?_⟩
  · rw [← hlen] at hsum hmin
    exact verifyFrame_of_answers hq hle ⟨hsum, hid, hmin⟩
  · refine verifyFrame_of_not_answers hq hle fun ⟨hsum, hid, hmin⟩ => ?_
    rw [ChecksumHolds, hlen] at hsum
    rw [hlen] at hmin
    rcases hbad with hbad | hbad | hbad
    · exact hbad hsum
    · exact hbad hid
    · omega

end Sys2Proof.Machine

/-!
The request/response sequencer (42_request_response.md): how the two SENDs begin their exchange or are turned away (R170 to
R172, R177), what TX_DONE makes of it (R173, R174, R178), and a whole answered unicast, from its command to its response
(R175, R176).
-/

namespace Sys2Proof.Machine

/-! Issue with TX_START, branch by branch (42_request_response.md R171, R172; 60_exceptions.md R253). -/

theorem exec_sendUnicast_of_port {s : State} (hp : s.port < s.ports.length) (id code : Byte) (params : List Byte) :
    exec (.sendUnicast id code params) s = .next (issueExchange s s.port .unicast id code params) :=
  command_of_port hp fun p s => issueExchange s p .unicast id code params

theorem exec_sendBroadcast_of_port {s : State} (hp : s.port < s.ports.length) (code : Byte) (params : List Byte) :
    exec (.sendBroadcast code params) s = .next (issueExchange s s.port .broadcast broadcastId code params) :=
  command_of_port hp fun p s => issueExchange s p .broadcast broadcastId code params

theorem issueExchange_unicast_broadcastId (s : State) (p : Nat) (code : Byte) (params : List Byte) :
    issueExchange s p .unicast broadcastId code params = completeFail s p .unicast .notAvailable := by
  simp [issueExchange]

section
variable {s : State} {kind : XKind} {id : Byte} {params : List Byte} (hid : ¬(kind = .unicast ∧ id = broadcastId))
include hid

theorem issueExchange_of_oversize (hlong : s.cfg.txMaxLen < params.length + 6) (p : Nat) (code : Byte) :
    issueExchange s p kind id code params = completeFail s p kind .txError := by
  rcases issueExchange_cases s p kind id code params with ⟨hk, hi, -⟩ | ⟨-, -, e⟩ | ⟨-, hfit, -⟩ | ⟨-, hfit, -⟩
  · exact absurd ⟨hk, hi⟩ hid
  · exact e
  · exact absurd hlong hfit.not_gt
  · exact absurd hlong hfit.not_gt

variable (hfit : params.length + 6 ≤ s.cfg.txMaxLen)
include hfit

theorem issueExchange_of_busy (hb : s.busy = true) (p : Nat) (code : Byte) :
    issueExchange s p kind id code params = completeFail s p kind .portBusy := by
  rcases issueExchange_cases s p kind id code params with ⟨hk, hi, -⟩ | ⟨-, hlong, -⟩ | ⟨-, -, -, e⟩ | ⟨-, -, hfree, -⟩
  · exact absurd ⟨hk, hi⟩ hid
  · exact absurd hlong hfit.not_gt
  · exact e
  · simp [hb] at hfree

theorem issueExchange_of_free (hb : s.busy = false) (p : Nat) (code : Byte) :
    issueExchange s p kind id code params = begun s p kind id (frameOf id code params) := by
  rcases issueExchange_cases s p kind id code params with ⟨hk, hi, -⟩ | ⟨-, hlong, -⟩ | ⟨-, -, hbusy, -⟩ | ⟨-, -, -, e⟩
  · exact absurd ⟨hk, hi⟩ hid
  · exact absurd hlong hfit.not_gt
  · simp [hb] at hbusy
  · exact e

end

/-! TX_DONE (42_request_response.md R173). -/

/-- Write with the end of its exchange writes the line, the environment, the owner's registers and the port's ownership. -/
theorem ended_writeTx (s : State) (q : Nat) (f : Port → Port) :
    ended (writeTx s).2 q f = { s with
      lineOut := s.lineOut ++ s.txBuf.take (writeTx s).1
      env := (writeTx s).2.env
      busy := false, xowner := none, xstate := .idle
      ports := s.ports.modify q f } :=
  congrArg (ended · q f) (writeTx_eq s)

/-- A unicast's TX_DONE of a whole frame starts the timer and the receive, whoever owns the exchange
(42_request_response.md R174, 40_transport.md R128, 41_frame_codec.md R143). -/
theorem txDone_of_written_unicast {s : State} (hk : s.xkind = .unicast) (hall : (writeTx s).1 = s.txBuf.length) :
    txDone s = { s with
      lineOut := s.lineOut ++ s.txBuf
      env := (writeTx s).2.env
      reqExpect := expectedLen s.cfg s.txBuf
      tDur := timeoutMs s (expectedLen s.cfg s.txBuf)
      tStart := s.now
      rxBuf := [], want := s.cfg.minFrame, xstate := .awaitingResponse } := by
  have hw := writeTx_eq s
  rw [hall, List.take_length] at hw
  have hdone : txDone s = parseStart (startTimer (writeTx s).2 (expectedLen s.cfg s.txBuf)) := by
    simp [txDone, hk, hall]
  exact hdone.trans (congrArg (fun w => parseStart (startTimer w (expectedLen s.cfg s.txBuf))) hw)

/-- A unicast of port `p` that has just written its whole frame `f`, and now receives (42_request_response.md R173, R174). -/
def written (s : State) (p : Nat) (id : Byte) (f : List Byte) (env : Env) : State :=
  { s with
    env := env
    lineOut := s.lineOut ++ f, rxFifo := []
    busy := true, xowner := some p, xstate := .awaitingResponse, xkind := .unicast
    reqId := id, reqExpect := expectedLen s.cfg f, txBuf := f
    tStart := s.now, tDur := timeoutMs s (expectedLen s.cfg f)
    rxBuf := [], want := s.cfg.minFrame }

/-- The exchange's step after a unicast was begun, when the line takes all of its frame (log 2). -/
theorem exchangeStep_begun_unicast {s : State} {f : List Byte} {draws : List Nat} (ho : s.lineOpen = true)
    (hdraw : s.env.writeDraws = f.length :: draws) (p : Nat) (id : Byte) (sched : List Move) (k : Nat) :
    ∃ env, exchangeStep (rescheduled (begun s p .unicast id f) sched k) = written s p id f env := by
  have hall : (writeTx (rescheduled (begun s p .unicast id f) sched k)).1 = f.length :=
    (writeTx_of_recorded (s := rescheduled (begun s p .unicast id f) sched k) ho hdraw).trans (Nat.min_self _)
  exact ⟨_, (exchangeStep_sending rfl).trans (txDone_of_written_unicast rfl hall)⟩

/-! Engine urgency in a run (70_reset_and_hazards.md R284). -/

theorem engineIdle_of_mem_moves {s : State} {m : Move} (hm : m ∈ moves s) (hwho : m = .line ∨ m = .clock) :
    engineIdle s = true := by
  rcases hwho with rfl | rfl
  · have h : engineIdle s = true ∧ s.env.lineIn ≠ [] ∧ lineRateAllows s = true := by simpa [mem_moves_iff] using hm
    exact h.1
  · simpa [mem_moves_iff] using hm

/-- While the exchange has an Engine step, neither the Clock nor the Line moves: a run that goes on begins with that step. -/
theorem LineRun.begins_with_exchange {s u : State} {delivered : List Byte} (run : LineRun s delivered u)
    (hready : exchangeReady s = true) :
    (u = s ∧ delivered = []) ∨
      ∃ sched draws, LineRun (exchangeStep (rescheduled s sched draws)) delivered u := by
  have hurgent : engineIdle s ≠ true := fun hidle => by simp [((engineIdle_iff s).mp hidle).1] at hready
  induction run with
  | start => exact .inl ⟨rfl, rfl⟩
  | quiet _ picked who moved ih =>
    rcases ih with ⟨rfl, rfl⟩ | ⟨sched, draws, later⟩
    · obtain ⟨hm, ⟨sched, draws, rfl⟩, hrun⟩ := step_of_picked picked moved
      rcases who with rfl | hclock
      · cases hrun
        exact .inr ⟨sched, draws, .start _⟩
      · exact absurd (engineIdle_of_mem_moves hm (.inr hclock)) hurgent
    · exact .inr ⟨sched, draws, .quiet later picked who moved⟩
  | line _ picked byte moved ih =>
    rcases ih with ⟨rfl, rfl⟩ | ⟨sched, draws, later⟩
    · exact absurd (engineIdle_of_mem_moves (step_of_picked picked moved).1 (.inl rfl)) hurgent
    · exact .inr ⟨sched, draws, .line later picked byte moved⟩

/-! The obligations. -/

/-- Settles O14: Issue's last branch, of a unicast. -/
theorem sendUnicastBeginsTheExchange : Obligations.SendUnicastBeginsTheExchange := by
  intro s id code params hp hid hfit hb
  rw [exec_sendUnicast_of_port hp, issueExchange_of_free (fun h => hid h.2) hfit hb]
  rfl

/-- Settles O15: Issue's three failing branches, of a unicast. -/
theorem sendUnicastTurnedAwayInOrder : Obligations.SendUnicastTurnedAwayInOrder := by
  intro s id code params c hp hc
  rw [exec_sendUnicast_of_port hp]
  rcases hc with ⟨rfl, rfl⟩ | ⟨hid, hlong, rfl⟩ | ⟨hid, hfit, hb, rfl⟩
  · exact congrArg Host.Outcome.next (issueExchange_unicast_broadcastId s s.port code params)
  · rw [issueExchange_of_oversize (fun h => hid h.2) hlong]
    rfl
  · rw [issueExchange_of_busy (fun h => hid h.2) hfit hb]
    rfl

/-- Settles O16: Issue's last branch, of a broadcast. -/
theorem sendBroadcastBeginsTheExchange : Obligations.SendBroadcastBeginsTheExchange := by
  intro s code params hp hfit hb
  rw [exec_sendBroadcast_of_port hp, issueExchange_of_free (by simp) hfit hb]
  rfl

/-- Settles O17: the two failing branches of Issue that a broadcast can take. -/
theorem sendBroadcastTurnedAwayInOrder : Obligations.SendBroadcastTurnedAwayInOrder := by
  intro s code params c hp hc
  rw [exec_sendBroadcast_of_port hp]
  rcases hc with ⟨hlong, rfl⟩ | ⟨hfit, hb, rfl⟩
  · rw [issueExchange_of_oversize (by simp) hlong]
    rfl
  · rw [issueExchange_of_busy (by simp) hfit hb]
    rfl

/-- Settles O20: TX_DONE's failing branch, of each kind. -/
theorem shortWriteIsTxFailAndReleases : Obligations.ShortWriteIsTxFailAndReleases := by
  intro s q hs hq hshort
  rw [exchangeStep_sending hs]
  rcases txDone_cases hq with ⟨hk, -, e⟩ | ⟨-, hall, -⟩ | ⟨hk, -, e⟩ | ⟨-, hall, -⟩
  · rw [e, ended_writeTx, hk]
    rfl
  · exact absurd hall hshort
  · rw [e, ended_writeTx, hk]
    rfl
  · exact absurd hall hshort

/-- Settles O22: TX_DONE's branch of a broadcast that was written whole. -/
theorem writtenBroadcastSucceedsAtOnce : Obligations.WrittenBroadcastSucceedsAtOnce := by
  intro s q hs hk hq hall
  rw [exchangeStep_sending hs]
  rcases txDone_cases hq with ⟨-, hshort, -⟩ | ⟨-, -, e⟩ | ⟨hk', -⟩ | ⟨hk', -⟩
  · exact absurd hall hshort
  · rw [e, ended_writeTx, hall, List.take_length]
    rfl
  · simp [hk] at hk'
  · simp [hk] at hk'

/-- Settles O23: TX_DONE's branch of a unicast that was written whole; `n` is ExpectedLen of the frame. -/
theorem writtenUnicastStartsTimerAndReceive : Obligations.WrittenUnicastStartsTimerAndReceive := by
  intro s hs hk hall n
  exact (exchangeStep_sending hs).trans (txDone_of_written_unicast hk hall)

/-- Settles O33: SEND_UNICAST begins the exchange, the run's first step writes the whole frame and starts the timer and the
receive, and the rest of the run delivers a frame that the block builds to that receive (O14, O23, O30). -/
theorem answeredUnicastSucceedsEndToEnd : Obligations.AnsweredUnicastSucceedsEndToEnd := by
  intro s id code err params data later draws hw hp hb ho hid hfit hdraw hmin hmax hdepth request response n
  have hne : id ≠ 0xFE := by
    obtain ⟨-, -, -, hmaxid, -⟩ := hw
    rintro rfl
    exact absurd (hid.trans hmaxid) (by decide)
  refine ⟨begun s s.port .unicast id request, sendUnicastBeginsTheExchange s id code params hp hne hfit hb,
    fun u run hend hin => ?_⟩
  rcases run.begins_with_exchange rfl with ⟨rfl, -⟩ | ⟨sched, k, receive⟩
  · cases hend
  · rw [← frameOf_length id code params] at hdraw
    obtain ⟨env, hwritten⟩ := exchangeStep_begun_unicast ho hdraw s.port id sched k
    rw [hwritten] at receive
    rw [frameOf_length id err data]
    exact (builtFrameIsReceivedAsItWasBuilt (written s s.port id request env) u s.port id err data _ later hw ho rfl rfl rfl
      rfl hdepth receive hend hin rfl rfl hid hmin hmax).2

end Sys2Proof.Machine

/-!
The group write buffer (43_group_write.md): what GWB_INIT, GWB_ADD and GWB_PAYLOAD make of the port's registers (R190 to
R192), and the one broadcast SYNC_WRITE of GWB_SEND, with what turns it away (R193 to R195).
-/

namespace Sys2Proof.Machine

/-! The port's own registers. -/

/-- Rewriting a port whose registers are known. -/
theorem onPort_of_getElem? {s : State} {p : Nat} {q : Port} (hq : s.ports[p]? = some q) (f : Port → Port) :
    onPort s p f = { s with ports := s.ports.set p (f q) } := by
  rw [onPort, modify_eq_set hq]

/-- A command that rewrites only the registers of its own port. -/
theorem command_onPort {s : State} {q : Port} (hq : s.ports[s.port]? = some q) (f : Port → Port) :
    command s (fun p s => onPort s p f) = .next { s with ports := s.ports.set s.port (f q) } := by
  obtain ⟨hp, -⟩ := List.getElem?_eq_some_iff.mp hq
  rw [command_of_port hp, onPort_of_getElem? hq]

/-! GWB_ADD (43_group_write.md R191). -/

theorem Port.gwbRejects_iff (q : Port) (id : Byte) (data : List Byte) : q.gwbRejects id data = true ↔
    q.gwbValid = false ∨ (∃ e ∈ q.gwbEntries, e.1 = id) ∨ data.length ≠ q.gwbWidth.toNat := by
  simp [Port.gwbRejects, Port.gwbIds, or_assoc]

theorem Port.gwbAdd_of_rejects {q : Port} {id : Byte} {data : List Byte} (h : q.gwbRejects id data = true) :
    q.gwbAdd id data = q.completeBool false :=
  if_pos h

theorem Port.gwbAdd_of_accepts {q : Port} {id : Byte} {data : List Byte} (h : ¬q.gwbRejects id data = true) :
    q.gwbAdd id data = ({ q with gwbEntries := q.gwbEntries ++ [(id, data)] }).completeBool true :=
  if_neg h

/-! GWB_SEND (43_group_write.md R193). -/

/-- The parameter block of a well-kept buffer of `k` entries of width `w`, in a frame, has `k * (1 + w) + 8` bytes
(43_group_write.md R195, 41_frame_codec.md R142). -/
theorem syncParams_length {q : Port} (hok : q.Ok) :
    q.syncParams.length + 6 = q.gwbEntries.length * (1 + q.gwbWidth.toNat) + 8 := by
  simp only [Port.syncParams, List.length_cons, payload_length hok]

section
variable {s : State} {q : Port} (hq : s.ports[s.port]? = some q)
include hq

theorem exec_gwbSend_of_empty (he : q.gwbEntries = []) :
    exec .gwbSend s = .next { s with ports := s.ports.set s.port (q.completeCode .success) } := by
  obtain ⟨hp, -⟩ := List.getElem?_eq_some_iff.mp hq
  have hsend : gwbSendCommand s.port s = onPort s s.port fun q => q.completeCode .success :=
    if_pos (by rwa [portAt_of_getElem? hq])
  rw [← onPort_of_getElem? hq fun q => q.completeCode .success, ← hsend]
  exact command_of_port hp gwbSendCommand

variable (he : q.gwbEntries ≠ [])
include he

/-- A non-empty buffer is issued as one broadcast of its parameter block. -/
theorem exec_gwbSend_of_nonempty :
    exec .gwbSend s = .next (issueExchange s s.port .broadcast broadcastId 0x83 q.syncParams) := by
  obtain ⟨hp, -⟩ := List.getElem?_eq_some_iff.mp hq
  have hsend : gwbSendCommand s.port s = issueExchange s s.port .broadcast broadcastId 0x83 q.syncParams := by
    rw [gwbSendCommand, portAt_of_getElem? hq]
    exact if_neg he
  rw [← hsend]
  exact command_of_port hp gwbSendCommand

/-- A parameter block past the frame limit is TxError, whoever holds the port (60_exceptions.md R253). -/
theorem exec_gwbSend_of_oversize (hlong : s.cfg.txMaxLen < q.syncParams.length + 6) :
    exec .gwbSend s = .next { s with ports := s.ports.set s.port (q.completeCode .txError) } := by
  rw [exec_gwbSend_of_nonempty hq he, issueExchange_of_oversize (by simp) hlong]
  exact congrArg _ (onPort_of_getElem? hq _)

variable (hfit : q.syncParams.length + 6 ≤ s.cfg.txMaxLen)
include hfit

theorem exec_gwbSend_of_busy (hb : s.busy = true) :
    exec .gwbSend s = .next { s with ports := s.ports.set s.port (q.completeCode .portBusy) } := by
  rw [exec_gwbSend_of_nonempty hq he, issueExchange_of_busy (by simp) hfit hb]
  exact congrArg _ (onPort_of_getElem? hq _)

theorem exec_gwbSend_of_free (hb : s.busy = false) :
    exec .gwbSend s =
      .next (begun s s.port .broadcast broadcastId (frameOf broadcastId 0x83 q.syncParams)) := by
  rw [exec_gwbSend_of_nonempty hq he, issueExchange_of_free (by simp) hfit hb]

end

/-! The obligations. -/

/-- Settles O43: the frame's length is the parameter block's, which Issue compares before it tests the busy flag. -/
theorem oversizeGroupIsTxError : Obligations.OversizeGroupIsTxError := by
  intro s q hq hok he frameLen
  have hlen : q.syncParams.length + 6 = frameLen := syncParams_length hok
  rw [← hlen]
  exact ⟨exec_gwbSend_of_oversize hq he, fun hfit hb =>
    ⟨_, exec_gwbSend_of_free hq he hfit hb, rfl, rfl, frameOf_length broadcastId 0x83 q.syncParams⟩⟩

/-- Settles O38: GWB_INIT is one completion of its own port, with a new buffer. -/
theorem gwbInitStartsAnEmptyBuffer : Obligations.GwbInitStartsAnEmptyBuffer :=
  fun _ addr width hp => command_of_port hp fun p s => onPort s p fun q => q.gwbInit addr width

/-- Settles O39: the two branches of GWB_ADD. -/
theorem gwbAddKeepsIdsDistinctAndWidthsEqual : Obligations.GwbAddKeepsIdsDistinctAndWidthsEqual := by
  intro s q id data hq
  have hexec : exec (.gwbAdd id data) s = .next { s with ports := s.ports.set s.port (q.gwbAdd id data) } :=
    command_onPort hq fun q => q.gwbAdd id data
  rw [hexec]
  refine ⟨fun ⟨hvalid, hnew, hwidth⟩ => ?_, fun hbad => ?_⟩
  · have haccepts : ¬q.gwbRejects id data = true := by
      rw [Port.gwbRejects_iff]
      rintro (hinvalid | ⟨e, he, hid⟩ | hother)
      · simp [hvalid] at hinvalid
      · exact hnew e he hid
      · exact hother hwidth
    rw [Port.gwbAdd_of_accepts haccepts]
    rfl
  · rw [Port.gwbAdd_of_rejects ((q.gwbRejects_iff id data).mpr hbad)]
    rfl

/-- Settles O40: GWB_PAYLOAD is one completion of its own port, with the buffer's payload, which is by definition the
flattened list of the entries' bytes. -/
theorem gwbPayloadIsTheEntriesInOrder : Obligations.GwbPayloadIsTheEntriesInOrder :=
  fun _ _ hq => command_onPort hq Port.gwbPayload

/-- Settles O41: an empty buffer completes before Issue is reached. -/
theorem emptyGwbSendIsANoOpSuccess : Obligations.EmptyGwbSendIsANoOpSuccess :=
  fun _ _ hq he => exec_gwbSend_of_empty hq he

/-- Settles O42: Issue's last branch and its busy one, of the broadcast of the whole buffer. -/
theorem gwbSendBeginsOneSyncWrite : Obligations.GwbSendBeginsOneSyncWrite :=
  fun _ _ hq he hfit => ⟨exec_gwbSend_of_free hq he hfit, exec_gwbSend_of_busy hq he hfit⟩

end Sys2Proof.Machine

/-!
The host's value encodings (44_device_api.md): the sign-magnitude words of a speed (R211) and of a position correction
(R212), which are one encoding with its sign in another bit.
-/

namespace Sys2Proof.Machine

/-- The word of magnitude `|v|` below sign bit `k`, of which `EncSpeed` and `EncCorr` are the cases 15 and 11. -/
def signMagnitude (k : Nat) (v : Int) : BitVec 16 :=
  if v < 0 then BitVec.twoPow 16 k ||| BitVec.ofNat 16 v.natAbs else BitVec.ofNat 16 v.natAbs

/-- What a word says by sign bit `k` and the magnitude below it, of which `DecSpeed` and `DecCorr` are the cases 15 and 11. -/
def signedValue (k : Nat) (w : BitVec 16) : Int :=
  if w.getLsbD k then -((w.extractLsb' 0 k).toNat : Int) else ((w.extractLsb' 0 k).toNat : Int)

theorem encSpeed_eq {v : Int} (hv : v.natAbs ≤ 0x7FFF) : encSpeed v = some (signMagnitude 15 v) := if_pos hv

theorem encCorr_eq {v : Int} (hv : v.natAbs ≤ 2047) : encCorr v = some (signMagnitude 11 v) := if_pos hv

theorem decSpeed_eq (w : BitVec 16) : decSpeed w = signedValue 15 w := rfl

theorem decCorr_eq (w : BitVec 16) : decCorr w = signedValue 11 w := rfl

section
variable {k : Nat} {v : Int} (hk : k < 16) (hv : v.natAbs < 2 ^ k)
include hk hv

/-- A magnitude that stays below the sign bit is added to it, not mixed with it. -/
theorem signMagnitude_toNat : (signMagnitude k v).toNat = 2 ^ k * (decide (v < 0)).toNat + v.natAbs := by
  have hsign : 2 ^ k < 2 ^ 16 := Nat.pow_lt_pow_right (by decide) hk
  have hmag : (BitVec.ofNat 16 v.natAbs).toNat = v.natAbs := Nat.mod_eq_of_lt (hv.trans hsign)
  by_cases hneg : v < 0
  · have hor : 2 ^ k ||| v.natAbs = 2 ^ k + v.natAbs := by simpa using (Nat.two_pow_add_eq_or_of_lt hv 1).symm
    rw [signMagnitude, if_pos hneg, BitVec.toNat_or, BitVec.toNat_twoPow_of_lt hk, hmag, hor]
    simp [hneg]
  · simp [signMagnitude, hneg, hmag]

theorem signMagnitude_sign : (signMagnitude k v).getLsbD k = decide (v < 0) := by
  rw [← BitVec.testBit_toNat, signMagnitude_toNat hk hv, Nat.testBit_two_pow_mul_add _ hv, if_neg (lt_irrefl k),
    Nat.sub_self]
  exact Nat.testBit_bool_toNat _ 0

theorem signMagnitude_magnitude : ((signMagnitude k v).extractLsb' 0 k).toNat = v.natAbs := by
  rw [BitVec.extractLsb'_toNat, Nat.shiftRight_zero, signMagnitude_toNat hk hv, Nat.mul_add_mod, Nat.mod_eq_of_lt hv]

theorem signedValue_signMagnitude : signedValue k (signMagnitude k v) = v := by
  rw [signedValue, signMagnitude_sign hk hv, signMagnitude_magnitude hk hv]
  by_cases hneg : v < 0
  · rw [if_pos (decide_eq_true hneg)]
    omega
  · rw [if_neg (by simpa using hneg)]
    omega

/-- No bit above the sign bit is set. -/
theorem signMagnitude_lt : (signMagnitude k v).toNat < 2 ^ (k + 1) := by
  rw [signMagnitude_toNat hk hv, Nat.pow_succ]
  have hsign : 2 ^ k * (decide (v < 0)).toNat ≤ 2 ^ k * 1 := Nat.mul_le_mul_left _ (Bool.toNat_le _)
  omega

end

/-! The obligation. -/

/-- Settles O60: both are the round trip of one encoding, whose sign bit stands above the whole range of magnitudes. -/
theorem signMagnitudeRoundTrips : Obligations.SignMagnitudeRoundTrips := by
  refine ⟨fun v hv => ⟨_, encSpeed_eq hv, ?_⟩, fun v hv => ⟨_, encCorr_eq hv, ?_⟩⟩
  · have hmag : v.natAbs < 2 ^ 15 := Nat.lt_succ_of_le hv
    exact ⟨(decSpeed_eq _).trans (signedValue_signMagnitude (by decide) hmag), signMagnitude_sign (by decide) hmag⟩
  · have hmag : v.natAbs < 2 ^ 11 := Nat.lt_succ_of_le hv
    exact ⟨(decCorr_eq _).trans (signedValue_signMagnitude (by decide) hmag), signMagnitude_sign (by decide) hmag,
      signMagnitude_lt (by decide) hmag⟩

end Sys2Proof.Machine

/-!
The wire instructions (45_wire_instructions.md): each is the SEND that carries its frame, so what a SEND does is what it does.
-/

namespace Sys2Proof.Machine

/-- To carry a frame is SEND_BROADCAST where its id is the broadcast id and SEND_UNICAST where it is not
(45_wire_instructions.md R234), on any port number, one that is no port included. -/
theorem command_carry (s : State) (id code : Byte) (params : List Byte) :
    command s (carry id code params) =
      if id = 0xFE then exec (.sendBroadcast code params) s else exec (.sendUnicast id code params) s := by
  by_cases hid : id = 0xFE
  · have hcarry : carry id code params = fun p s => issueExchange s p .broadcast broadcastId code params :=
      funext₂ fun _ _ => if_pos hid
    rw [if_pos hid, hcarry]
    rfl
  · have hcarry : carry id code params = fun p s => issueExchange s p .unicast id code params :=
      funext₂ fun _ _ => if_neg hid
    rw [if_neg hid, hcarry]
    rfl

/-- A carried frame that fits and finds the port free begins its exchange, of the kind its id names (O14, O16). -/
theorem command_carry_of_free {s : State} {params : List Byte} (hp : s.port < s.ports.length)
    (hfit : params.length + 6 ≤ s.cfg.txMaxLen) (hb : s.busy = false) (id code : Byte) :
    command s (carry id code params) =
      .next (begun s s.port (if id = 0xFE then .broadcast else .unicast) id (frameOf id code params)) := by
  rw [command_carry]
  by_cases hid : id = 0xFE
  · subst hid
    exact sendBroadcastBeginsTheExchange s code params hp hfit hb
  · rw [if_neg hid, if_neg hid]
    exact sendUnicastBeginsTheExchange s id code params hp hid hfit hb

/-! The obligations. -/

/-- Settles O19: the five are one carried frame, with their own codes. -/
theorem wireInstructionsAreCarriedUnchanged : Obligations.WireInstructionsAreCarriedUnchanged :=
  fun s id code params =>
    have carried := fun c : Byte => command_carry s id c params
    ⟨carried 0x01, carried 0x02, carried 0x03, carried 0x83, carried code⟩

/-- Settles O18: the four are one carried frame, which begins its exchange whatever its code. -/
theorem wireInstructionsBeginTheirExchanges : Obligations.WireInstructionsBeginTheirExchanges :=
  fun _ id _ hp hfit hb =>
    have carried := command_carry_of_free hp hfit hb id
    ⟨carried 0x01, carried 0x02, carried 0x03, carried 0x83⟩

end Sys2Proof.Machine

/-!
Exceptions and concurrency (60_exceptions.md): the two result codes that nothing produces (R249), and a command's confinement
to its own port's registers (R260).
-/

namespace Sys2Proof.Machine

/-! The result codes that are produced (60_exceptions.md R249). -/

/-- A result code that something produces: neither `rxFail` nor `rxWaiting` (30_encoding.md R96). -/
abbrev CommResult.Produced (c : CommResult) : Prop := c ≠ .rxFail ∧ c ≠ .rxWaiting

/-- A port has latched and returned only codes that are produced. -/
structure Port.OnlyProduced (q : Port) : Prop where
  latched : q.resCode.Produced
  returned : ∀ r ∈ q.completions, ∀ c, r.code = some c → c.Produced

theorem Port.onlyProduced_iff (q : Port) : q.OnlyProduced ↔
    q.resCode ≠ .rxFail ∧ q.resCode ≠ .rxWaiting ∧
      ∀ r ∈ q.completions, r.code ≠ some .rxFail ∧ r.code ≠ some .rxWaiting := by
  constructor
  · rintro ⟨⟨hf, hw⟩, hr⟩
    exact ⟨hf, hw, fun r hmem => ⟨fun e => (hr r hmem _ e).1 rfl, fun e => (hr r hmem _ e).2 rfl⟩⟩
  · rintro ⟨hf, hw, hr⟩
    refine ⟨⟨hf, hw⟩, fun r hmem c hc => ⟨?_, ?_⟩⟩
    · rintro rfl
      exact (hr r hmem).1 hc
    · rintro rfl
      exact (hr r hmem).2 hc

/-- A completion keeps a port so when the code latched and the code returned, if any, are produced; the other registers may
be rewritten with it. -/
theorem Port.OnlyProduced.complete {q q' : Port} (h : q.OnlyProduced) (hlatched : q'.resCode.Produced)
    (hsame : q'.completions = q.completions) {r : Completion} (hr : ∀ c, r.code = some c → c.Produced) :
    (q'.complete r).OnlyProduced := by
  refine ⟨hlatched, fun r' hr' => ?_⟩
  rcases List.mem_append.mp hr' with hold | hnew
  · exact h.returned r' (hsame ▸ hold)
  · obtain rfl := List.mem_singleton.mp hnew
    exact hr

theorem Port.OnlyProduced.completeCode {q : Port} (h : q.OnlyProduced) {c : CommResult} (hc : c.Produced) :
    (q.completeCode c).OnlyProduced :=
  h.complete (q' := { q with resCode := c }) hc rfl fun _ e => Option.some.inj e ▸ hc

theorem Port.OnlyProduced.completeUnicast {q : Port} (h : q.OnlyProduced) {c : CommResult} (hc : c.Produced) (err : Byte)
    (data : List Byte) : (q.completeUnicast c err data).OnlyProduced :=
  h.complete (q' := { q with resCode := c, resErr := err, resData := data }) hc rfl fun _ e => Option.some.inj e ▸ hc

theorem PortEffect.onlyProduced {f : Command} {q q' : Port} (he : PortEffect f q q') (h : q.OnlyProduced) :
    q'.OnlyProduced := by
  have codeless : ∀ {x : Port} {r : Completion}, x.resCode = q.resCode → x.completions = q.completions → r.code = none →
      (x.complete r).OnlyProduced := fun hcode hsame hr => h.complete (hcode ▸ h.latched) hsame (by simp [hr])
  cases he with
  | bool b => exact codeless rfl rfl rfl
  | done => exact codeless rfl rfl rfl
  | value v => exact codeless rfl rfl rfl
  | code c hf hw => exact h.completeCode ⟨hf, hw⟩
  | unicast c hf hw => exact h.completeUnicast ⟨hf, hw⟩ 0 []
  | gwbInit addr width => exact codeless rfl rfl rfl
  | gwbAdd id data =>
    unfold Port.gwbAdd
    split
    · exact codeless rfl rfl rfl
    · exact codeless rfl rfl rfl
  | gwbPayload => exact codeless rfl rfl rfl

/-- Every port has latched and returned only codes that are produced. -/
def OnlyProduced (s : State) : Prop := ∀ q ∈ s.ports, q.OnlyProduced

theorem OnlyProduced.of_ports_eq {s t : State} (h : OnlyProduced s) (e : t.ports = s.ports) : OnlyProduced t :=
  fun q hq => h q (e ▸ hq)

theorem OnlyProduced.of_ports_modify {s t : State} (h : OnlyProduced s) {p : Nat} {f : Port → Port}
    (e : t.ports = s.ports.modify p f) (hf : ∀ q : Port, q.OnlyProduced → (f q).OnlyProduced) : OnlyProduced t := by
  intro q hq
  rcases mem_modify (e ▸ hq) with hold | ⟨r, hr, rfl⟩
  · exact h q hold
  · exact hf r (h r hr)

theorem CommandCase.onlyProduced {c : Command} {s t : State} (hc : CommandCase c s t) (h : OnlyProduced s) :
    OnlyProduced t := by
  rcases hc.ports with e | ⟨g, hg, e⟩
  · exact h.of_ports_eq e
  · exact h.of_ports_modify e fun q hq => (hg q).onlyProduced hq

theorem OnlyProduced.serve {s t : State} (h : OnlyProduced s) {p : Nat} (ht : serve p s = .next t) : OnlyProduced t := by
  unfold Machine.serve at ht
  split at ht
  · cases ht
    exact h
  · exact (runCommand_cases ht).2.onlyProduced (h.of_ports_eq rfl)

theorem OnlyProduced.hostIssue {s t : State} (h : OnlyProduced s) {p : Nat} (ht : hostIssue s p = .next t) :
    OnlyProduced t := by
  unfold Machine.hostIssue at ht
  split at ht
  · cases ht
    exact h
  · split at ht <;> cases ht
    exact h.of_ports_modify rfl fun _ hq => ⟨hq.latched, hq.returned⟩

/-! The exchange, whose every end latches a produced code. -/

section
variable {s : State} {q : Nat}

theorem OnlyProduced.ended_unicast (h : OnlyProduced s) {c : CommResult} (hc : c.Produced) (err : Byte) (data : List Byte) :
    OnlyProduced (ended s q fun x => x.completeUnicast c err data) :=
  h.of_ports_modify (ended_ports ..) fun _ hx => hx.completeUnicast hc err data

theorem OnlyProduced.ended_broadcast (h : OnlyProduced s) {c : CommResult} (hc : c.Produced) :
    OnlyProduced (ended s q fun x => x.completeCode c) :=
  h.of_ports_modify (ended_ports ..) fun _ hx => hx.completeCode hc

theorem OnlyProduced.txDone (h : OnlyProduced s) (hq : s.xowner = some q) : OnlyProduced (txDone s) := by
  have hwrite : OnlyProduced (writeTx s).2 := h.of_ports_eq (writeTx_ports s)
  rcases txDone_cases hq with ⟨-, -, e⟩ | ⟨-, -, e⟩ | ⟨-, -, e⟩ | ⟨-, -, e⟩ <;> rw [e]
  · exact hwrite.ended_broadcast (by decide)
  · exact hwrite.ended_broadcast (by decide)
  · exact hwrite.ended_unicast (by decide) 0 []
  · exact hwrite.of_ports_eq rfl

theorem OnlyProduced.verifyFrame (h : OnlyProduced s) (hq : s.xowner = some q) : OnlyProduced (verifyFrame s) := by
  have hempty : OnlyProduced { s with rxBuf := [] } := h
  rcases verifyFrame_cases hq with ⟨e, -⟩ | e <;> rw [e]
  · exact hempty.ended_unicast (by decide) _ _
  · exact hempty.ended_unicast (by decide) 0 []

theorem OnlyProduced.receiveStep (h : OnlyProduced s) (hq : s.xowner = some q) : OnlyProduced (receiveStep s) := by
  have fails : ∀ c : CommResult, c.Produced →
      OnlyProduced (ended { s with rxBuf := [] } q fun x => x.completeUnicast c 0 []) := fun c hc =>
    ended_unicast (s := { s with rxBuf := [] }) h hc 0 []
  have hc := receiveStep_cases hq
  generalize Machine.receiveStep s = t at hc
  cases hc with
  | expireEmpty => exact fails .rxTimeout (by decide)
  | expirePartial => exact fails .rxCorrupt (by decide)
  | noHeaderExpired => exact fails .rxCorrupt (by decide)
  | verify => exact h.verifyFrame hq
  | _ => exact h

/-- An exchange that no port owns completes nothing. -/
theorem exchangeStep_ports_of_unowned (hn : s.xowner = none) : (exchangeStep s).ports = s.ports := by
  simp only [exchangeStep, txDone, receiveStep, parsePull, parseExpire, parseEval, headerNotFound, headerLater,
    headerAtZero, verifyFrame, finishFail, finishOk, postReceive, completeUnicastExchange, completeOk, completeBroadcast,
    writeTx_xowner, hn]
  repeat' split
  all_goals simp

theorem OnlyProduced.exchangeStep (h : OnlyProduced s) : OnlyProduced (exchangeStep s) := by
  cases ho : s.xowner with
  | none => exact h.of_ports_eq (exchangeStep_ports_of_unowned ho)
  | some q =>
    cases hx : s.xstate with
    | idle => simpa [Machine.exchangeStep, hx] using h
    | sending => exact exchangeStep_sending hx ▸ h.txDone ho
    | awaitingResponse => exact exchangeStep_awaiting hx ▸ h.receiveStep ho

end

theorem onlyProduced_resetWith (cfg : Params) (now : Millis) (env : Env) :
    OnlyProduced (State.resetWith cfg now env) := by
  intro q hq
  obtain rfl : q = Port.reset := List.eq_of_mem_replicate hq
  exact ⟨by decide, by simp [Port.reset]⟩

theorem OnlyProduced.runMove {s t : State} (h : OnlyProduced s) {m : Move} (ht : runMove m s = .next t) :
    OnlyProduced t := by
  cases m with
  | exchange => cases ht; exact h.exchangeStep
  | serve p => exact h.serve ht
  | issue p => exact h.hostIssue ht
  | line => cases ht; exact h.of_ports_eq (lineMove_ports s)
  | clock => cases ht; exact h.of_ports_eq (by rw [clockMove_eq])
  | reset => cases ht; exact onlyProduced_resetWith _ _ _

/-! A command's own port (60_exceptions.md R260). -/

/-- The shared state of `s` with other ports. -/
def withPorts (s : State) (ps : List Port) : State := { s with ports := ps }

/-- `F` reads and rewrites no port's registers but port `p`'s: where only other ports differ, it does the same to the shared
state, and the same to port `p`. -/
def OwnPortOnly (p : Nat) (F : State → State) : Prop :=
  ∀ (s : State) (ps : List Port), ps[p]? = s.ports[p]? →
    ∃ g : Port → Port, (F s).ports = s.ports.modify p g ∧ F (withPorts s ps) = withPorts (F s) (ps.modify p g)

section
variable {s : State} {ps : List Port} {p : Nat} (hps : ps[p]? = s.ports[p]?)
include hps

theorem portAt_withPorts : portAt (withPorts s ps) p = portAt s p := by
  simp [portAt, withPorts, List.getD, hps]

theorem regView_withPorts (reg : BitVec 32) : regView (withPorts s ps) p reg = regView s p reg := by
  simp only [regView, statusByte, portAt_withPorts hps]
  rfl

end

theorem drawOpen_withPorts (s : State) (ps : List Port) :
    drawOpen (withPorts s ps) = ((drawOpen s).1, withPorts (drawOpen s).2 ps) := by
  unfold drawOpen withPorts
  cases s.env.openDraws <;> rfl

section
variable {p : Nat}

/-- A branch on the shared state and port `p`. -/
theorem OwnPortOnly.ite {C : State → Prop} {_ : DecidablePred C} {F G : State → State}
    (hC : ∀ s ps, ps[p]? = s.ports[p]? → (C (withPorts s ps) ↔ C s)) (hF : OwnPortOnly p F) (hG : OwnPortOnly p G) :
    OwnPortOnly p fun s => if C s then F s else G s := by
  intro s ps hps
  simp only [hC s ps hps]
  by_cases h : C s
  · simpa only [if_pos h] using hF s ps hps
  · simpa only [if_neg h] using hG s ps hps

/-- A change of the shared state, and then of port `p`. -/
theorem ownPortOnly_onPort_of_shared {h : State → State} (hports : ∀ s, (h s).ports = s.ports)
    (hcomm : ∀ s ps, h (withPorts s ps) = withPorts (h s) ps) (g : Port → Port) :
    OwnPortOnly p fun s => onPort (h s) p g := by
  intro s ps _
  refine ⟨g, congrArg (List.modify · p g) (hports s), ?_⟩
  simp only [hcomm]
  rfl

theorem ownPortOnly_onPort (g : Port → Port) : OwnPortOnly p fun s => onPort s p g :=
  ownPortOnly_onPort_of_shared (h := id) (fun _ => rfl) (fun _ _ => rfl) g

end

theorem ownPortOnly_openAccepted (baud : BitVec 32) (p : Nat) :
    OwnPortOnly p fun s => openAccepted (drawOpen s).2 p baud := by
  intro s ps _
  refine ⟨_, congrArg (List.modify · p _) (drawOpen_ports s), ?_⟩
  simp only [drawOpen_withPorts]
  rfl

theorem ownPortOnly_openCommand (baud : BitVec 32) (p : Nat) : OwnPortOnly p (openCommand baud p) := by
  refine .ite (fun _ _ _ => Iff.rfl) (ownPortOnly_onPort _) (.ite (fun _ _ _ => Iff.rfl) (ownPortOnly_onPort _) ?_)
  refine .ite (fun s ps _ => by rw [drawOpen_withPorts]) (ownPortOnly_openAccepted baud p) ?_
  exact ownPortOnly_onPort_of_shared drawOpen_ports (fun s ps => by rw [drawOpen_withPorts]) _

theorem ownPortOnly_closeCommand (p : Nat) : OwnPortOnly p (closeCommand p) := by
  refine .ite (fun _ _ _ => Iff.rfl) (ownPortOnly_onPort _) ?_
  exact ownPortOnly_onPort_of_shared (h := fun s => { fifoFlush s with lineOpen := false }) (fun _ => rfl) (fun _ _ => rfl) _

theorem ownPortOnly_readRegCommand (reg : BitVec 32) (p : Nat) : OwnPortOnly p (readRegCommand reg p) := by
  intro s ps hps
  simp only [readRegCommand, regView_withPorts hps]
  exact ownPortOnly_onPort _ s ps hps

theorem ownPortOnly_completeFail (p : Nat) (kind : XKind) (c : CommResult) :
    OwnPortOnly p fun s => completeFail s p kind c := by
  simp only [completeFail_eq_onPort]
  exact ownPortOnly_onPort _

theorem ownPortOnly_begun (p : Nat) (kind : XKind) (reqId : Byte) (f : List Byte) :
    OwnPortOnly p fun s => begun s p kind reqId f :=
  fun s ps _ => ⟨id, (List.modify_id p s.ports).symm,
    congrArg (withPorts (begun s p kind reqId f)) (List.modify_id p ps).symm⟩

/-- Issue as a chain of branches on the shared state (60_exceptions.md R253). -/
theorem issueExchange_eq (s : State) (p : Nat) (kind : XKind) (id code : Byte) (params : List Byte) :
    issueExchange s p kind id code params =
      if kind = .unicast ∧ id = broadcastId then completeFail s p kind .notAvailable
      else if s.cfg.txMaxLen < params.length + 6 then completeFail s p kind .txError
      else if s.busy = true then completeFail s p kind .portBusy
      else begun s p kind id (frameOf id code params) := by
  rcases issueExchange_cases s p kind id code params with
    ⟨hk, hid, e⟩ | ⟨hid, hlong, e⟩ | ⟨hid, hfit, hb, e⟩ | ⟨hid, hfit, hb, e⟩
  · rw [e, if_pos ⟨hk, hid⟩]
  · rw [e, if_neg hid, if_pos hlong]
  · rw [e, if_neg hid, if_neg hfit.not_gt, if_pos hb]
  · rw [e, if_neg hid, if_neg hfit.not_gt, if_neg (by simp [hb])]

theorem ownPortOnly_issueExchange (p : Nat) (kind : XKind) (id code : Byte) (params : List Byte) :
    OwnPortOnly p fun s => issueExchange s p kind id code params := by
  simp only [issueExchange_eq]
  refine .ite (fun _ _ _ => Iff.rfl) (ownPortOnly_completeFail p kind _) ?_
  refine .ite (fun _ _ _ => Iff.rfl) (ownPortOnly_completeFail p kind _) ?_
  exact .ite (fun _ _ _ => Iff.rfl) (ownPortOnly_completeFail p kind _) (ownPortOnly_begun p kind id _)

theorem ownPortOnly_gwbSendCommand (p : Nat) : OwnPortOnly p (gwbSendCommand p) := by
  refine .ite (fun s ps hps => by rw [portAt_withPorts hps]) (ownPortOnly_onPort _) fun s ps hps => ?_
  simp only [portAt_withPorts hps]
  exact ownPortOnly_issueExchange p _ _ _ _ s ps hps

theorem ownPortOnly_carry (id code : Byte) (params : List Byte) (p : Nat) : OwnPortOnly p (carry id code params p) :=
  .ite (fun _ _ _ => Iff.rfl) (ownPortOnly_issueExchange p _ _ _ _) (ownPortOnly_issueExchange p _ _ _ _)

/-- Every instruction is a command of port `s.port`, and keeps to that port's registers. -/
theorem exec_ownPortOnly (i : Instr) :
    ∃ F : Nat → State → State, (∀ s, exec i s = command s F) ∧ ∀ p, OwnPortOnly p (F p) := by
  cases i with
  | openLine baud => exact ⟨_, fun _ => rfl, ownPortOnly_openCommand baud⟩
  | closeLine => exact ⟨_, fun _ => rfl, ownPortOnly_closeCommand⟩
  | readReg reg => exact ⟨_, fun _ => rfl, ownPortOnly_readRegCommand reg⟩
  | sendUnicast id code params => exact ⟨_, fun _ => rfl, fun p => ownPortOnly_issueExchange p .unicast id code params⟩
  | sendBroadcast code params =>
    exact ⟨_, fun _ => rfl, fun p => ownPortOnly_issueExchange p .broadcast broadcastId code params⟩
  | gwbInit addr width => exact ⟨_, fun _ => rfl, fun p => ownPortOnly_onPort fun q => q.gwbInit addr width⟩
  | gwbAdd id data => exact ⟨_, fun _ => rfl, fun p => ownPortOnly_onPort fun q => q.gwbAdd id data⟩
  | gwbPayload => exact ⟨_, fun _ => rfl, fun p => ownPortOnly_onPort Port.gwbPayload⟩
  | gwbSend => exact ⟨_, fun _ => rfl, ownPortOnly_gwbSendCommand⟩
  | ping id params => exact ⟨_, fun _ => rfl, ownPortOnly_carry id 0x01 params⟩
  | read id params => exact ⟨_, fun _ => rfl, ownPortOnly_carry id 0x02 params⟩
  | write id params => exact ⟨_, fun _ => rfl, ownPortOnly_carry id 0x03 params⟩
  | syncWrite id params => exact ⟨_, fun _ => rfl, ownPortOnly_carry id 0x83 params⟩

/-! The obligations. -/

/-- Settles O53: a step is one enabled move, and whatever an agent's move latches or returns is a code that is produced. -/
theorem rxFailAndRxWaitingAreNeverProduced : Obligations.RxFailAndRxWaitingAreNeverProduced := by
  intro s t hs hstep
  obtain ⟨-, m, -, sched, draws, -, hrun⟩ := step_eq_next hstep
  have h : OnlyProduced (rescheduled s sched draws) := fun q hq => (Port.onlyProduced_iff q).mpr (hs q hq)
  exact fun q hq => (Port.onlyProduced_iff q).mp (h.runMove hrun q hq)

/-- Settles O57: an instruction rewrites its own port by one function of the shared state and that port. -/
theorem portsKeepTheirOwnRegisters : Obligations.PortsKeepTheirOwnRegisters := by
  intro i s t ports' hexec hlen hown
  obtain ⟨F, hF, honly⟩ := exec_ownPortOnly i
  obtain ⟨hp, rfl⟩ := (command_eq_next_iff s t F).mp (hF s ▸ hexec)
  obtain ⟨g, hports, hother⟩ := honly s.port s ports' hown
  refine ⟨fun p hne => ?_, withPorts (F s.port s) (ports'.modify s.port g), ?_, ?_, rfl⟩
  · rw [hports]
    exact List.getElem?_modify_ne g s.ports hne.symm
  · rw [hF, command_of_port (hlen ▸ hp)]
    exact congrArg _ hother
  · rw [hports]
    simp [withPorts, hown]

end Sys2Proof.Machine

/-!
Reset and hazards (70_reset_and_hazards.md): reset from any state (R270), and what the Clock and the Line wait for, the Engine
(R284) and, between two deliveries, the line rate (40_transport.md R132).
-/

namespace Sys2Proof.Machine

/-! What the Clock and the Line wait for (70_reset_and_hazards.md R284). -/

theorem clock_mem_moves_iff (s : State) : Move.clock ∈ moves s ↔ engineIdle s = true := by
  simp [mem_moves_iff]

theorem line_mem_moves_iff (s : State) : Move.line ∈ moves s ↔
    engineIdle s = true ∧ s.env.lineIn ≠ [] ∧ lineRateAllows s = true := by
  simp [mem_moves_iff]

/-- The line rate of an open line (40_transport.md R132). -/
theorem lineRateAllows_iff_of_open {s : State} (ho : s.lineOpen = true) : lineRateAllows s = true ↔
    ∀ u, s.env.lastRx = some u → s.msPerByte ≤ s.now - u := by
  cases hu : s.env.lastRx <;> simp [lineRateAllows, hu, ho]

/-! What keeps the time of the last delivery (log 14). -/

theorem drawWrite_lastRx (s : State) (L : Nat) : (drawWrite s L).2.env.lastRx = s.env.lastRx := by
  unfold drawWrite
  split <;> rfl

theorem writeTx_lastRx (s : State) : (writeTx s).2.env.lastRx = s.env.lastRx := by
  unfold writeTx
  split
  · exact drawWrite_lastRx s _
  · rfl

theorem completeUnicastExchange_env (s : State) (c : CommResult) : (completeUnicastExchange s c).env = s.env := by
  unfold completeUnicastExchange
  split <;> rfl

theorem completeOk_env (s : State) (f : List Byte) : (completeOk s f).env = s.env := by
  unfold completeOk
  split <;> rfl

theorem completeBroadcast_env (s : State) (c : CommResult) : (completeBroadcast s c).env = s.env := by
  unfold completeBroadcast
  split <;> rfl

theorem verifyFrame_env (s : State) : (verifyFrame s).env = s.env := by
  simp only [verifyFrame, finishOk, finishFail, postReceive]
  repeat' split
  all_goals simp [completeUnicastExchange_env, completeOk_env]

/-- The receive reads the FIFO, not the environment (41_frame_codec.md R145). -/
theorem receiveStep_env (s : State) : (receiveStep s).env = s.env := by
  simp only [receiveStep, parsePull, parseExpire, parseEval, headerNotFound, headerLater, headerAtZero, finishFail]
  repeat' split
  all_goals simp [completeUnicastExchange_env, verifyFrame_env]

theorem txDone_lastRx (s : State) : (txDone s).env.lastRx = s.env.lastRx := by
  simp only [txDone]
  repeat' split
  all_goals simp [completeUnicastExchange_env, completeBroadcast_env, writeTx_lastRx]

theorem exchangeStep_lastRx (s : State) : (exchangeStep s).env.lastRx = s.env.lastRx := by
  cases hx : s.xstate with
  | idle => simp [exchangeStep, hx]
  | sending => rw [exchangeStep_sending hx, txDone_lastRx]
  | awaitingResponse => rw [exchangeStep_awaiting hx, receiveStep_env]

/-- While the line is open, OPEN keeps the record too, and so does every other command. -/
theorem CommandCase.lastRx {c : Command} {s t : State} (hc : CommandCase c s t) (ho : s.lineOpen = true) :
    t.env.lastRx = s.env.lastRx := by
  cases hc with
  | atOnce => rfl
  | openRefused => exact drawOpen_lastRx s
  | opened => simp [drawOpen_lastRx, ho]
  | closed => rfl
  | began => rfl

theorem serve_lastRx {s t : State} {p : Nat} (ht : serve p s = .next t) (ho : s.lineOpen = true) :
    t.env.lastRx = s.env.lastRx := by
  unfold serve at ht
  split at ht
  · cases ht
    rfl
  · exact (runCommand_cases ht).2.lastRx ho

theorem hostIssue_lastRx {s t : State} {p : Nat} (ht : hostIssue s p = .next t) : t.env.lastRx = s.env.lastRx := by
  unfold hostIssue at ht
  split at ht
  · cases ht
    rfl
  · split at ht <;> cases ht
    rfl

theorem clockMove_lastRx (s : State) : (clockMove s).env.lastRx = s.env.lastRx := by
  rw [clockMove_eq, drawTime_env]

/-- A move other than the Line's that leaves an open line open, so is no reset, leaves the record. -/
theorem runMove_lastRx {s t : State} {m : Move} (hm : m ≠ .line) (ht : runMove m s = .next t) (ho : s.lineOpen = true)
    (hopen : t.lineOpen = true) : t.env.lastRx = s.env.lastRx := by
  cases m with
  | exchange => cases ht; exact exchangeStep_lastRx s
  | serve p => exact serve_lastRx ht ho
  | issue p => exact hostIssue_lastRx ht
  | line => exact absurd rfl hm
  | clock => cases ht; exact clockMove_lastRx s
  | reset => cases ht; cases hopen

/-- A delivery to an open line, queued or dropped, is recorded (40_transport.md R131, R132). -/
theorem lineMove_lastRx {s : State} (ho : s.lineOpen = true) (hin : s.env.lineIn ≠ []) :
    (lineMove s).env.lastRx = some s.now := by
  obtain ⟨b, rest, hb⟩ := List.exists_cons_of_ne_nil hin
  simp [lineMove_cons hb, lineDeliver, ho]

/-! The obligations. -/

/-- Settles O46: both agents need an idle Engine and the Line its rate too, and only a delivery writes the record while the
line stays open. -/
theorem lineAndClockWaitForTheEngine : Obligations.LineAndClockWaitForTheEngine := by
  intro s engineWaits
  have hidle : engineIdle s = true ↔ engineWaits := by rw [engineIdle_iff, not_servable_iff]
  have hrate : Move.line ∈ moves s → s.lineOpen = true → ∀ u, s.env.lastRx = some u → s.msPerByte ≤ s.now - u := by
    intro hm ho
    obtain ⟨-, -, hallows⟩ := (line_mem_moves_iff s).mp hm
    exact (lineRateAllows_iff_of_open ho).mp hallows
  refine ⟨?_, fun h => (clock_mem_moves_iff s).mpr (hidle.mpr h), hrate, fun t u hstep ho hopen hu => ?_⟩
  · rintro (hm | hm)
    · exact hidle.mp (engineIdle_of_mem_moves hm (.inl rfl))
    · exact hidle.mp (engineIdle_of_mem_moves hm (.inr rfl))
  · obtain ⟨-, m, hm, sched, draws, -, hrun⟩ := step_eq_next hstep
    by_cases hline : m = .line
    · subst hline
      cases hrun
      obtain ⟨-, hin, -⟩ := (line_mem_moves_iff s).mp hm
      exact .inr ⟨lineMove_lastRx (s := rescheduled s sched draws) ho hin, hrate hm ho u hu⟩
    · exact .inl ((runMove_lastRx (s := rescheduled s sched draws) hline hrun ho hopen).trans hu)

/-- Settles O47: reset is the reset values with the parameters and `NOW`, read element by element. -/
theorem resetKeepsOnlyTime : Obligations.ResetKeepsOnlyTime := by
  intro s
  refine ⟨resetBlock { s with env := { s.env with resets := s.env.resets - 1 } }, rfl, ?_⟩
  simp [Port.reset]

end Sys2Proof.Machine
